-- ==== Sys2Proof/Word.lean ====
section
/-! DEFINITION. The word types of LSBCODEC (00_scope.md rule R14): a byte is 8 bits, a host register
word 32 bits, a cursor or the carrier length 64 bits. All values are unsigned. -/

namespace Sys2Proof

/-- 8 bits (rule R14). -/
abbrev Byte := BitVec 8

/-- One host register word, 32 bits (20_memory.md rule R62). -/
abbrev Word := BitVec 32

/-- A 64-bit quantity, held on the host side as a LO and a HI word (10_state.md rules R23, R32). -/
abbrev DWord := BitVec 64

end Sys2Proof
end

