-- ==== Sys2Proof/Config.lean ====
section
/-! DEFINITION. The configuration record `cfg` (00_scope.md rules R8 to R12) and the constants that
the spec leaves open. Nothing else is a parameter (rule R12). -/

namespace Sys2Proof

/-- The four parameters fixed when the block is built (rules R8 to R11). Their bounds are
`Config.Wf` (WellFormed.lean). -/
structure Config where
  /-- HEADER_SIZE, rule R8. -/
  headerSize : Nat
  /-- MARKER, rule R9. -/
  marker     : List Byte
  /-- EXT_BUF_CAP, rule R10. -/
  extBufCap  : Nat
  /-- PAY_BUF_CAP, rule R11. -/
  payBufCap  : Nat
deriving DecidableEq, Repr

/-- `L = len(MARKER)` (rules R9, R17). -/
abbrev Config.markerLen (c : Config) : Nat := c.marker.length

/-- `required(L, E, P) = 8*L + 32 + 8*E + 32 + 8*P` (rule R17). -/
def Config.required (c : Config) (e p : Nat) : Nat :=
  8 * c.markerLen + 32 + 8 * e + 32 + 8 * p

/-! The open parameters (93_implementation_defined.md U17; log 1). Each ranges over exactly the
values that rules R9 to R11 admit, and no value of any of them can be proved. -/

/-- L - 1, so that 1 <= L <= 256 (rule R9). -/
opaque Config.openMarkerLenLess1 : Fin 256

/-- MARKER[i] - 1, so that every marker byte is in 0x01..0x7F (rule R9). -/
opaque Config.openMarkerByteLess1 : Nat → Fin 127

/-- EXT_BUF_CAP - 1, so that 1 <= EXT_BUF_CAP <= 256 (rule R10). -/
opaque Config.openExtBufCapLess1 : Fin 256

/-- PAY_BUF_CAP, 0 <= PAY_BUF_CAP <= 2^32 - 1 (rule R11). -/
opaque Config.openPayBufCap : Word

/-- The configuration of the block after State.reset: HEADER_SIZE at its default 54 (rule R8), the
other three open (log 1). -/
def Config.installed : Config where
  headerSize := 54
  marker := (List.range (Config.openMarkerLenLess1.val + 1)).map fun i =>
    BitVec.ofNat 8 ((Config.openMarkerByteLess1 i).val + 1)
  extBufCap := Config.openExtBufCapLess1.val + 1
  payBufCap := Config.openPayBufCap.toNat

/-! Free values: what the spec calls unspecified and lets the machine go on with. Each is applied to
the counter `State.free` (log 7), so that every use has a value of its own. -/

/-- An MBUF entry not written since reset (93 U3, 10_state.md rule R37): use, index (log 6). -/
opaque Config.freeMbuf : Nat → Nat → Byte

/-- A PBUF entry not written since reset (93 U3, 10_state.md rule R38): use, index (log 6). -/
opaque Config.freePbuf : Nat → Nat → Byte

/-- The position of an input port after a read answered `Fail` (93 U4, 20_memory.md rule R71; log 8),
or while one is never answered (log 24). -/
opaque Config.freePosition : Nat → Nat

/-- Whether the sink kept byte i of a write answered `Fail` (93 U5, 20_memory.md rule R72; log 9),
or of one that is never answered (log 24). -/
opaque Config.freeKept : Nat → Nat → Bool

end Sys2Proof
end

