-- ==== Sys2Proof/Syntax.lean ====
section
/-! DEFINITION. The seven commands (30_encoding.md rule R91), one constructor per row of
spec/opcode_table.json. No command has an operand field: its operands are fixed registers. -/

namespace Sys2Proof

/-- A command written to CTRL (rule R91). -/
inductive Instr where
  | nop       -- 40_bit_codec.md rule R130
  | pack8     -- rule R131
  | pack32    -- rule R132
  | unpack8   -- rule R133
  | unpack32  -- rule R134
  | embed     -- 41_embedder.md rule R150
  | extract   -- 42_extractor.md rule R180
deriving DecidableEq, Repr

end Sys2Proof
end

