-- ==== Sys2Proof/WellFormed.lean ====
section
/-! DEFINITION. What a legal configuration, command, command word and host access are. -/

namespace Sys2Proof

/-- The bounds of 00_scope.md rules R8 to R11. -/
abbrev Config.Wf (c : Config) : Prop :=
  c.headerSize < 4294967296 ∧
  (1 ≤ c.marker.length ∧ c.marker.length ≤ 256) ∧
  (∀ b ∈ c.marker, 1 ≤ b.toNat ∧ b.toNat ≤ 127) ∧
  (1 ≤ c.extBufCap ∧ c.extBufCap ≤ 256) ∧
  c.payBufCap < 4294967296

/-- A command has no immediate and no register field (30_encoding.md rule R93), so each of the seven
is well formed; one case per constructor. -/
def Instr.wf (i : Instr) : Bool :=
  match i with
  | .nop => true
  | .pack8 => true
  | .pack32 => true
  | .unpack8 => true
  | .unpack32 => true
  | .embed => true
  | .extract => true

/-- A command word that is not reserved: bits 31:3 are 0 and OP is not 7 (rules R92, R94). -/
abbrev CommandWordWf (w : Word) : Prop :=
  w.extractLsb' 3 29 = 0#29 ∧ w.extractLsb' 0 3 ≠ 7#3

/-- A host access of `size` bytes at byte offset `off` is a whole 32-bit word at a multiple of 4
below 0x1000 (20_memory.md rules R62, R65). -/
abbrev HostAccessWf (size off : Nat) : Prop :=
  size = 4 ∧ off % 4 = 0 ∧ off < 0x1000

end Sys2Proof
end

