-- ==== Sys2Proof/Decode.lean ====
section
/-! DEFINITION. The decoder of a command word (30_encoding.md rules R90 to R94), total on all words,
and the encoder. The READY test that rule R90 makes first stands in the commands' meanings. -/

namespace Sys2Proof

/-- Why a command word is rejected (rule R94). -/
inductive DecodeError where
  | reservedBits  -- bits 31:3 are not 0
  | reservedOp    -- OP = 7
deriving DecidableEq, Repr

/-- OP = w[2:0] (rule R92). -/
def opField (w : Word) : BitVec 3 := w.extractLsb' 0 3

/-- The reserved field w[31:3] (rule R92). -/
def reservedField (w : Word) : BitVec 29 := w.extractLsb' 3 29

/-- The command a word names (rule R91), or why it is reserved (rule R94). -/
def decode (w : Word) : Except DecodeError Instr :=
  if reservedField w ≠ 0#29 then .error .reservedBits
  else
    match (opField w).toNat with
    | 0 => .ok .nop
    | 1 => .ok .pack8
    | 2 => .ok .pack32
    | 3 => .ok .unpack8
    | 4 => .ok .unpack32
    | 5 => .ok .embed
    | 6 => .ok .extract
    | _ => .error .reservedOp

/-- The word of a command: the column "word" of rule R91. -/
def encode (i : Instr) : Word :=
  match i with
  | .nop => 0x00000000#32
  | .pack8 => 0x00000001#32
  | .pack32 => 0x00000002#32
  | .unpack8 => 0x00000003#32
  | .unpack32 => 0x00000004#32
  | .embed => 0x00000005#32
  | .extract => 0x00000006#32

/-- The command word of a table row: bits above `nbits` are 0. A register word has no byte order
(20_memory.md rule R67). -/
def tableWord (nbits w : Nat) : Word := BitVec.ofNat 32 (w % 2 ^ nbits)

/-- The decoder on a word numbered as spec/opcode_table.json numbers it. -/
def decodeTableWord (nbits w : Nat) : Option Instr :=
  match decode (tableWord nbits w) with
  | .ok i => some i
  | .error _ => none

end Sys2Proof
end

