-- ==== Sys2Proof/Machine/Codec.lean ====
section
/-! DEFINITION. The Bit Codec: the four pure functions of 40_bit_codec.md rules R120 to R124, written
as their pseudocode. Carriers are byte lists; a call always has 8 or 32 of them (log 15). -/

namespace Sys2Proof.Machine

/-- pack_byte (rule R121): `out[i] = (c[i] & 0xFE) | ((v >> (7 - i)) & 1)`. -/
def packByte (v : Byte) (c : List Byte) : List Byte :=
  (List.range 8).map fun i => (c.getD i 0#8 &&& 0xFE#8) ||| ((v >>> (7 - i)) &&& 1#8)

/-- pack_u32 (rule R122): `out[i] = (c[i] & 0xFE) | ((v >> (31 - i)) & 1)`. -/
def packU32 (v : Word) (c : List Byte) : List Byte :=
  (List.range 32).map fun i =>
    (c.getD i 0#8 &&& 0xFE#8) ||| ((v >>> (31 - i)) &&& 1#32).setWidth 8

/-- unpack_byte (rule R123): `v = v | ((c[i] & 1) << (7 - i))` for i in 0..7. -/
def unpackByte (c : List Byte) : Byte :=
  (List.range 8).foldl (fun v i => v ||| ((c.getD i 0#8 &&& 1#8) <<< (7 - i))) 0#8

/-- unpack_u32 (rule R124): `v = v | ((c[i] & 1) << (31 - i))` for i in 0..31. -/
def unpackU32 (c : List Byte) : Word :=
  (List.range 32).foldl
    (fun v i => v ||| (((c.getD i 0#8 &&& 1#8).setWidth 32) <<< (31 - i))) 0#32

end Sys2Proof.Machine
end

