-- ==== Sys2Proof/Machine/State.lean ====
section
/-! DEFINITION. The state: the block with exactly the fields of 10_state.md rule R20, the
configuration, the environment (20_memory.md rules R70 to R75), the host's pending events and
answers, and the counter of free values. All of it is plain data. -/

namespace Sys2Proof.Machine

/-- PHASE, the last milestone reached (10_state.md rule R30); its code is `Phase.code` (Flags.lean).
Values 9 to 15 never occur (93 U10). The names are the Embedder's and the Extractor's. -/
inductive Phase where
  | idle         -- 0 Idle
  | header       -- 1 HeaderCopied / HeaderSkipped
  | marker       -- 2 MarkerEmbedded / MarkerVerified
  | extLen       -- 3 ExtnLenEmbedded / ExtnLenDecoded
  | ext          -- 4 ExtnEmbedded / ExtnDecoded
  | payLen       -- 5 SizeEmbedded / SizeDecoded
  | payload      -- 6 DataEmbedded / DataDecoded
  | output       -- 7 TailCopied / Written
  | done         -- 8 Done
deriving DecidableEq, Repr

/-- MODE (rule R29). -/
inductive Mode where
  | embedder   -- 0
  | extractor  -- 1
deriving DecidableEq, Repr

/-- The five failure kinds (60_exceptions.md rule R210). -/
inductive FailKind where
  | ioError | formatError | capacityError | bufferOverflowError | resourceError
deriving DecidableEq, Repr

/-- A hidden buffer (rules R37, R38): the entries written since reset, indices strictly rising. An
index that is not listed is unspecified (log 6). -/
abbrev Buf := List Host.Cell

/-- The block: 10_state.md rule R20, field by field. -/
structure Block where
  phase      : Phase
  mode       : Mode
  busy       : Bool
  done       : Bool
  fail       : Bool
  /-- ERR: no kind is code 0 (rules R29, R210). -/
  err        : Option FailKind
  idx        : Word
  curIn      : DWord
  curOut     : DWord
  carrierLen : DWord
  extLen     : Word
  payLen     : Word
  val        : Word
  lane       : List Byte
  ext        : List Byte
  mbuf       : Buf
  pbuf       : Buf
deriving DecidableEq, Repr

/-- The input ports (20_memory.md rule R60). -/
inductive InPort where
  | cin | pin
deriving DecidableEq, Repr

/-- The output ports (rule R60). -/
inductive OutPort where
  | sout | pout
deriving DecidableEq, Repr

/-- An input endpoint: its content and the count of bytes consumed (rule R74). -/
structure Source where
  content : List Byte
  pos     : Nat
deriving DecidableEq, Repr

/-- What the environment decides about one coming transaction (rules R70, R80): let it succeed if
the content allows, fail it, or never answer it. -/
inductive Reply where
  | ok | fail | never
deriving DecidableEq, Repr

/-- A transaction as issued (rules R71, R72). -/
inductive Request where
  | read (p : InPort) (n : Nat)
  | write (p : OutPort) (bytes : List Byte)
deriving DecidableEq, Repr

/-- A transaction as recorded in the history (rule R75): port, direction, length or bytes, answer. -/
inductive Transaction where
  | readOk (p : InPort) (n : Nat) (bytes : List Byte)
  | readFail (p : InPort) (n : Nat)
  | writeOk (p : OutPort) (bytes : List Byte)
  | writeFail (p : OutPort) (bytes : List Byte)
deriving DecidableEq, Repr

/-- The environment (rule R70; logs 2, 5, 10). -/
structure Env where
  cin     : Source
  pin     : Source
  /-- What SOUT has received. -/
  sout    : List Byte
  /-- What POUT has received. -/
  pout    : List Byte
  /-- The answers to the coming transactions, in the order they will be issued; when none is listed
  the environment is well-behaved (rule R74). -/
  plan    : List Reply
  /-- The transaction that is waiting for an answer that never comes (rule R80, logs 5, 24). -/
  pending : Option Request
  /-- The transactions of the current run (rule R75). -/
  history : List Transaction
deriving DecidableEq, Repr

/-- What the outside does next (00_scope.md rule R5; log 3). -/
inductive HostEvent where
  /-- Reset (70_reset_and_hazards.md rule R240). -/
  | reset
  /-- A read access of `size` bytes (20_memory.md rules R62, R65). -/
  | read (size off : Nat)
  /-- A write access of `size` bytes (rules R62, R65). -/
  | write (size off : Nat) (w : Word)
  /-- The host does nothing while the sequencer takes one step, if it has one (93 U18). -/
  | turn
  /-- What the script line `wait` expands to: read STATUS, let the sequencer step, and repeat until bit
  5 (BUSY) reads 0 (30_encoding.md rules R110, R111; log 23). -/
  | poll
  /-- Connect an input port, positioned at the first byte (rules R244, R245, R250; log 17). -/
  | openIn (p : InPort) (content : List Byte)
  /-- Connect an output port, opened fresh (rules R244, R245, R250; log 17). -/
  | openOut (p : OutPort)
deriving DecidableEq, Repr

/-- What a host access returned (rule R62). -/
inductive HostAnswer where
  | okRead (w : Word)
  | okWrite
  | refused
deriving DecidableEq, Repr

/-- The host's side: the events to come and the answers received, oldest first. -/
structure HostSide where
  inputs  : List HostEvent
  answers : List HostAnswer
deriving DecidableEq, Repr

structure State where
  cfg  : Config
  blk  : Block
  env  : Env
  host : HostSide
  /-- The model's own counter of free values used so far (log 7). -/
  free : Nat
deriving DecidableEq, Repr

/-- Why a step has no next state. -/
inductive Fault where
  /-- A transaction was never answered and no reset comes next: stuck (20_memory.md rule R80, 93 U15).
  Raised by the step. Safe: the spec gives the model no next step. -/
  | transactionUnanswered
  /-- BUSY = 1 with PHASE = 8, for which rules R161 and R184 name no step; 10_state.md rule R42(e)
  says that it is unreachable. Raised by the sequencer. Safe. -/
  | noEnabledStep
  /-- An EXT or LANE entry that the register file does not have (a file of the wrong length);
  unreachable. Raised by host reads and by the sequencer's EXT accesses. Safe. -/
  | noSuchEntry
deriving DecidableEq, Repr

/-- Why an instruction has no meaning. -/
inductive Refusal where
  /-- The instruction is not modelled yet. Raised by exec's arms only; no arm does. Safe. -/
  | notModelled (mnemonic : String)
deriving DecidableEq, Repr

/-- The block's values after reset (10_state.md rule R41); MBUF and PBUF list nothing, so every entry
is unspecified. -/
def Block.reset (c : Config) : Block where
  phase := .idle
  mode := .embedder
  busy := false
  done := false
  fail := false
  err := none
  idx := 0
  curIn := 0
  curOut := 0
  carrierLen := 0
  extLen := 0
  payLen := 0
  val := 0
  lane := List.replicate 32 0
  ext := List.replicate c.extBufCap 0
  mbuf := []
  pbuf := []

/-- The machine after reset with nothing connected, nothing planned and no host event queued (rule
R41; logs 1, 7, 11, 18). -/
def State.reset : State where
  cfg := Config.installed
  blk := Block.reset Config.installed
  env :=
    { cin := { content := [], pos := 0 }, pin := { content := [], pos := 0 }, sout := [], pout := []
      plan := [], pending := none, history := [] }
  host := { inputs := [], answers := [] }
  free := 0

end Sys2Proof.Machine
end

