-- ==== Sys2Proof/Machine/Flags.lean ====
section
/-! DEFINITION. The flags: READY, the codes of PHASE, MODE and ERR, and the STATUS word. -/

namespace Sys2Proof.Machine

/-- The number of a milestone (10_state.md rule R30). -/
def Phase.code (p : Phase) : BitVec 4 :=
  match p with
  | .idle => 0
  | .header => 1
  | .marker => 2
  | .extLen => 3
  | .ext => 4
  | .payLen => 5
  | .payload => 6
  | .output => 7
  | .done => 8

/-- MODE: 0 Embedder, 1 Extractor (rule R29). -/
def Mode.code (m : Mode) : BitVec 1 :=
  match m with
  | .embedder => 0
  | .extractor => 1

/-- The failure codes (60_exceptions.md rule R210). -/
def FailKind.code (k : FailKind) : BitVec 3 :=
  match k with
  | .ioError => 1
  | .formatError => 2
  | .capacityError => 3
  | .bufferOverflowError => 4
  | .resourceError => 5

/-- ERR: 0 when no kind is recorded (rules R29, R210). -/
def errCode (e : Option FailKind) : BitVec 3 :=
  match e with
  | none => 0
  | some k => k.code

/-- READY (10_state.md rule R28). -/
abbrev Ready (b : Block) : Prop :=
  b.phase = .idle ∧ b.busy = false ∧ b.done = false ∧ b.fail = false

/-- STATUS, from bit 31 down to bit 0 (30_encoding.md rule R96): 21 zeros, ERR, FAIL, DONE, BUSY, MODE,
PHASE. -/
def statusWord (b : Block) : Word :=
  0#21 ++ errCode b.err ++ BitVec.ofBool b.fail ++ BitVec.ofBool b.done ++ BitVec.ofBool b.busy ++
    b.mode.code ++ b.phase.code

end Sys2Proof.Machine
end

