-- ==== Sys2Proof/Machine/Ops.lean ====
section
/-! DEFINITION. The shared operations: the hidden buffers, the stream transactions (20_memory.md rules
R71 to R76), failure entry (60_exceptions.md rule R216) and, beside it, the only way out of a failed
state, the reset (70_reset_and_hazards.md rule R240). -/

namespace Sys2Proof.Machine

/-- What a step, a command or a host access ends in. -/
abbrev Result := Host.Outcome State Fault Refusal

/-! ### Updates of the parts of the state -/

/-- Change the block only. -/
def State.onBlk (f : Block → Block) (s : State) : State := { s with blk := f s.blk }

/-- Change the environment only. -/
def State.onEnv (f : Env → Env) (s : State) : State := { s with env := f s.env }

/-- Record what a host access returned (rule R62). -/
def State.answer (a : HostAnswer) (s : State) : State :=
  { s with host := { s.host with answers := s.host.answers ++ [a] } }

/-- Replace the queue of host events. -/
def State.setInputs (es : List HostEvent) (s : State) : State :=
  { s with host := { s.host with inputs := es } }

/-- The next use of a free value (log 7). -/
def State.useFree (s : State) : State := { s with free := s.free + 1 }

/-! ### The hidden buffers -/

/-- Entry `i`, or none where it is unspecified. -/
def bufGet (b : Buf) (i : Nat) : Option Byte :=
  match b with
  | [] => none
  | (j, v) :: r => if i = j then some v else bufGet r i

/-- Write entry `i`; the indices stay rising. -/
def bufPut (b : Buf) (i : Nat) (v : Byte) : Buf :=
  match b with
  | [] => [(i, v)]
  | (j, w) :: r =>
    if i < j then (i, v) :: (j, w) :: r
    else if i = j then (i, v) :: r
    else (j, w) :: bufPut r i v

/-- The canonical form of a buffer of `cap` bytes: indices strictly rising, all below `cap`. An index
that is not listed has no value, so no entry can equal what an unlisted index reads as. -/
abbrev Buf.Wf (cap : Nat) (b : Buf) : Prop :=
  b.Pairwise (fun x y => x.1 < y.1) ∧ ∀ x ∈ b, x.1 < cap

/-- MBUF[0..n); an entry not written since reset is a free value (rule R37, log 6). -/
def mbufPrefix (s : State) (n : Nat) : List Byte :=
  (List.range n).map fun i => (bufGet s.blk.mbuf i).getD (Config.freeMbuf s.free i)

/-- PBUF[0..n); an entry not written since reset is a free value (rule R38, log 6). -/
def pbufPrefix (s : State) (n : Nat) : List Byte :=
  (List.range n).map fun i => (bufGet s.blk.pbuf i).getD (Config.freePbuf s.free i)

/-! ### Streams -/

/-- The endpoint of an input port. -/
def Env.source (e : Env) (p : InPort) : Source :=
  match p with
  | .cin => e.cin
  | .pin => e.pin

/-- Replace the endpoint of an input port. -/
def Env.setSource (e : Env) (p : InPort) (x : Source) : Env :=
  match p with
  | .cin => { e with cin := x }
  | .pin => { e with pin := x }

/-- What an output port has received. -/
def Env.sink (e : Env) (p : OutPort) : List Byte :=
  match p with
  | .sout => e.sout
  | .pout => e.pout

/-- Replace what an output port has received. -/
def Env.setSink (e : Env) (p : OutPort) (bs : List Byte) : Env :=
  match p with
  | .sout => { e with sout := bs }
  | .pout => { e with pout := bs }

/-- What the environment decides about the next transaction; well-behaved where nothing is planned
(rules R70, R74). -/
def Env.nextReply (e : Env) : Reply := e.plan.headD .ok

/-- The decision about the next transaction is used up. -/
def Env.popReply (e : Env) : Env := { e with plan := e.plan.tail }

/-- A transaction is answered: the history grows by it (rule R75). -/
def Env.record (t : Transaction) (e : Env) : Env := { e with history := e.history ++ [t] }

/-- The bytes a failed write left in the sink: "none, some or all" (rule R72, log 9). -/
def keptOfFailedWrite (free : Nat) (bytes : List Byte) : List Byte :=
  (bytes.zipIdx.filter fun x => Config.freeKept free x.2).map Prod.fst

/-- What a read does to the environment when it is answered `Ok` (rule R71). -/
def readEnv (p : InPort) (n : Nat) (e : Env) : Env :=
  (e.popReply.setSource p { content := (e.source p).content, pos := (e.source p).pos + n }).record
    (.readOk p n (((e.source p).content.drop (e.source p).pos).take n))

/-- What a write does to the environment when it is answered `Ok` (rule R72). -/
def writeEnv (p : OutPort) (bytes : List Byte) (e : Env) : Env :=
  (e.popReply.setSink p (e.sink p ++ bytes)).record (.writeOk p bytes)

/-- How a transaction came out. -/
inductive Answer (α : Type) where
  | ok (a : α) (s : State)
  | fail (s : State)
  | unanswered (s : State)

/-- A transaction that was not answered `Ok` leaves its own port unsettled: an input at a free position,
an output with a free sub-sequence of the offered bytes behind what it held. For an answer `Fail` this is
rules R71 and R72 (93 U4, U5; logs 8, 9); for a transaction that is never answered the spec says nothing
and it is the model's choice (log 24). -/
def Env.unsettled (r : Request) (free : Nat) (e : Env) : Env :=
  match r with
  | .read p _ =>
    e.setSource p { content := (e.source p).content, pos := Config.freePosition free }
  | .write p bytes => e.setSink p (e.sink p ++ keptOfFailedWrite free bytes)

/-- A read answered `Fail`: the position of the port is unspecified (rule R71, 93 U4, log 8). -/
def failedRead (p : InPort) (n : Nat) (s : State) : State :=
  (s.onEnv fun e => (e.popReply.unsettled (.read p n) s.free).record (.readFail p n)).useFree

/-- A write answered `Fail`: what the sink holds of the bytes is unspecified (rule R72, 93 U5, log 9). -/
def failedWrite (p : OutPort) (bytes : List Byte) (s : State) : State :=
  (s.onEnv fun e =>
    (e.popReply.unsettled (.write p bytes) s.free).record (.writeFail p bytes)).useFree

/-- The transaction is never answered: it stays in progress (rule R80, log 5). Where its input stands, or
what its sink has received of the offered bytes, is open from here on, also after a reset gives it up:
DESIGN CHOICE, a free value (log 24). -/
def waitForever (r : Request) (s : State) : State :=
  (s.onEnv fun e => { e.popReply.unsettled r s.free with pending := some r }).useFree

/-- `StreamRead(port, n)` (rules R71, R73, R74). -/
def streamRead (p : InPort) (n : Nat) (s : State) : Answer (List Byte) :=
  match s.env.nextReply with
  | .never => .unanswered (waitForever (.read p n) s)
  | .fail => .fail (failedRead p n s)
  | .ok =>
    let src := s.env.source p
    if src.pos + n ≤ src.content.length then
      .ok ((src.content.drop src.pos).take n) (s.onEnv (readEnv p n))
    else .fail (failedRead p n s)

/-- `StreamWrite(port, bytes)` (rules R72, R73, R74). -/
def streamWrite (p : OutPort) (bytes : List Byte) (s : State) : Answer Unit :=
  match s.env.nextReply with
  | .never => .unanswered (waitForever (.write p bytes) s)
  | .fail => .fail (failedWrite p bytes s)
  | .ok => .ok () (s.onEnv (writeEnv p bytes))

/-! ### Failure entry and reset -/

/-- Failure entry `fail(K)` (60_exceptions.md rule R216): nothing else is written. -/
def failWith (k : FailKind) (s : State) : State :=
  s.onBlk fun b => { b with fail := true, err := some k, busy := false }

/-- Reset (70_reset_and_hazards.md rules R240, R241): the block takes the values of 10_state.md rule
R41 in one atomic step. No transaction is issued; what the sinks received stays and the sources stay
where they are. An unanswered transaction is given up (rule R253, log 5), its port as `waitForever` left
it (log 24); the history stays (log 10). MBUF and PBUF become unspecified anew. -/
def resetBlock (s : State) : State :=
  { s with
    blk := Block.reset s.cfg
    env := { s.env with pending := none }
    free := s.free + 1 }

/-- `bytes <- StreamRead(port, n) else fail(IOError)`, then the rest of the step (00_scope.md rule R16,
60_exceptions.md rule R216). -/
def readElseFail (p : InPort) (n : Nat) (s : State) (k : List Byte → State → Result) : Result :=
  match streamRead p n s with
  | .ok bytes t => k bytes t
  | .fail t => .next (failWith .ioError t)
  | .unanswered t => .next t

/-- `StreamWrite(port, bytes) else fail(IOError)`, then the rest of the step (rules R16, R216). -/
def writeElseFail (p : OutPort) (bytes : List Byte) (s : State) (k : State → Result) : Result :=
  match streamWrite p bytes s with
  | .ok _ t => k t
  | .fail t => .next (failWith .ioError t)
  | .unanswered t => .next t

/-! ### Parts of a sequencer step that several rules share -/

/-- PHASE <- p; IDX <- 0 (10_state.md rules R30, R31). -/
def advanceTo (p : Phase) (s : State) : State := s.onBlk fun b => { b with phase := p, idx := 0 }

/-- CUR_IN <- CUR_IN + n (rule R32). -/
def movedIn (n : Nat) (s : State) : State :=
  s.onBlk fun b => { b with curIn := b.curIn + BitVec.ofNat 64 n }

/-- CUR_IN <- CUR_IN + n; CUR_OUT <- CUR_OUT + n (rule R32). -/
def movedBoth (n : Nat) (s : State) : State :=
  s.onBlk fun b =>
    { b with curIn := b.curIn + BitVec.ofNat 64 n, curOut := b.curOut + BitVec.ofNat 64 n }

/-- IDX <- IDX + 1 (rule R31). -/
def nextIdx (s : State) : State := s.onBlk fun b => { b with idx := b.idx + 1 }

/-- EXT[i] <- v (10_state.md rule R35). -/
def writeExt (i : Nat) (v : Byte) (s : State) (k : State → Result) : Result :=
  if i < s.blk.ext.length then k (s.onBlk fun b => { b with ext := b.ext.set i v })
  else .fault .noSuchEntry

/-- The final step of a run: PHASE <- 8; DONE <- 1; BUSY <- 0 (41_embedder.md rule R160, 42_extractor.md
rule R194). -/
def finishRun (s : State) : State :=
  s.onBlk fun b => { b with phase := .done, done := true, busy := false }

/-- A command is accepted only while READY, and the write then returns `Ok`; otherwise it is `Refused`
and nothing changes (30_encoding.md rule R90). `effect` is the command's rule. -/
def whenReady (s : State) (effect : State → State) : Result :=
  if Ready s.blk then .next ((effect s).answer .okWrite) else .next (s.answer .refused)

end Sys2Proof.Machine
end

