-- ==== Sys2Proof/Machine/Operands.lean ====
section
/-! DEFINITION. The operands: the fixed registers of the leaf commands (40_bit_codec.md) and the host
register map (20_memory.md rule R61) with its reads and writes. -/

namespace Sys2Proof.Machine

/-! ### Operands of the leaf commands -/

/-- VAL[7:0] (rule R131). -/
def valByte (b : Block) : Byte := b.val.extractLsb' 0 8

/-- LANE[0..8) (rules R131, R133). -/
def lane8 (b : Block) : List Byte := b.lane.take 8

/-- LANE[0..32) (rules R132, R134). -/
def lane32 (b : Block) : List Byte := b.lane.take 32

/-- LANE[0..len(bs)) <- bs, the other entries unchanged. -/
def setLanes (bs : List Byte) (b : Block) : Block :=
  { b with lane := bs ++ b.lane.drop bs.length }

/-- VAL <- v. -/
def setVal (v : Word) (b : Block) : Block := { b with val := v }

/-! ### 64-bit quantities as two words (10_state.md rules R23, R32) -/

/-- Bits 31:0. -/
def loWord (d : DWord) : Word := d.extractLsb' 0 32

/-- Bits 63:32. -/
def hiWord (d : DWord) : Word := d.extractLsb' 32 32

/-- The 64-bit quantity of two words. -/
def ofHiLo (hi lo : Word) : DWord := hi ++ lo

/-! ### The register map -/

/-- The names of rule R61. -/
inductive HostReg where
  | ctrl | status | carrierLenLo | carrierLenHi | extLen | payLen | val
  | curInLo | curInHi | curOutLo | curOutHi | idx
  | paramHeaderSize | paramMarkerLen | paramExtBufCap | paramPayBufCap
  | lane (i : Nat) | ext (i : Nat) | marker (i : Nat)
deriving DecidableEq, Repr

/-- The sixteen registers at 0x000 to 0x03C, in the order of rule R61. -/
def fixedRegs : List HostReg :=
  [.ctrl, .status, .carrierLenLo, .carrierLenHi, .extLen, .payLen, .val, .curInLo,
   .curInHi, .curOutLo, .curOutHi, .idx, .paramHeaderSize, .paramMarkerLen, .paramExtBufCap,
   .paramPayBufCap]

/-- The register at a byte offset, none where the offset is unmapped (rule R61) or no whole aligned
word of the window (rules R62, R65). -/
def regAt (c : Config) (off : Nat) : Option HostReg :=
  if off % 4 ≠ 0 ∨ 0x1000 ≤ off then none
  else if off < 0x040 then fixedRegs[off / 4]?
  else if 0x100 ≤ off ∧ off < 0x180 then some (.lane ((off - 0x100) / 4))
  else if 0x400 ≤ off ∧ off < 0x800 then
    let i := (off - 0x400) / 4
    if i < c.extBufCap then some (.ext i) else none
  else if 0x800 ≤ off ∧ off < 0xC00 then
    let i := (off - 0x800) / 4
    if i < c.markerLen then some (.marker i) else none
  else none

/-- The byte offset of a register (rule R61). -/
def HostReg.offset (r : HostReg) : Nat :=
  match r with
  | .ctrl => 0x000
  | .status => 0x004
  | .carrierLenLo => 0x008
  | .carrierLenHi => 0x00C
  | .extLen => 0x010
  | .payLen => 0x014
  | .val => 0x018
  | .curInLo => 0x01C
  | .curInHi => 0x020
  | .curOutLo => 0x024
  | .curOutHi => 0x028
  | .idx => 0x02C
  | .paramHeaderSize => 0x030
  | .paramMarkerLen => 0x034
  | .paramExtBufCap => 0x038
  | .paramPayBufCap => 0x03C
  | .lane i => 0x100 + 4 * i
  | .ext i => 0x400 + 4 * i
  | .marker i => 0x800 + 4 * i

/-- The indices a register name admits under a configuration (rule R61). -/
def HostReg.inMap (c : Config) (r : HostReg) : Bool :=
  match r with
  | .lane i => i < 32
  | .ext i => i < c.extBufCap
  | .marker i => i < c.markerLen
  | _ => true

/-- The registers marked RW* (rule R61): all but CTRL that a host write may change. -/
def HostReg.writable (r : HostReg) : Bool :=
  match r with
  | .carrierLenLo | .carrierLenHi | .extLen | .payLen | .val | .lane _ | .ext _ => true
  | _ => false

/-- The content of a register (rules R61, R63); none where a register file has no such entry (log 14). -/
def readReg (c : Config) (b : Block) (r : HostReg) : Option Word :=
  match r with
  | .ctrl => some 0
  | .status => some (statusWord b)
  | .carrierLenLo => some (loWord b.carrierLen)
  | .carrierLenHi => some (hiWord b.carrierLen)
  | .extLen => some b.extLen
  | .payLen => some b.payLen
  | .val => some b.val
  | .curInLo => some (loWord b.curIn)
  | .curInHi => some (hiWord b.curIn)
  | .curOutLo => some (loWord b.curOut)
  | .curOutHi => some (hiWord b.curOut)
  | .idx => some b.idx
  | .paramHeaderSize => some (BitVec.ofNat 32 c.headerSize)
  | .paramMarkerLen => some (BitVec.ofNat 32 c.markerLen)
  | .paramExtBufCap => some (BitVec.ofNat 32 c.extBufCap)
  | .paramPayBufCap => some (BitVec.ofNat 32 c.payBufCap)
  | .lane i => b.lane[i]?.map fun v => v.setWidth 32
  | .ext i => b.ext[i]?.map fun v => v.setWidth 32
  | .marker i => c.marker[i]?.map fun v => v.setWidth 32

/-- The effect of an accepted host write of `w` to an RW* register (rule R64). -/
def writeReg (r : HostReg) (w : Word) (b : Block) : Block :=
  match r with
  | .carrierLenLo => { b with carrierLen := ofHiLo (hiWord b.carrierLen) w }
  | .carrierLenHi => { b with carrierLen := ofHiLo w (loWord b.carrierLen) }
  | .extLen => { b with extLen := w }
  | .payLen => { b with payLen := w }
  | .val => { b with val := w }
  | .lane i => { b with lane := b.lane.set i (w.extractLsb' 0 8) }
  | .ext i => { b with ext := b.ext.set i (w.extractLsb' 0 8) }
  | _ => b

end Sys2Proof.Machine
end

