-- ==== Sys2Proof/Machine/BitCodec.lean ====
section
/-! DEFINITION. NOP and the four leaf commands (40_bit_codec.md rules R130 to R135). -/

namespace Sys2Proof.Machine

/-- NOP (rule R130). -/
def execNop (s : State) : Result := whenReady s fun s => s

/-- PACK8 (rule R131): LANE[0..8) <- pack_byte(VAL[7:0], LANE[0..8)). -/
def execPack8 (s : State) : Result :=
  whenReady s fun s => s.onBlk fun b => setLanes (packByte (valByte b) (lane8 b)) b

/-- PACK32 (rule R132): LANE[0..32) <- pack_u32(VAL, LANE[0..32)). -/
def execPack32 (s : State) : Result :=
  whenReady s fun s => s.onBlk fun b => setLanes (packU32 b.val (lane32 b)) b

/-- UNPACK8 (rule R133): VAL <- zext_32(unpack_byte(LANE[0..8))). -/
def execUnpack8 (s : State) : Result :=
  whenReady s fun s => s.onBlk fun b => setVal ((unpackByte (lane8 b)).setWidth 32) b

/-- UNPACK32 (rule R134): VAL <- unpack_u32(LANE[0..32)). -/
def execUnpack32 (s : State) : Result :=
  whenReady s fun s => s.onBlk fun b => setVal (unpackU32 (lane32 b)) b

end Sys2Proof.Machine
end

