-- ==== Sys2Proof/Machine/Embedder.lean ====
section
/-! DEFINITION. The Embedder (41_embedder.md): the command EMBED and its sequencer steps. -/

namespace Sys2Proof.Machine

/-- A run begins: the history of the run is empty (20_memory.md rule R75, log 10). -/
def newHistory (s : State) : State := s.onEnv fun e => { e with history := [] }

/-- The extension bound check fails (rule R152). -/
def extTooLong (s : State) : Bool := decide (s.cfg.extBufCap ≤ s.blk.extLen.toNat)

/-- The capacity check fails (rule R151); over the natural numbers, no difference is formed. -/
def carrierTooSmall (s : State) : Bool :=
  decide (s.blk.carrierLen.toNat <
    s.cfg.headerSize + s.cfg.required s.blk.extLen.toNat s.blk.payLen.toNat)

/-- The accepted EMBED (rule R150): MODE, then the two start checks in the order of 60_exceptions.md
rule R219, then BUSY. -/
def startEmbed (s : State) : State :=
  let s := newHistory (s.onBlk fun b => { b with mode := .embedder })
  if extTooLong s then failWith .bufferOverflowError s
  else if carrierTooSmall s then failWith .capacityError s
  else s.onBlk fun b => { b with busy := true, idx := 0, curIn := 0, curOut := 0 }

/-- EMBED (rule R150). -/
def execEmbed (s : State) : Result := whenReady s startEmbed

/-! ### The sequencer steps -/

/-- One group of 8 carrier bytes: read, pack `v`, write, move the cursors and IDX (rules R154, R156,
R158). -/
def embedByte (v : Byte) (s : State) : Result :=
  readElseFail .cin 8 s fun c s =>
  writeElseFail .sout (packByte v c) s fun s =>
  .next (nextIdx (movedBoth 8 s))

/-- One group of 32 carrier bytes holding the length `v`; then PHASE <- `p` (rules R155, R157). -/
def embedLength (v : Word) (p : Phase) (s : State) : Result :=
  readElseFail .cin 32 s fun c s =>
  writeElseFail .sout (packU32 v c) s fun s =>
  .next (advanceTo p (movedBoth 32 s))

/-- Header copy (rule R153). -/
def embedHeader (s : State) : Result :=
  readElseFail .cin s.cfg.headerSize s fun h s =>
  writeElseFail .sout h s fun s =>
  .next (advanceTo .header (movedBoth s.cfg.headerSize s))

/-- Marker embedding (rule R154). -/
def embedMarker (s : State) : Result :=
  match s.cfg.marker[s.blk.idx.toNat]? with
  | some m => embedByte m s                        -- IDX < L
  | none => .next (advanceTo .marker s)            -- IDX = L

/-- Extension length embedding (rule R155). -/
def embedExtLen (s : State) : Result := embedLength s.blk.extLen .extLen s

/-- Extension embedding (rule R156). -/
def embedExt (s : State) : Result :=
  if s.blk.idx.toNat < s.blk.extLen.toNat then
    match s.blk.ext[s.blk.idx.toNat]? with
    | some v => embedByte v s
    | none => .fault .noSuchEntry
  else .next (advanceTo .ext s)

/-- Payload length embedding (rule R157). -/
def embedPayLen (s : State) : Result := embedLength s.blk.payLen .payLen s

/-- Payload embedding (rule R158): the PIN read comes before the CIN read; `b[0]` is the payload byte
of the one byte read. -/
def embedPayload (s : State) : Result :=
  if s.blk.idx.toNat < s.blk.payLen.toNat then
    readElseFail .pin 1 s fun b s => embedByte (b.headD 0#8) s
  else .next (advanceTo .payload s)

/-- Tail copy (rule R159). -/
def embedTail (s : State) : Result :=
  if s.blk.curIn.toNat < s.blk.carrierLen.toNat then
    readElseFail .cin 1 s fun b s =>
    writeElseFail .sout b s fun s =>
    .next (movedBoth 1 s)
  else .next (advanceTo .output s)

/-- Finish (rule R160). -/
def embedFinish (s : State) : Result := .next (finishRun s)

/-- The step that rule R161 enables; it has no row for PHASE 8 (log 12). -/
def embedStep (s : State) : Result :=
  match s.blk.phase with
  | .idle => embedHeader s
  | .header => embedMarker s
  | .marker => embedExtLen s
  | .extLen => embedExt s
  | .ext => embedPayLen s
  | .payLen => embedPayload s
  | .payload => embedTail s
  | .output => embedFinish s
  | .done => .fault .noEnabledStep

end Sys2Proof.Machine
end

