-- ==== Sys2Proof/Machine/Extractor.lean ====
section
/-! DEFINITION. The Extractor (42_extractor.md): the command EXTRACT and its sequencer steps. -/

namespace Sys2Proof.Machine

/-- The accepted EXTRACT (rule R180). -/
def startExtract (s : State) : State :=
  newHistory (s.onBlk fun b =>
    { b with
      mode := .extractor
      extLen := 0, payLen := 0
      ext := List.replicate s.cfg.extBufCap 0#8
      idx := 0, curIn := 0, curOut := 0
      busy := true })

/-- EXTRACT (rule R180). -/
def execExtract (s : State) : Result := whenReady s startExtract

/-! ### The sequencer steps -/

/-- Header skip (rule R181). -/
def extractHeader (s : State) : Result :=
  readElseFail .cin s.cfg.headerSize s fun _ s =>
  .next (advanceTo .header (movedIn s.cfg.headerSize s))

/-- MBUF[IDX] <- v (rule R182). -/
def putMbuf (v : Byte) (s : State) : State :=
  s.onBlk fun b => { b with mbuf := bufPut b.mbuf b.idx.toNat v }

/-- PBUF[IDX] <- v (rule R191). -/
def putPbuf (v : Byte) (s : State) : State :=
  s.onBlk fun b => { b with pbuf := bufPut b.pbuf b.idx.toNat v }

/-- Marker decode, one character (rule R182). -/
def extractMarkerByte (s : State) : Result :=
  readElseFail .cin 8 s fun c s =>
  .next (nextIdx (movedIn 8 (putMbuf (unpackByte c) s)))

/-- Marker verification (rule R183). -/
def verifyMarker (s : State) : Result :=
  if mbufPrefix s s.cfg.markerLen = s.cfg.marker then .next (advanceTo .marker s)
  else .next (failWith .formatError s)

/-- PHASE 1: decode a character, or verify once IDX = L (rule R184). -/
def extractMarker (s : State) : Result :=
  if s.blk.idx.toNat < s.cfg.markerLen then extractMarkerByte s else verifyMarker s

/-- Extension-length decode and overflow guard (rule R185): EXT_LEN and CUR_IN are written before the
guard, and stay written when it fails (60_exceptions.md rule R216). -/
def extractExtLen (s : State) : Result :=
  readElseFail .cin 32 s fun c s =>
  let s := movedIn 32 (s.onBlk fun b => { b with extLen := unpackU32 c })
  if s.cfg.extBufCap ≤ s.blk.extLen.toNat then .next (failWith .bufferOverflowError s)
  else .next (advanceTo .extLen s)

/-- Extension decode (rule R186) and termination (rule R187). -/
def extractExt (s : State) : Result :=
  if s.blk.idx.toNat < s.blk.extLen.toNat then
    readElseFail .cin 8 s fun c s =>
    writeExt s.blk.idx.toNat (unpackByte c) s fun s =>
    .next (nextIdx (movedIn 8 s))
  else
    writeExt s.blk.extLen.toNat 0x00#8 s fun s => .next (advanceTo .ext s)

/-- Payload-length decode (rule R189). -/
def extractPayLen (s : State) : Result :=
  readElseFail .cin 32 s fun c s =>
  .next (advanceTo .payLen (movedIn 32 (s.onBlk fun b => { b with payLen := unpackU32 c })))

/-- Resource check (rule R190), payload decode (rule R191), advance (rule R192). -/
def extractPayload (s : State) : Result :=
  if s.cfg.payBufCap < s.blk.payLen.toNat then .next (failWith .resourceError s)
  else if s.blk.idx.toNat < s.blk.payLen.toNat then
    readElseFail .cin 8 s fun c s =>
    .next (nextIdx (movedIn 8 (putPbuf (unpackByte c) s)))
  else .next (advanceTo .payload s)

/-- Output write (rule R193): one transaction of exactly P bytes; PHASE <- 7 and nothing else. -/
def extractOutput (s : State) : Result :=
  writeElseFail .pout (pbufPrefix s s.blk.payLen.toNat) s fun s =>
  .next (s.onBlk fun b => { b with phase := .output })

/-- Finish (rule R194). -/
def extractFinish (s : State) : Result := .next (finishRun s)

/-- The step that rule R184 enables; it has no row for PHASE 8 (log 12). -/
def extractStep (s : State) : Result :=
  match s.blk.phase with
  | .idle => extractHeader s
  | .header => extractMarker s
  | .marker => extractExtLen s
  | .extLen => extractExt s
  | .ext => extractPayLen s
  | .payLen => extractPayload s
  | .payload => extractOutput s
  | .output => extractFinish s
  | .done => .fault .noEnabledStep

end Sys2Proof.Machine
end

