-- ==== Sys2Proof/Machine/Dispatch.lean ====
section
/-! DEFINITION. What each command does when it is written to CTRL (30_encoding.md rules R90, R91). -/

namespace Sys2Proof.Machine

def exec (i : Instr) (s : State) : Host.Outcome State Fault Refusal :=
  match i with
  | .nop => Sys2Proof.Machine.execNop s
  | .pack8 => Sys2Proof.Machine.execPack8 s
  | .pack32 => Sys2Proof.Machine.execPack32 s
  | .unpack8 => Sys2Proof.Machine.execUnpack8 s
  | .unpack32 => Sys2Proof.Machine.execUnpack32 s
  | .embed => Sys2Proof.Machine.execEmbed s
  | .extract => Sys2Proof.Machine.execExtract s

end Sys2Proof.Machine
end

