-- ==== Sys2Proof/Machine/HostPort.lean ====
section
/-! DEFINITION. Host register access (20_memory.md rules R62 to R65, 30_encoding.md rule R90), the
sequencer's turn (10_state.md rule R27) and the order of events. -/

namespace Sys2Proof.Machine

/-- `HostRead(off)` (rules R62, R63, R65). -/
def hostRead (size off : Nat) (s : State) : Result :=
  if HostAccessWf size off then
    match regAt s.cfg off with
    | none => .next (s.answer .refused)
    | some r =>
      match readReg s.cfg s.blk r with
      | some w => .next (s.answer (.okRead w))
      | none => .fault .noSuchEntry
  else .next (s.answer .refused)

/-- The issue of command word `w` (30_encoding.md rule R90): a reserved word is `Refused`; any other
runs its command's rule, which refuses it unless READY holds. -/
def issueCommand (w : Word) (s : State) : Result :=
  match decode w with
  | .ok i => exec i s
  | .error _ => .next (s.answer .refused)

/-- `HostWrite(off, w)` (rules R62, R64, R65). -/
def hostWrite (size off : Nat) (w : Word) (s : State) : Result :=
  if HostAccessWf size off then
    match regAt s.cfg off with
    | some .ctrl => issueCommand w s
    | some r =>
      if Ready s.blk ∧ r.writable = true then
        .next ((s.onBlk (writeReg r w)).answer .okWrite)
      else .next (s.answer .refused)
    | none => .next (s.answer .refused)
  else .next (s.answer .refused)

/-- The sequencer's turn: it has an enabled step if and only if BUSY = 1 (rule R27); MODE says which
pipeline (rules R161, R184). -/
def sequencerTurn (s : State) : Result :=
  if s.blk.busy then
    match s.blk.mode with
    | .embedder => embedStep s
    | .extractor => extractStep s
  else .next s

/-- A connected input port, positioned at its first byte (rules R244, R245, R250; log 17). -/
def openSource (p : InPort) (content : List Byte) (s : State) : State :=
  s.onEnv fun e => e.setSource p { content := content, pos := 0 }

/-- A connected output port, opened fresh (rules R244, R245, R250; log 17). -/
def openSink (p : OutPort) (s : State) : State := s.onEnv fun e => e.setSink p []

/-- One `rd STATUS` of the line `wait` (30_encoding.md rule R111): the word read is the host's answer, and
while its bit 5 (BUSY) is 1 the sequencer has a turn and the read is repeated. One turn between two reads
is the model's choice (log 23). -/
def pollStatus (rest : List HostEvent) (s : State) : Result :=
  let again := (statusWord s.blk).getLsbD 5
  hostRead 4 HostReg.status.offset
    (s.setInputs (if again then .turn :: .poll :: rest else rest))

/-- One host event other than reset, with the events after it. -/
def hostEvent (e : HostEvent) (rest : List HostEvent) (s : State) : Result :=
  match e with
  | .reset => .next (resetBlock (s.setInputs rest))
  | .read size off => hostRead size off (s.setInputs rest)
  | .write size off w => hostWrite size off w (s.setInputs rest)
  | .turn => sequencerTurn (s.setInputs rest)
  | .poll => pollStatus rest s
  | .openIn p content => .next (openSource p content (s.setInputs rest))
  | .openOut p => .next (openSink p (s.setInputs rest))

/-- One step of the whole machine: the event at the head of the queue, or the sequencer's turn where
none is queued (log 3). While a transaction is unanswered the step in progress never ends, so nothing
but a reset comes next (20_memory.md rule R80, 70_reset_and_hazards.md rule R253, log 5). -/
def takeStep (s : State) : Result :=
  match s.host.inputs with
  | .reset :: rest => hostEvent .reset rest s
  | inputs =>
    if s.env.pending.isSome then .fault .transactionUnanswered
    else
      match inputs with
      | [] => sequencerTurn s
      | e :: rest => hostEvent e rest s

end Sys2Proof.Machine
end

