-- ==== Sys2Proof/Machine/Step.lean ====
section
/-! DEFINITION. The step of the machine, and where a command word is placed for it. -/

namespace Sys2Proof.Machine

/-- One atomic step (00_scope.md rule R4). -/
def step (s : State) : Host.Outcome State Fault Refusal := takeStep s

/-- The state whose very next step is the host's write of the command word to CTRL (30_encoding.md rule
R90; log 4). -/
def State.withFetchWord (s : State) (nbits w : Nat) : State :=
  s.setInputs (.write 4 0x000 (tableWord nbits w) :: s.host.inputs)

end Sys2Proof.Machine
end

