-- ==== Sys2Proof/Machine/Script.lean ====
section
/-! DEFINITION. The host script (30_encoding.md rules R110, R111): lines, their expansion into
elementary lines, the encoding, and the host events they stand for. -/

namespace Sys2Proof.Machine

/-- One line of a host script (rule R110) or a pseudo-line (rule R111). -/
inductive ScriptLine where
  | reset
  | wr (r : HostReg) (w : Word)
  | rd (r : HostReg)
  | cmd (i : Instr)
  | wait
  /-- `rd STATUS`, repeated until bit 5 (BUSY) reads 0: what `wait` expands to (rule R111). -/
  | rdUntilIdle
  | expect (r : HostReg) (w : Word)
  | wrCarrierLen (n : DWord)
  | wrExt (bytes : List Byte)
  | wrLane (bytes : List Byte)
deriving DecidableEq, Repr

/-- `wr NAME[i], bi` in order (rule R111). -/
def writeFile (name : Nat → HostReg) (bytes : List Byte) : List ScriptLine :=
  bytes.mapIdx fun i b => .wr (name i) (b.setWidth 32)

/-- The expansion of a pseudo-line (rule R111), `wait` among them; any other line stands for itself. -/
def ScriptLine.expand (l : ScriptLine) : List ScriptLine :=
  match l with
  | .wrCarrierLen n => [.wr .carrierLenLo (loWord n), .wr .carrierLenHi (hiWord n)]
  | .wrExt bytes => writeFile .ext bytes ++ [.wr .extLen (BitVec.ofNat 32 bytes.length)]
  | .wrLane bytes => writeFile .lane bytes
  | .reset => [.reset]
  | .wr r w => [.wr r w]
  | .rd r => [.rd r]
  | .cmd i => [.cmd i]
  | .wait => [.rdUntilIdle]
  | .rdUntilIdle => [.rdUntilIdle]
  | .expect r w => [.expect r w]

/-- The encoding of an elementary line (rule R110): the offset and, for a write, the word. The repeated
read of STATUS is listed once, since the number of reads is not part of the encoding (rule R111). -/
def ScriptLine.code (l : ScriptLine) : Option (Nat × Option Word) :=
  match l with
  | .wr r w => some (r.offset, some w)
  | .cmd i => some (HostReg.ctrl.offset, some (encode i))
  | .rd r => some (r.offset, none)
  | .expect r _ => some (r.offset, none)
  | .rdUntilIdle => some (HostReg.status.offset, none)
  | .reset | .wait | .wrCarrierLen _ | .wrExt _ | .wrLane _ => none

/-- The encoding of a script: the codes of its expanded lines in order (rules R110, R111). -/
def scriptEncoding (ls : List ScriptLine) : List (Nat × Option Word) :=
  (ls.flatMap ScriptLine.expand).filterMap ScriptLine.code

/-- The host event of an elementary line: `cmd` is a write of the command word to CTRL, `expect` a
read (rule R110). The expansion has removed the pseudo-lines, which have no event of their own. -/
def ScriptLine.event (l : ScriptLine) : Option HostEvent :=
  match l with
  | .reset => some .reset
  | .wr r w => some (.write 4 r.offset w)
  | .rd r => some (.read 4 r.offset)
  | .cmd i => some (.write 4 HostReg.ctrl.offset (encode i))
  | .rdUntilIdle => some .poll
  | .expect r _ => some (.read 4 r.offset)
  | .wait | .wrCarrierLen _ | .wrExt _ | .wrLane _ => none

/-- The events of a script, in order. -/
def scriptEvents (ls : List ScriptLine) : List HostEvent :=
  (ls.flatMap ScriptLine.expand).filterMap ScriptLine.event

/-- The state in which the host is about to run a script. -/
def State.loadScript (s : State) (ls : List ScriptLine) : State :=
  s.setInputs (scriptEvents ls ++ s.host.inputs)

end Sys2Proof.Machine
end

