-- ==== Sys2Proof/Safety.lean ====
section
/-! DEFINITION. What the claims are stated in: the invariant of reachable states (10_state.md rules R33,
R37, R38, R42, R43; 60_exceptions.md rules R212 to R215, R227), the well-behaved environment
(20_memory.md rule R74), and the two runs as functions of their streams (41_embedder.md rule R163,
42_extractor.md rule R195). -/

namespace Sys2Proof

open Sys2Proof.Machine

/-! ### The invariant -/

/-- The register files and hidden buffers have the sizes of 10_state.md rule R20, and the buffers their
canonical form. -/
abbrev FilesOk (c : Config) (b : Block) : Prop :=
  b.lane.length = 32 ∧ b.ext.length = c.extBufCap ∧
  Buf.Wf c.markerLen b.mbuf ∧ Buf.Wf c.payBufCap b.pbuf

/-- 10_state.md rule R42 (a) to (e); and a block that is neither running nor in a terminal state is
Idle with MODE 0, since only EMBED and EXTRACT write MODE (rule R29, rule R42(h)). -/
abbrev FlagsOk (b : Block) : Prop :=
  (b.busy = true → b.done = false ∧ b.fail = false) ∧
  (b.done = true → b.fail = false) ∧
  (b.done = true ↔ b.phase = .done) ∧
  (b.err = none ↔ b.fail = false) ∧
  (b.busy = true → b.phase ≠ .done) ∧
  (b.busy = false → b.done = false → b.fail = false → b.phase = .idle ∧ b.mode = .embedder)

/-- The failed stages that 60_exceptions.md rule R227 lists. -/
def failStages : List (Mode × Phase × FailKind) :=
  [(.embedder, .idle, .capacityError), (.embedder, .idle, .bufferOverflowError),
   (.embedder, .idle, .ioError), (.embedder, .header, .ioError), (.embedder, .marker, .ioError),
   (.embedder, .extLen, .ioError), (.embedder, .ext, .ioError), (.embedder, .payLen, .ioError),
   (.embedder, .payload, .ioError),
   (.extractor, .idle, .ioError), (.extractor, .header, .ioError),
   (.extractor, .header, .formatError), (.extractor, .marker, .ioError),
   (.extractor, .marker, .bufferOverflowError), (.extractor, .extLen, .ioError),
   (.extractor, .ext, .ioError), (.extractor, .payLen, .resourceError),
   (.extractor, .payLen, .ioError), (.extractor, .payload, .ioError)]

/-- Rule R227: no other combination of MODE, PHASE and ERR occurs. -/
abbrev StageOk (b : Block) : Prop := ∀ k, b.err = some k → (b.mode, b.phase, k) ∈ failStages

/-- What an Embedder run has done at each PHASE: cursor synchrony (rule R162), the start checks (rules
R151, R152), and the cursors of 10_state.md rule R43 with IDX of rule R31. -/
abbrev EmbedderOk (c : Config) (b : Block) : Prop :=
  b.curIn = b.curOut ∧
  ((b.busy = true ∨ b.phase ≠ .idle) →
    b.extLen.toNat < c.extBufCap ∧
    c.headerSize + c.required b.extLen.toNat b.payLen.toNat ≤ b.carrierLen.toNat) ∧
  (b.phase = .idle → b.idx.toNat = 0 ∧ b.curIn.toNat = 0) ∧
  (b.phase = .header →
    b.idx.toNat ≤ c.markerLen ∧ b.curIn.toNat = c.headerSize + 8 * b.idx.toNat) ∧
  (b.phase = .marker → b.idx.toNat = 0 ∧ b.curIn.toNat = c.headerSize + 8 * c.markerLen) ∧
  (b.phase = .extLen →
    b.idx.toNat ≤ b.extLen.toNat ∧
    b.curIn.toNat = c.headerSize + 8 * c.markerLen + 32 + 8 * b.idx.toNat) ∧
  (b.phase = .ext →
    b.idx.toNat = 0 ∧
    b.curIn.toNat = c.headerSize + 8 * c.markerLen + 32 + 8 * b.extLen.toNat) ∧
  (b.phase = .payLen →
    b.idx.toNat ≤ b.payLen.toNat ∧
    b.curIn.toNat =
      c.headerSize + 8 * c.markerLen + 32 + 8 * b.extLen.toNat + 32 + 8 * b.idx.toNat) ∧
  (b.phase = .payload →
    b.idx.toNat = 0 ∧
    c.headerSize + c.required b.extLen.toNat b.payLen.toNat ≤ b.curIn.toNat ∧
    b.curIn.toNat ≤ b.carrierLen.toNat) ∧
  (b.phase = .output ∨ b.phase = .done → b.idx.toNat = 0 ∧ b.curIn = b.carrierLen)

/-- How many entries of EXT the Extractor has written at this point of its run (42_extractor.md rules
R180, R186, R187); the others are 0x00 (93 U13). -/
def extFilled (b : Block) : Nat :=
  match b.phase with
  | .idle | .header | .marker => 0
  | .extLen => b.idx.toNat
  | .ext | .payLen | .payload | .output | .done => b.extLen.toNat

/-- What an Extractor run has done at each PHASE: CUR_OUT stays 0 (rule R42(g)), the cursors of rule R43,
the results and buffers written so far (rules R182 to R191), and what a failure leaves (60_exceptions.md
rules R212, R214, R215). -/
abbrev ExtractorOk (c : Config) (b : Block) : Prop :=
  b.curOut = 0 ∧
  (∀ j, extFilled b ≤ j → j < b.ext.length → b.ext[j]? = some 0x00#8) ∧
  (b.phase = .idle →
    b.idx.toNat = 0 ∧ b.curIn.toNat = 0 ∧ b.extLen = 0 ∧ b.payLen = 0) ∧
  (b.phase = .header →
    b.idx.toNat ≤ c.markerLen ∧ b.curIn.toNat = c.headerSize + 8 * b.idx.toNat ∧
    b.extLen = 0 ∧ b.payLen = 0 ∧
    (∀ j, j < b.idx.toNat → (bufGet b.mbuf j).isSome = true) ∧
    (b.err = some .formatError → b.idx.toNat = c.markerLen)) ∧
  (b.phase ≠ .idle → b.phase ≠ .header →
    ∀ j, j < c.markerLen → bufGet b.mbuf j = c.marker[j]?) ∧
  (b.phase = .marker →
    b.idx.toNat = 0 ∧ b.payLen = 0 ∧
    (b.err = some .bufferOverflowError →
      c.extBufCap ≤ b.extLen.toNat ∧
      b.curIn.toNat = c.headerSize + 8 * c.markerLen + 32) ∧
    (b.err ≠ some .bufferOverflowError →
      b.extLen = 0 ∧ b.curIn.toNat = c.headerSize + 8 * c.markerLen)) ∧
  (b.phase ≠ .idle → b.phase ≠ .header → b.phase ≠ .marker → b.extLen.toNat < c.extBufCap) ∧
  (b.phase = .extLen →
    b.idx.toNat ≤ b.extLen.toNat ∧ b.payLen = 0 ∧
    b.curIn.toNat = c.headerSize + 8 * c.markerLen + 32 + 8 * b.idx.toNat) ∧
  (b.phase = .ext →
    b.idx.toNat = 0 ∧ b.payLen = 0 ∧
    b.curIn.toNat = c.headerSize + 8 * c.markerLen + 32 + 8 * b.extLen.toNat) ∧
  (b.phase = .payLen →
    b.idx.toNat ≤ b.payLen.toNat ∧
    (0 < b.idx.toNat → b.payLen.toNat ≤ c.payBufCap) ∧
    (∀ j, j < b.idx.toNat → (bufGet b.pbuf j).isSome = true) ∧
    (b.err = some .resourceError → c.payBufCap < b.payLen.toNat) ∧
    b.curIn.toNat =
      c.headerSize + 8 * c.markerLen + 32 + 8 * b.extLen.toNat + 32 + 8 * b.idx.toNat) ∧
  (b.phase = .payload ∨ b.phase = .output ∨ b.phase = .done →
    b.idx.toNat = 0 ∧ b.payLen.toNat ≤ c.payBufCap ∧
    (∀ j, j < b.payLen.toNat → (bufGet b.pbuf j).isSome = true) ∧
    b.curIn.toNat = c.headerSize + c.required b.extLen.toNat b.payLen.toNat)

/-- The invariant: a legal configuration, and a block as the rules leave it in every reachable state.
It says nothing of the environment's contents or answers, of the host's queue, or of `free`. -/
structure Inv (s : State) : Prop where
  cfg       : s.cfg.Wf
  files     : FilesOk s.cfg s.blk
  flags     : FlagsOk s.blk
  stage     : StageOk s.blk
  embedder  : s.blk.mode = .embedder → EmbedderOk s.cfg s.blk
  extractor : s.blk.mode = .extractor → ExtractorOk s.cfg s.blk
  /-- Only a run has a transaction in progress (20_memory.md rule R80). -/
  waiting   : s.env.pending.isSome = true → s.blk.busy = true

/-! ### The environment and runs -/

/-- Every planned answer is `Ok`: with it the environment is the well-behaved one of 20_memory.md rule
R74, the contents deciding when a read fails. -/
abbrev WellBehaved (e : Env) : Prop := ∀ r ∈ e.plan, r = .ok

/-- Every coming transaction is answered, `Ok` or `Fail` (70_reset_and_hazards.md rule R253). -/
abbrev AlwaysAnswers (e : Env) : Prop := e.pending = none ∧ Reply.never ∉ e.plan

/-- A terminal state (10_state.md rule R28). -/
abbrev Terminal (b : Block) : Prop := b.done = true ∨ b.fail = true

/-- A run of `n` steps of the machine from `s`. -/
abbrev runFor (n : Nat) (s : State) : Result := Host.Core.run Sys2Proof.core n s

/-! ### The runs as functions of the streams -/

/-- `s[a..b)` (00_scope.md rule R14). -/
def seg (s : List Byte) (a b : Nat) : List Byte := (s.drop a).take (b - a)

/-- `packs(s, c)`: the concatenation over j of `pack_byte(s[j], c[8j..8j+8))` (rule R163). -/
def packs (s c : List Byte) : List Byte :=
  match s with
  | [] => []
  | v :: r => packByte v (c.take 8) ++ packs r (c.drop 8)

/-- The stego stream of rule R163 for an extension and a payload given as byte sequences. -/
def stegoOf (c : Config) (carrier ext payload : List Byte) : List Byte :=
  let a := c.headerSize
  let b := a + 8 * c.markerLen
  let d := b + 32
  let e := d + 8 * ext.length
  let f := e + 32
  let g := f + 8 * payload.length
  carrier.take a ++ packs c.marker (seg carrier a b)
    ++ packU32 (BitVec.ofNat 32 ext.length) (seg carrier b d)
    ++ packs ext (seg carrier d e)
    ++ packU32 (BitVec.ofNat 32 payload.length) (seg carrier e f)
    ++ packs payload (seg carrier f g) ++ carrier.drop g

/-- `byte_at(o)` (rule R195). -/
def byteAt (s : List Byte) (o : Nat) : Byte := unpackByte (seg s o (o + 8))

/-- `u32_at(o)` (rule R195). -/
def u32At (s : List Byte) (o : Nat) : Word := unpackU32 (seg s o (o + 32))

/-- `byte_at(o), byte_at(o + 8), ...`, n of them. -/
def bytesAt (s : List Byte) (o n : Nat) : List Byte :=
  (List.range n).map fun j => byteAt s (o + 8 * j)

/-- How an Extractor run ends (rule R195). -/
inductive ExtractEnd where
  | success (ext payload : List Byte)
  | failure (k : FailKind) (p : Phase)
deriving DecidableEq, Repr

/-- The nine tests of rule R195, in order; the first that fails ends the run. -/
def extractEnd (c : Config) (s : List Byte) : ExtractEnd :=
  let h := c.headerSize
  let m := h + 8 * c.markerLen
  if s.length < h then .failure .ioError .idle
  else if s.length < m then .failure .ioError .header
  else if bytesAt s h c.markerLen ≠ c.marker then .failure .formatError .header
  else if s.length < m + 32 then .failure .ioError .marker
  else
    let e := (u32At s m).toNat
    if c.extBufCap ≤ e then .failure .bufferOverflowError .marker
    else if s.length < m + 32 + 8 * e then .failure .ioError .extLen
    else if s.length < m + 64 + 8 * e then .failure .ioError .ext
    else
      let p := (u32At s (m + 32 + 8 * e)).toNat
      if c.payBufCap < p then .failure .resourceError .payLen
      else if s.length < m + 64 + 8 * e + 8 * p then .failure .ioError .payLen
      else .success (bytesAt s (m + 32) e) (bytesAt s (m + 64 + 8 * e) p)

/-! ### Shapes that several step rules share -/

/-- The block after failure entry and nothing else (60_exceptions.md rule R216). -/
abbrev failedBlock (k : FailKind) (b : Block) : Block :=
  { b with fail := true, err := some k, busy := false }

/-- A transaction answered `Fail`. -/
def failedTransaction (x : Transaction) : Bool :=
  match x with
  | .readFail _ _ | .writeFail _ _ => true
  | .readOk _ _ _ | .writeOk _ _ => false

/-- A read of `n` bytes from CIN as the next transaction is answered `Fail`: the environment says so, or
the bytes are not all there (20_memory.md rules R70, R71, R74). -/
abbrev CinReadFails (s : State) (n : Nat) : Prop :=
  s.env.plan.getD 0 .ok = .fail ∨
  (s.env.plan.getD 0 .ok = .ok ∧ s.env.cin.content.length < s.env.cin.pos + n)

/-- The next `n` bytes of CIN are there. -/
abbrev CinHas (s : State) (n : Nat) : Prop := s.env.cin.pos + n ≤ s.env.cin.content.length

/-- The sequencer's turn at `s` fails with IOError after the transactions `done`, of which the last is
the failed one; the block changes by failure entry alone, and `sout` and `pout` say whether SOUT and POUT
stay as they were (60_exceptions.md rules R211, R216, R218). -/
def FailsWithIOError (s : State) (done : List Transaction) (soutKept poutKept : Prop) : Prop :=
  ∃ t, sequencerTurn s = .next t ∧ t.blk = failedBlock .ioError s.blk ∧ t.cfg = s.cfg ∧
    t.host = s.host ∧ t.env.pending = s.env.pending ∧ t.env.history = s.env.history ++ done ∧
    (soutKept → t.env.sout = s.env.sout) ∧ (poutKept → t.env.pout = s.env.pout)

/-- The sequencer's turn at `s` reads `n` bytes from CIN, writes `f` of them to SOUT, and then leaves the
block `b`; a `Fail` of either transaction ends the step with IOError (the shape of 41_embedder.md rules
R153 to R157 and R159). -/
def CopiesGroup (s : State) (n : Nat) (f : List Byte → List Byte) (b : Block) : Prop :=
  let c := seg s.env.cin.content s.env.cin.pos (s.env.cin.pos + n)
  (CinHas s n → s.env.plan.getD 0 .ok = .ok → s.env.plan.getD 1 .ok = .ok →
    sequencerTurn s = .next
      { s with
        blk := b
        env := { s.env with
          cin := { s.env.cin with pos := s.env.cin.pos + n }
          sout := s.env.sout ++ f c
          plan := s.env.plan.drop 2
          history := s.env.history ++ [.readOk .cin n c, .writeOk .sout (f c)] } }) ∧
  (CinReadFails s n → FailsWithIOError s [.readFail .cin n] True True) ∧
  (CinHas s n → s.env.plan.getD 0 .ok = .ok → s.env.plan.getD 1 .ok = .fail →
    FailsWithIOError s [.readOk .cin n c, .writeFail .sout (f c)] False True)

/-- The sequencer's turn at `s` reads `n` bytes from CIN and then leaves the block `g` of them; a `Fail`
ends the step with IOError (the shape of 42_extractor.md rules R181, R182, R185, R186, R189, R191). -/
def ReadsGroup (s : State) (n : Nat) (g : List Byte → Block) : Prop :=
  let c := seg s.env.cin.content s.env.cin.pos (s.env.cin.pos + n)
  (CinHas s n → s.env.plan.getD 0 .ok = .ok →
    sequencerTurn s = .next
      { s with
        blk := g c
        env := { s.env with
          cin := { s.env.cin with pos := s.env.cin.pos + n }
          plan := s.env.plan.drop 1
          history := s.env.history ++ [.readOk .cin n c] } }) ∧
  (CinReadFails s n → FailsWithIOError s [.readFail .cin n] True True)

/-- The sequencer is at PHASE `p` of a run of the pipeline `m`. -/
abbrev RunningAt (m : Mode) (p : Phase) (s : State) : Prop :=
  s.blk.busy = true ∧ s.blk.mode = m ∧ s.blk.phase = p

end Sys2Proof
end

