-- ==== Sys2Proof/Certificates/Slice0/Obligations.lean ====
section
/-! DEFINITION. The statements about the model. Each docstring names the rules of spec/ it formalises. -/

open Sys2Proof Sys2Proof.Machine

/-! ### Encoding and the step -/

/-- 30_encoding.md rule R91: the seven command words, written out from the rule's column "word". -/
def Obligations.CommandWordsDecodeAsListed : Prop :=
  decode 0x00000000#32 = .ok .nop ∧ decode 0x00000001#32 = .ok .pack8 ∧
  decode 0x00000002#32 = .ok .pack32 ∧ decode 0x00000003#32 = .ok .unpack8 ∧
  decode 0x00000004#32 = .ok .unpack32 ∧ decode 0x00000005#32 = .ok .embed ∧
  decode 0x00000006#32 = .ok .extract ∧ decode 0x00000007#32 = .error .reservedOp ∧
  decode 0x80000001#32 = .error .reservedBits

/-- Rules R91, R92: a word decodes to a command exactly when it is that command's encoding, for every
command and every one of the 2^32 words; and every command is well formed. -/
def Obligations.DecodeAndEncodeAgree : Prop :=
  ∀ (w : Word) (i : Instr), (decode w = .ok i ↔ w = encode i) ∧ i.wf = true ∧ CommandWordWf (encode i)

/-- Rule R94: a reserved word written to CTRL, in any state, is `Refused`: no state changes, FAIL is not
set, no transaction is issued. -/
def Obligations.ReservedWordsAreRefused : Prop :=
  ∀ (s : State) (w : Word) (rest : List HostEvent),
    s.env.pending = none → s.host.inputs = .write 4 0x000 w :: rest →
    (w.extractLsb' 3 29 ≠ 0#29 ∨ w.extractLsb' 0 3 = 7#3) →
    step s = .next ((s.setInputs rest).answer .refused)

/-- Rule R90: when the next host event writes to CTRL a word that decodes to `i`, the step is `exec i` on
the state whose queue has lost that event; `withFetchWord` places exactly such a write. -/
def Obligations.StepRunsTheCommandWritten : Prop :=
  ∀ (s : State) (w : Word) (i : Instr),
    s.env.pending = none → decode w = .ok i →
    (∀ rest, s.host.inputs = .write 4 0x000 w :: rest → step s = exec i (s.setInputs rest)) ∧
    step (s.withFetchWord 32 w.toNat) = exec i s

/-- The model's queue of host events (log 3): with none queued, or at a `turn`, the step is the sequencer's
turn; at a `poll`, which the line `wait` expands to (30_encoding.md rule R111), the step is a read of
STATUS, repeated after one turn while BUSY = 1 (log 23). -/
def Obligations.QueueSaysWhoMovesNext : Prop :=
  ∀ (s : State) (rest : List HostEvent), s.env.pending = none →
    (s.host.inputs = [] → step s = sequencerTurn s) ∧
    (s.host.inputs = .turn :: rest → step s = sequencerTurn (s.setInputs rest)) ∧
    (s.host.inputs = .poll :: rest → s.blk.busy = true →
      step s = .next ((s.setInputs (.turn :: .poll :: rest)).answer (.okRead (statusWord s.blk)))) ∧
    (s.host.inputs = .poll :: rest → s.blk.busy = false →
      step s = .next ((s.setInputs rest).answer (.okRead (statusWord s.blk))))

/-- 10_state.md rule R27: the sequencer has an enabled step if and only if BUSY = 1. With BUSY = 0 its
turn changes nothing; with BUSY = 1 its turn answers a next state that differs. -/
def Obligations.SequencerMovesExactlyWhileBusy : Prop :=
  ∀ s : State, Inv s → s.env.pending = none →
    (s.blk.busy = false → sequencerTurn s = .next s) ∧
    (s.blk.busy = true → ∃ t, sequencerTurn s = .next t ∧ t ≠ s)

/-! ### Host register access -/

/-- 20_memory.md rule R63: a read of a mapped offset returns its content, in any state of the block, and
changes nothing; CTRL reads 0; a read of an unmapped offset is `Refused`. -/
def Obligations.HostReadsHaveNoEffect : Prop :=
  ∀ (s : State) (off : Nat) (rest : List HostEvent),
    Inv s → s.env.pending = none → s.host.inputs = .read 4 off :: rest → off % 4 = 0 → off < 0x1000 →
    (∀ r, regAt s.cfg off = some r → ∃ w, readReg s.cfg s.blk r = some w ∧
      step s = .next ((s.setInputs rest).answer (.okRead w))) ∧
    (regAt s.cfg off = none → step s = .next ((s.setInputs rest).answer .refused)) ∧
    (off = 0x000 → step s = .next ((s.setInputs rest).answer (.okRead 0)))

/-- Rule R61: what stands at each offset, and which offsets a host write may change while READY. -/
def Obligations.RegisterMapContents : Prop :=
  ∀ (c : Config) (b : Block), c.Wf →
    let content := fun off => (regAt c off).bind (readReg c b)
    let writable := fun off => (regAt c off).map HostReg.writable
    (content 0x000 = some 0 ∧ content 0x004 = some (statusWord b) ∧
      content 0x008 = some (b.carrierLen.extractLsb' 0 32) ∧
      content 0x00C = some (b.carrierLen.extractLsb' 32 32) ∧
      content 0x010 = some b.extLen ∧ content 0x014 = some b.payLen ∧ content 0x018 = some b.val ∧
      content 0x01C = some (b.curIn.extractLsb' 0 32) ∧
      content 0x020 = some (b.curIn.extractLsb' 32 32) ∧
      content 0x024 = some (b.curOut.extractLsb' 0 32) ∧
      content 0x028 = some (b.curOut.extractLsb' 32 32) ∧ content 0x02C = some b.idx ∧
      (content 0x030).map BitVec.toNat = some c.headerSize ∧
      (content 0x034).map BitVec.toNat = some c.markerLen ∧
      (content 0x038).map BitVec.toNat = some c.extBufCap ∧
      (content 0x03C).map BitVec.toNat = some c.payBufCap) ∧
    (∀ i, i < 32 → content (0x100 + 4 * i) = (b.lane[i]?).map (BitVec.setWidth 32) ∧
      writable (0x100 + 4 * i) = some true) ∧
    (∀ i, i < c.extBufCap → content (0x400 + 4 * i) = (b.ext[i]?).map (BitVec.setWidth 32) ∧
      writable (0x400 + 4 * i) = some true) ∧
    (∀ i, i < c.markerLen → content (0x800 + 4 * i) = (c.marker[i]?).map (BitVec.setWidth 32) ∧
      writable (0x800 + 4 * i) = some false) ∧
    (∀ off ∈ [0x008, 0x00C, 0x010, 0x014, 0x018], writable off = some true) ∧
    (∀ off ∈ [0x004, 0x01C, 0x020, 0x024, 0x028, 0x02C, 0x030, 0x034, 0x038, 0x03C],
      writable off = some false) ∧
    (∀ off, (0x040 ≤ off ∧ off < 0x100) ∨ (0x180 ≤ off ∧ off < 0x400) ∨
      (0x400 + 4 * c.extBufCap ≤ off ∧ off < 0x800) ∨
      (0x800 + 4 * c.markerLen ≤ off ∧ off < 0xC00) ∨ 0xC00 ≤ off → regAt c off = none)

/-- Rule R65: an access that is not a whole aligned word of the window is `Refused` and changes nothing,
in every state. -/
def Obligations.PartialOrMisalignedAccessIsRefused : Prop :=
  ∀ (s : State) (size off : Nat) (w : Word) (rest : List HostEvent),
    s.env.pending = none → (size ≠ 4 ∨ off % 4 ≠ 0 ∨ 0x1000 ≤ off) →
    (s.host.inputs = .read size off :: rest →
      step s = .next ((s.setInputs rest).answer .refused)) ∧
    (s.host.inputs = .write size off w :: rest →
      step s = .next ((s.setInputs rest).answer .refused))

/-- 70_reset_and_hazards.md rule R247: a host write, of a register or of a command, while BUSY = 1 or in a
terminal state is `Refused` and changes nothing. -/
def Obligations.WritesOutsideReadyAreLost : Prop :=
  ∀ (s : State) (size off : Nat) (w : Word) (rest : List HostEvent),
    s.env.pending = none → (s.blk.busy = true ∨ s.blk.done = true ∨ s.blk.fail = true) →
    s.host.inputs = .write size off w :: rest →
    step s = .next ((s.setInputs rest).answer .refused)

/-- Rule R64: a write while READY takes effect on an RW* register and on nothing else; LANE and EXT take
w[7:0]; CARRIER_LEN takes `w` into one half; CTRL issues the command `w`; a write to a read-only or
unmapped offset, or while READY does not hold, is `Refused`. -/
def Obligations.HostWriteRule : Prop :=
  ∀ (s : State) (off : Nat) (w : Word) (rest : List HostEvent),
    s.env.pending = none → s.host.inputs = .write 4 off w :: rest →
    let u := s.setInputs rest
    let wrote := fun b : Block => step s = .next ({ u with blk := b }.answer .okWrite)
    let isRefused := step s = .next (u.answer .refused)
    (Ready s.blk →
      (off = 0x000 → step s = issueCommand w u) ∧
      (off = 0x008 → wrote
        { s.blk with carrierLen := s.blk.carrierLen.extractLsb' 32 32 ++ w }) ∧
      (off = 0x00C → wrote
        { s.blk with carrierLen := w ++ s.blk.carrierLen.extractLsb' 0 32 }) ∧
      (off = 0x010 → wrote { s.blk with extLen := w }) ∧
      (off = 0x014 → wrote { s.blk with payLen := w }) ∧
      (off = 0x018 → wrote { s.blk with val := w }) ∧
      (∀ i, i < 32 → off = 0x100 + 4 * i → wrote
        { s.blk with lane := s.blk.lane.set i (w.extractLsb' 0 8) }) ∧
      (∀ i, i < 256 → i < s.cfg.extBufCap → off = 0x400 + 4 * i → wrote
        { s.blk with ext := s.blk.ext.set i (w.extractLsb' 0 8) }) ∧
      (∀ r, regAt s.cfg off = some r → r ≠ .ctrl → r.writable = false → isRefused) ∧
      (regAt s.cfg off = none → isRefused)) ∧
    (¬Ready s.blk → isRefused)

/-- Rules R61, R64, R67: a register written while READY reads back as the word written (as its low byte
for LANE and EXT), and every other register reads as before. -/
def Obligations.WriteThenReadBack : Prop :=
  ∀ (s : State) (r q : HostReg) (w : Word),
    Inv s → r.writable = true → r.inMap s.cfg = true → q.inMap s.cfg = true →
    readReg s.cfg (writeReg r w s.blk) q =
      if q = r then
        (match r with
          | .lane _ | .ext _ => some ((w.extractLsb' 0 8).setWidth 32)
          | _ => some w)
      else readReg s.cfg s.blk q

/-- Rule R61: every register of the map stands at its own offset, and nothing else stands there. -/
def Obligations.RegisterOffsetsAreUnique : Prop :=
  ∀ (c : Config) (r : HostReg) (off : Nat), c.Wf →
    (regAt c off = some r ↔ r.inMap c = true ∧ off = r.offset)

/-! ### STATUS and reset -/

/-- 30_encoding.md rule R96: the fields of STATUS, with the codes of 10_state.md rules R29, R30 and
60_exceptions.md rule R210 written out; the word is what stands at offset 0x004,
and under the invariant its ERR field is 0 when FAIL = 0. -/
def Obligations.StatusWordFields : Prop :=
  (∀ s : State, Inv s → s.blk.fail = false → (statusWord s.blk).extractLsb' 8 3 = 0#3) ∧
  ∀ (c : Config) (b : Block),
    regAt c 0x004 = some .status ∧ readReg c b .status = some (statusWord b) ∧
    (statusWord b).extractLsb' 11 21 = 0#21 ∧
    (statusWord b).extractLsb' 8 3 =
      (match b.err with
        | none => 0#3
        | some .ioError => 1#3
        | some .formatError => 2#3
        | some .capacityError => 3#3
        | some .bufferOverflowError => 4#3
        | some .resourceError => 5#3) ∧
    (statusWord b).getLsbD 7 = b.fail ∧ (statusWord b).getLsbD 6 = b.done ∧
    (statusWord b).getLsbD 5 = b.busy ∧
    (statusWord b).getLsbD 4 = (match b.mode with | .embedder => false | .extractor => true) ∧
    (statusWord b).extractLsb' 0 4 =
      (match b.phase with
        | .idle => 0#4
        | .header => 1#4
        | .marker => 2#4
        | .extLen => 3#4
        | .ext => 4#4
        | .payLen => 5#4
        | .payload => 6#4
        | .output => 7#4
        | .done => 8#4)

/-- 70_reset_and_hazards.md rules R240, R241, R253: reset, in any state, sets every register to 0 and every
LANE and EXT entry to 0x00, leaves no entry of MBUF and PBUF with a value, issues no transaction, leaves
the streams as they stand, and READY holds. Two clauses are the model's choice and no rule of the spec:
an unanswered request is dropped with the streams as they stand (logs 5, 24), and the history survives
(log 10). -/
def Obligations.ResetEventSetsEveryRegister : Prop :=
  ∀ (s : State) (rest : List HostEvent), s.host.inputs = .reset :: rest →
    ∃ t, step s = .next t ∧ t.cfg = s.cfg ∧ t.host = { s.host with inputs := rest } ∧
      t.env = { s.env with pending := none } ∧ Ready t.blk ∧
      t.blk.phase = .idle ∧ t.blk.mode = .embedder ∧ t.blk.busy = false ∧ t.blk.done = false ∧
      t.blk.fail = false ∧ t.blk.err = none ∧ t.blk.idx = 0 ∧ t.blk.curIn = 0 ∧ t.blk.curOut = 0 ∧
      t.blk.carrierLen = 0 ∧ t.blk.extLen = 0 ∧ t.blk.payLen = 0 ∧ t.blk.val = 0 ∧
      t.blk.lane.length = 32 ∧ (∀ v ∈ t.blk.lane, v = 0x00#8) ∧
      t.blk.ext.length = s.cfg.extBufCap ∧ (∀ v ∈ t.blk.ext, v = 0x00#8) ∧
      (∀ i, bufGet t.blk.mbuf i = none ∧ bufGet t.blk.pbuf i = none)

/-- 10_state.md rule R41: the block after reset, in the state the machine starts from. -/
def Obligations.ResetStateValues : Prop :=
  let b := State.reset.blk
  Ready b ∧ b.phase = .idle ∧ b.mode = .embedder ∧ b.busy = false ∧ b.done = false ∧ b.fail = false ∧
  b.err = none ∧ b.idx = 0 ∧ b.curIn = 0 ∧ b.curOut = 0 ∧ b.carrierLen = 0 ∧ b.extLen = 0 ∧
  b.payLen = 0 ∧ b.val = 0 ∧ b.lane = List.replicate 32 0x00#8 ∧
  b.ext = List.replicate State.reset.cfg.extBufCap 0x00#8 ∧
  (∀ i, bufGet b.mbuf i = none ∧ bufGet b.pbuf i = none)

/-- The invariant holds after reset, whatever the open parameters are. -/
def Obligations.ResetStateMeetsTheInvariant : Prop := Inv State.reset

/-! ### NOP and the leaf commands -/

/-- 40_bit_codec.md rule R130: NOP changes nothing while READY, and is refused otherwise. -/
def Obligations.NopChangesNothing : Prop :=
  encode .nop = 0x00000000#32 ∧ ∀ s : State,
    (Ready s.blk → exec .nop s = .next (s.answer .okWrite)) ∧
    (¬Ready s.blk → exec .nop s = .next (s.answer .refused))

/-- Rule R131: PACK8 puts VAL[7 - i] into bit 0 of LANE[i] for i < 8, and changes nothing else. -/
def Obligations.Pack8WritesValIntoLaneLsbs : Prop :=
  encode .pack8 = 0x00000001#32 ∧ ∀ s : State, Ready s.blk → s.blk.lane.length = 32 →
    ∃ l : List Byte,
      exec .pack8 s = .next ({ s with blk := { s.blk with lane := l } }.answer .okWrite) ∧
      l.length = 32 ∧
      (∀ i, i < 8 → (l.getD i 0).getLsbD 0 = s.blk.val.getLsbD (7 - i) ∧
        ∀ k, 1 ≤ k → (l.getD i 0).getLsbD k = (s.blk.lane.getD i 0).getLsbD k) ∧
      (∀ i, 8 ≤ i → l[i]? = s.blk.lane[i]?)

/-- Rule R132: PACK32 puts VAL[31 - i] into bit 0 of LANE[i] for i < 32, and changes nothing else. -/
def Obligations.Pack32WritesValIntoLaneLsbs : Prop :=
  encode .pack32 = 0x00000002#32 ∧ ∀ s : State, Ready s.blk → s.blk.lane.length = 32 →
    ∃ l : List Byte,
      exec .pack32 s = .next ({ s with blk := { s.blk with lane := l } }.answer .okWrite) ∧
      l.length = 32 ∧
      (∀ i, i < 32 → (l.getD i 0).getLsbD 0 = s.blk.val.getLsbD (31 - i) ∧
        ∀ k, 1 ≤ k → (l.getD i 0).getLsbD k = (s.blk.lane.getD i 0).getLsbD k)

/-- Rule R133: UNPACK8 puts bit 0 of LANE[i] into VAL[7 - i] for i < 8, clears VAL[31:8], and changes
nothing else. -/
def Obligations.Unpack8ReadsLaneLsbs : Prop :=
  encode .unpack8 = 0x00000003#32 ∧ ∀ s : State, Ready s.blk →
    ∃ v : Word,
      exec .unpack8 s = .next ({ s with blk := { s.blk with val := v } }.answer .okWrite) ∧
      (∀ i, i < 8 → v.getLsbD (7 - i) = (s.blk.lane.getD i 0).getLsbD 0) ∧
      (∀ k, 8 ≤ k → v.getLsbD k = false)

/-- Rule R134: UNPACK32 puts bit 0 of LANE[i] into VAL[31 - i] for i < 32, and changes nothing else. -/
def Obligations.Unpack32ReadsLaneLsbs : Prop :=
  encode .unpack32 = 0x00000004#32 ∧ ∀ s : State, Ready s.blk →
    ∃ v : Word,
      exec .unpack32 s = .next ({ s with blk := { s.blk with val := v } }.answer .okWrite) ∧
      (∀ i, i < 32 → v.getLsbD (31 - i) = (s.blk.lane.getD i 0).getLsbD 0)

/-- Rule R135: NOP and the leaf commands complete within the accepting step, cannot fail, issue no
transaction, leave READY true, and touch no register but LANE and VAL; otherwise they are refused. -/
def Obligations.LeafCommandsCompleteAndKeepTheRest : Prop :=
  ∀ (s : State) (i : Instr), i ∈ [Instr.nop, .pack8, .pack32, .unpack8, .unpack32] →
    (¬Ready s.blk → exec i s = .next (s.answer .refused)) ∧
    (Ready s.blk → ∃ t, exec i s = .next t ∧
      t = { s with blk := { s.blk with lane := t.blk.lane, val := t.blk.val } }.answer .okWrite ∧
      Ready t.blk ∧
      (i ∈ [Instr.nop, .pack8, .pack32] → t.blk.val = s.blk.val) ∧
      (i ∈ [Instr.nop, .unpack8, .unpack32] → t.blk.lane = s.blk.lane))

/-- 30_encoding.md rule R90, 10_state.md rule R28: any command outside READY is `Refused` and changes
nothing. -/
def Obligations.CommandsAreRefusedOutsideReady : Prop :=
  ∀ (s : State) (i : Instr), ¬Ready s.blk → exec i s = .next (s.answer .refused)

/-! ### The codec's laws -/

/-- Rule R125: unpacking what was packed gives the value back, whatever the carrier held. -/
def Obligations.UnpackInvertsPack : Prop :=
  (∀ (v : Byte) (c : List Byte), c.length = 8 → unpackByte (packByte v c) = v) ∧
  (∀ (v : Word) (c : List Byte), c.length = 32 → unpackU32 (packU32 v c) = v)

/-- Rule R126: packing changes bit 0 only. A carrier byte stays, or rises by 1 where it is even and the bit
is 1, or falls by 1 where it is odd and the bit is 0; there is no wrap. -/
def Obligations.PackChangesOnlyBitZero : Prop :=
  let becomes := fun (x y : Byte) (bit : Bool) =>
    (∀ k, 1 ≤ k → y.getLsbD k = x.getLsbD k) ∧
    y.toNat =
      if x.toNat % 2 = 0 ∧ bit = true then x.toNat + 1
      else if x.toNat % 2 = 1 ∧ bit = false then x.toNat - 1
      else x.toNat
  (∀ (v : Byte) (c : List Byte), c.length = 8 →
    (packByte v c).length = 8 ∧
    ∀ i, i < 8 → becomes (c.getD i 0) ((packByte v c).getD i 0) (v.getLsbD (7 - i))) ∧
  (∀ (v : Word) (c : List Byte), c.length = 32 →
    (packU32 v c).length = 32 ∧
    ∀ i, i < 32 → becomes (c.getD i 0) ((packU32 v c).getD i 0) (v.getLsbD (31 - i)))

/-- Rules R102, R127: a 32-bit length is four bytes, most significant first. -/
def Obligations.LengthIsFourBytesMostSignificantFirst : Prop :=
  (∀ (v : Word) (c : List Byte), c.length = 32 →
    packU32 v c =
      packByte (v.extractLsb' 24 8) (seg c 0 8) ++ packByte (v.extractLsb' 16 8) (seg c 8 16)
        ++ packByte (v.extractLsb' 8 8) (seg c 16 24)
        ++ packByte (v.extractLsb' 0 8) (seg c 24 32)) ∧
  (∀ c : List Byte, c.length = 32 →
    unpackU32 c =
      unpackByte (seg c 0 8) ++ unpackByte (seg c 8 16) ++ unpackByte (seg c 16 24)
        ++ unpackByte (seg c 24 32))

/-- Rule R128: re-packing what is there changes nothing; the last value packed wins; unpacking depends on
the LSBs only; different values pack differently on the same carrier. -/
def Obligations.FurtherCodecLaws : Prop :=
  (∀ c : List Byte, c.length = 8 → packByte (unpackByte c) c = c) ∧
  (∀ c : List Byte, c.length = 32 → packU32 (unpackU32 c) c = c) ∧
  (∀ (v w : Byte) (c : List Byte), c.length = 8 → packByte v (packByte w c) = packByte v c) ∧
  (∀ (v w : Word) (c : List Byte), c.length = 32 → packU32 v (packU32 w c) = packU32 v c) ∧
  (∀ c d : List Byte, (∀ i, i < 8 → c.getD i 0 &&& 1#8 = d.getD i 0 &&& 1#8) →
    unpackByte c = unpackByte d) ∧
  (∀ c d : List Byte, (∀ i, i < 32 → c.getD i 0 &&& 1#8 = d.getD i 0 &&& 1#8) →
    unpackU32 c = unpackU32 d) ∧
  (∀ (v w : Byte) (c : List Byte), c.length = 8 → packByte v c = packByte w c → v = w) ∧
  (∀ (v w : Word) (c : List Byte), c.length = 32 → packU32 v c = packU32 w c → v = w)

/-! ### EMBED and EXTRACT -/

/-- 41_embedder.md rules R150, R151, R152: EMBED while READY writes MODE, tests the extension bound first
and then the capacity, over the natural numbers, and otherwise starts the run; the write returns `Ok` in
every case and no transaction is issued. Outside READY it is refused. -/
def Obligations.EmbedChecksThenStarts : Prop :=
  encode .embed = 0x00000005#32 ∧
  (∀ s : State, ¬Ready s.blk → exec .embed s = .next (s.answer .refused)) ∧
  ∀ s : State, Ready s.blk →
    let e := s.blk.extLen.toNat
    let p := s.blk.payLen.toNat
    let need := s.cfg.headerSize + (8 * s.cfg.marker.length + 32 + 8 * e + 32 + 8 * p)
    ∃ t, exec .embed s = .next t ∧ t.cfg = s.cfg ∧ t.free = s.free ∧
      t.host = { s.host with answers := s.host.answers ++ [.okWrite] } ∧
      t.env = { s.env with history := t.env.history } ∧
      t.blk =
        if s.cfg.extBufCap ≤ e then
          failedBlock .bufferOverflowError { s.blk with mode := .embedder }
        else if s.blk.carrierLen.toNat < need then
          failedBlock .capacityError { s.blk with mode := .embedder }
        else
          { s.blk with mode := .embedder, busy := true, idx := 0, curIn := 0, curOut := 0 }

/-- 42_extractor.md rule R180: EXTRACT while READY clears EXT_LEN, PAY_LEN, EXT, IDX and the cursors, writes
MODE and BUSY, and changes nothing else; there is no start check and no transaction. Outside READY it is refused. -/
def Obligations.ExtractClearsThenStarts : Prop :=
  encode .extract = 0x00000006#32 ∧
  (∀ s : State, ¬Ready s.blk → exec .extract s = .next (s.answer .refused)) ∧
  ∀ s : State, Ready s.blk →
    ∃ t, exec .extract s = .next t ∧ t.cfg = s.cfg ∧ t.free = s.free ∧
      t.host = { s.host with answers := s.host.answers ++ [.okWrite] } ∧
      t.env = { s.env with history := t.env.history } ∧
      t.blk =
        { s.blk with
          mode := .extractor, busy := true, extLen := 0, payLen := 0
          ext := List.replicate s.cfg.extBufCap 0x00#8, idx := 0, curIn := 0, curOut := 0 }

/-! ### The Embedder's steps -/

/-- 41_embedder.md rule R153, header copy. -/
def Obligations.HeaderCopyStep : Prop :=
  ∀ s : State, RunningAt .embedder .idle s →
    let n := s.cfg.headerSize
    CopiesGroup s n (fun c => c)
      { s.blk with
        curIn := s.blk.curIn + BitVec.ofNat 64 n, curOut := s.blk.curOut + BitVec.ofNat 64 n
        phase := .header, idx := 0 }

/-- Rule R154, marker embedding: one group for MARKER[IDX], or the advance once IDX = L. -/
def Obligations.MarkerEmbeddingStep : Prop :=
  ∀ s : State, RunningAt .embedder .header s →
    (∀ h : s.blk.idx.toNat < s.cfg.marker.length,
      CopiesGroup s 8 (packByte (s.cfg.marker[s.blk.idx.toNat]'h))
        { s.blk with
          curIn := s.blk.curIn + 8, curOut := s.blk.curOut + 8, idx := s.blk.idx + 1 }) ∧
    (s.blk.idx.toNat = s.cfg.marker.length →
      sequencerTurn s = .next { s with blk := { s.blk with phase := .marker, idx := 0 } })

/-- Rules R155 and R157, the two length fields: 32 carrier bytes hold EXT_LEN, and PAY_LEN. -/
def Obligations.LengthEmbeddingSteps : Prop :=
  ∀ s : State,
    (RunningAt .embedder .marker s →
      CopiesGroup s 32 (packU32 s.blk.extLen)
        { s.blk with
          curIn := s.blk.curIn + 32, curOut := s.blk.curOut + 32, phase := .extLen, idx := 0 }) ∧
    (RunningAt .embedder .ext s →
      CopiesGroup s 32 (packU32 s.blk.payLen)
        { s.blk with
          curIn := s.blk.curIn + 32, curOut := s.blk.curOut + 32, phase := .payLen, idx := 0 })

/-- Rule R156, extension embedding: one group for EXT[IDX], or the advance once IDX = E. -/
def Obligations.ExtensionEmbeddingStep : Prop :=
  ∀ s : State, Inv s → RunningAt .embedder .extLen s →
    (s.blk.idx.toNat < s.blk.extLen.toNat →
      ∃ v, s.blk.ext[s.blk.idx.toNat]? = some v ∧
        CopiesGroup s 8 (packByte v)
          { s.blk with
            curIn := s.blk.curIn + 8, curOut := s.blk.curOut + 8, idx := s.blk.idx + 1 }) ∧
    (s.blk.idx.toNat = s.blk.extLen.toNat →
      sequencerTurn s = .next { s with blk := { s.blk with phase := .ext, idx := 0 } })

/-- Rule R158, payload embedding: PIN is read first, one byte; then the carrier group; then the write. A
short payload source fails before CIN is read. -/
def Obligations.PayloadEmbeddingStep : Prop :=
  ∀ s : State, RunningAt .embedder .payLen s →
    let c := seg s.env.cin.content s.env.cin.pos (s.env.cin.pos + 8)
    (∀ v, s.blk.idx.toNat < s.blk.payLen.toNat → s.env.pin.content[s.env.pin.pos]? = some v →
      CinHas s 8 →
      s.env.plan.getD 0 .ok = .ok → s.env.plan.getD 1 .ok = .ok → s.env.plan.getD 2 .ok = .ok →
      sequencerTurn s = .next
        { s with
          blk := { s.blk with
            curIn := s.blk.curIn + 8, curOut := s.blk.curOut + 8, idx := s.blk.idx + 1 }
          env := { s.env with
            pin := { s.env.pin with pos := s.env.pin.pos + 1 }
            cin := { s.env.cin with pos := s.env.cin.pos + 8 }
            sout := s.env.sout ++ packByte v c
            plan := s.env.plan.drop 3
            history := s.env.history ++
              [.readOk .pin 1 [v], .readOk .cin 8 c, .writeOk .sout (packByte v c)] } }) ∧
    (s.blk.idx.toNat < s.blk.payLen.toNat →
      (s.env.plan.getD 0 .ok = .fail ∨
        (s.env.plan.getD 0 .ok = .ok ∧ s.env.pin.content.length < s.env.pin.pos + 1)) →
      FailsWithIOError s [.readFail .pin 1] True True) ∧
    (∀ v, s.blk.idx.toNat < s.blk.payLen.toNat → s.env.pin.content[s.env.pin.pos]? = some v →
      s.env.plan.getD 0 .ok = .ok →
      (s.env.plan.getD 1 .ok = .fail ∨ (s.env.plan.getD 1 .ok = .ok ∧ ¬CinHas s 8)) →
      FailsWithIOError s [.readOk .pin 1 [v], .readFail .cin 8] True True) ∧
    (∀ v, s.blk.idx.toNat < s.blk.payLen.toNat → s.env.pin.content[s.env.pin.pos]? = some v →
      CinHas s 8 →
      s.env.plan.getD 0 .ok = .ok → s.env.plan.getD 1 .ok = .ok → s.env.plan.getD 2 .ok = .fail →
      FailsWithIOError s [.readOk .pin 1 [v], .readOk .cin 8 c, .writeFail .sout (packByte v c)]
        False True) ∧
    (s.blk.idx.toNat = s.blk.payLen.toNat →
      sequencerTurn s = .next { s with blk := { s.blk with phase := .payload, idx := 0 } })

/-- Rule R159, tail copy: one byte, verbatim, until CUR_IN = CARRIER_LEN; then the advance.
CUR_IN > CARRIER_LEN cannot happen. -/
def Obligations.TailCopyStep : Prop :=
  ∀ s : State, RunningAt .embedder .payload s →
    (s.blk.curIn.toNat < s.blk.carrierLen.toNat →
      CopiesGroup s 1 (fun c => c)
        { s.blk with curIn := s.blk.curIn + 1, curOut := s.blk.curOut + 1 }) ∧
    (Inv s → s.blk.curIn.toNat ≤ s.blk.carrierLen.toNat) ∧
    (s.blk.curIn = s.blk.carrierLen →
      sequencerTurn s = .next { s with blk := { s.blk with phase := .output, idx := 0 } })

/-- Rules R160 and R194: the final step of either run sets PHASE 8, DONE, clears BUSY, issues no
transaction and cannot fail; afterwards the sequencer has no step and the state is terminal. -/
def Obligations.FinalStepSetsDone : Prop :=
  ∀ (s : State) (m : Mode), RunningAt m .output s →
    ∃ t, sequencerTurn s = .next t ∧
      t = { s with blk := { s.blk with phase := .done, done := true, busy := false } } ∧
      Terminal t.blk ∧ sequencerTurn t = .next t

/-! ### The Extractor's steps -/

/-- 42_extractor.md rule R181, header skip: HEADER_SIZE bytes are read and discarded. -/
def Obligations.HeaderSkipStep : Prop :=
  ∀ s : State, RunningAt .extractor .idle s →
    ReadsGroup s s.cfg.headerSize fun _ =>
      { s.blk with
        curIn := s.blk.curIn + BitVec.ofNat 64 s.cfg.headerSize, phase := .header, idx := 0 }

/-- Rules R182 and R183: one marker character a step into MBUF[IDX], no comparison yet; once IDX = L the
whole of MBUF is compared with MARKER, and a mismatch is a FormatError. -/
def Obligations.MarkerDecodeThenVerify : Prop :=
  ∀ s : State, RunningAt .extractor .header s →
    (s.blk.idx.toNat < s.cfg.marker.length →
      ReadsGroup s 8 fun c =>
        { s.blk with
          mbuf := bufPut s.blk.mbuf s.blk.idx.toNat (unpackByte c)
          curIn := s.blk.curIn + 8, idx := s.blk.idx + 1 }) ∧
    (Inv s → s.blk.idx.toNat = s.cfg.marker.length →
      s.blk.curIn.toNat = s.cfg.headerSize + 8 * s.cfg.marker.length ∧
      ((∀ j, j < s.cfg.marker.length → bufGet s.blk.mbuf j = s.cfg.marker[j]?) →
        sequencerTurn s = .next { s with blk := { s.blk with phase := .marker, idx := 0 } }) ∧
      ((∃ j, j < s.cfg.marker.length ∧ bufGet s.blk.mbuf j ≠ s.cfg.marker[j]?) →
        sequencerTurn s = .next { s with blk := failedBlock .formatError s.blk }))

/-- Rule R185: the extension length is decoded, kept and counted before the guard; a length at or above
EXT_BUF_CAP is a BufferOverflowError and no extension byte is read. -/
def Obligations.ExtensionLengthGuard : Prop :=
  ∀ s : State, RunningAt .extractor .marker s →
    ReadsGroup s 32 fun c =>
      let b := { s.blk with extLen := unpackU32 c, curIn := s.blk.curIn + 32 }
      if s.cfg.extBufCap ≤ (unpackU32 c).toNat then failedBlock .bufferOverflowError b
      else { b with phase := .extLen, idx := 0 }

/-- Rules R186 and R187: one extension character a step into EXT[IDX]; once IDX = E the terminator 0x00 is
written to EXT[E]. That the terminator is 0x00 is a choice from general knowledge, as rule R187 itself
marks it: "the C string terminator `[from general knowledge, not in source]`" (log 19, 93 G1). -/
def Obligations.ExtensionDecodeThenTerminate : Prop :=
  ∀ s : State, Inv s → RunningAt .extractor .extLen s →
    (s.blk.idx.toNat < s.blk.extLen.toNat →
      ReadsGroup s 8 fun c =>
        { s.blk with
          ext := s.blk.ext.set s.blk.idx.toNat (unpackByte c)
          curIn := s.blk.curIn + 8, idx := s.blk.idx + 1 }) ∧
    (s.blk.idx.toNat = s.blk.extLen.toNat →
      sequencerTurn s = .next
        { s with
          blk := { s.blk with
            ext := s.blk.ext.set s.blk.extLen.toNat 0x00#8, phase := .ext, idx := 0 } })

/-- Rule R189: the payload length is decoded as it is, with no check. -/
def Obligations.PayloadLengthDecode : Prop :=
  ∀ s : State, RunningAt .extractor .ext s →
    ReadsGroup s 32 fun c =>
      { s.blk with
        payLen := unpackU32 c, curIn := s.blk.curIn + 32, phase := .payLen, idx := 0 }

/-- Rules R190, R191, R192: a payload length above PAY_BUF_CAP is a ResourceError before any payload byte
is read; otherwise one payload byte a step into PBUF[IDX]; then the advance. -/
def Obligations.ResourceCheckThenPayloadDecode : Prop :=
  ∀ s : State, RunningAt .extractor .payLen s →
    (s.cfg.payBufCap < s.blk.payLen.toNat →
      sequencerTurn s = .next { s with blk := failedBlock .resourceError s.blk } ∧
      (Inv s → s.blk.idx.toNat = 0)) ∧
    (s.blk.payLen.toNat ≤ s.cfg.payBufCap → s.blk.idx.toNat < s.blk.payLen.toNat →
      ReadsGroup s 8 fun c =>
        { s.blk with
          pbuf := bufPut s.blk.pbuf s.blk.idx.toNat (unpackByte c)
          curIn := s.blk.curIn + 8, idx := s.blk.idx + 1 }) ∧
    (s.blk.payLen.toNat ≤ s.cfg.payBufCap → s.blk.idx.toNat = s.blk.payLen.toNat →
      sequencerTurn s = .next { s with blk := { s.blk with phase := .payload, idx := 0 } })

/-- Rule R193: PBUF[0..P) goes to POUT in one transaction of exactly P bytes, also when P = 0; CUR_OUT does
not change. -/
def Obligations.OutputWriteIsOneTransaction : Prop :=
  ∀ s : State, Inv s → RunningAt .extractor .payload s →
    ∃ bytes : List Byte, bytes.length = s.blk.payLen.toNat ∧
      (∀ j, j < s.blk.payLen.toNat → bytes[j]? = bufGet s.blk.pbuf j) ∧
      (s.env.plan.getD 0 .ok = .ok →
        sequencerTurn s = .next
          { s with
            blk := { s.blk with phase := .output }
            env := { s.env with
              pout := s.env.pout ++ bytes
              plan := s.env.plan.drop 1
              history := s.env.history ++ [.writeOk .pout bytes] } }) ∧
      (s.env.plan.getD 0 .ok = .fail →
        FailsWithIOError s [.writeFail .pout bytes] True False)

/-! ### Failures, terminal states, waiting -/

/-- 60_exceptions.md rules R211, R216, 20_memory.md rule R76: in a run, ERR becomes IOError exactly when one
of the step's transactions was answered `Fail`; then the block changes by failure entry alone, and no
transaction follows the failed one. -/
def Obligations.FailedTransactionIsTheOnlyIOError : Prop :=
  ∀ (s t : State) (new : List Transaction),
    Inv s → s.blk.busy = true → sequencerTurn s = .next t → t.env.history = s.env.history ++ new →
    (t.blk.err = some .ioError ↔ ∃ x ∈ new, failedTransaction x = true) ∧
    ((∃ x ∈ new, failedTransaction x = true) →
      t.blk = failedBlock .ioError s.blk ∧
      (∃ x, new.getLast? = some x ∧ failedTransaction x = true) ∧
      ∀ x ∈ new.dropLast, failedTransaction x = false)

/-- 10_state.md rule R28, 60_exceptions.md rule R220: in a terminal state nothing but reset changes the
block: no command, no host write and no sequencer step does. -/
def Obligations.TerminalStatesLeaveOnlyByReset : Prop :=
  ∀ s t : State, Inv s → Terminal s.blk → step s = .next t →
    (t.blk = s.blk ∧ t.cfg = s.cfg ∧ t.env.history = s.env.history) ∨
    (∃ rest, s.host.inputs = .reset :: rest ∧ Ready t.blk)

/-- Rule R30: PHASE advances by exactly 1 at a time and never decreases except by reset. -/
def Obligations.PhaseAdvancesByOneOrResets : Prop :=
  ∀ s t : State, step s = .next t →
    t.blk.phase = s.blk.phase ∨
    t.blk.phase.code.toNat = s.blk.phase.code.toNat + 1 ∨
    (∃ rest, s.host.inputs = .reset :: rest ∧ t.blk.phase = .idle)

/-- 20_memory.md rule R80, 70_reset_and_hazards.md rule R253, 93 U15: a transaction that is never answered
leaves the block as it is with BUSY = 1; from then on there is no next step but reset, which leaves the
wait. The fault and the giving up at reset are the model's form (log 5); nothing is said of where the
port stands (log 24). -/
def Obligations.UnansweredTransactionWaitsForReset : Prop :=
  (∀ s t : State, s.env.pending = none → sequencerTurn s = .next t → t.env.pending.isSome = true →
    s.blk.busy = true ∧ t.blk = s.blk ∧ t.cfg = s.cfg ∧ s.env.plan ≠ [] ∧ Reply.never ∈ s.env.plan) ∧
  (∀ s : State, s.env.pending.isSome = true → (∀ rest, s.host.inputs ≠ .reset :: rest) →
    step s = .fault .transactionUnanswered) ∧
  (∀ (s : State) (rest : List HostEvent), s.host.inputs = .reset :: rest →
    ∃ t, step s = .next t ∧ t.env.pending = none ∧ Ready t.blk)

/-! ### Invariants and whole-machine rules -/

/-- Every step keeps the invariant (10_state.md rules R33, R37, R38, R42, R43; 60_exceptions.md rules R212 to
R215, R227): from every state that meets it, for every configuration, environment and host. That EXT[E]
stays 0x00 after the termination step rests on log 19. -/
def Obligations.EveryStepKeepsTheInvariant : Prop :=
  ∀ s t : State, Inv s → step s = .next t → Inv t

/-- 41_embedder.md rule R162: every sequencer step of the Embedder adds the same amount to CUR_IN and
CUR_OUT, so that the cursors stay equal. -/
def Obligations.EmbedderCursorsStaySynchronised : Prop :=
  (∀ s t : State, s.blk.busy = true → s.blk.mode = .embedder → sequencerTurn s = .next t →
    ∃ n : DWord, t.blk.curIn = s.blk.curIn + n ∧ t.blk.curOut = s.blk.curOut + n) ∧
  (∀ s t : State, Inv s → step s = .next t → t.blk.mode = .embedder → t.blk.curIn = t.blk.curOut)

/-- From the invariant no step stops, unless a transaction is unanswered: no fault of the model is reached
and no refusal exists. -/
def Obligations.NoStepStopsUnderTheInvariant : Prop :=
  ∀ s : State, Inv s →
    (s.env.pending = none ∨ ∃ rest, s.host.inputs = .reset :: rest) →
    ∃ t, step s = .next t ∧ Inv t

/-- 00_scope.md section 4, 10_state.md rule R36: the configuration never changes; and no step of a run
writes VAL, LANE or CARRIER_LEN, nor, in the Embedder, EXT_LEN, PAY_LEN, EXT or the Extractor's buffers
(10_state.md rules R22 to R25, R34, R35). -/
def Obligations.ConfigurationAndUnusedRegistersStay : Prop :=
  (∀ s t : State, step s = .next t → t.cfg = s.cfg) ∧
  (∀ s t : State, sequencerTurn s = .next t →
    t.blk.val = s.blk.val ∧ t.blk.lane = s.blk.lane ∧ t.blk.carrierLen = s.blk.carrierLen ∧
    t.blk.mode = s.blk.mode ∧ t.host = s.host ∧
    (s.blk.mode = .embedder →
      t.blk.extLen = s.blk.extLen ∧ t.blk.payLen = s.blk.payLen ∧ t.blk.ext = s.blk.ext ∧
      t.blk.mbuf = s.blk.mbuf ∧ t.blk.pbuf = s.blk.pbuf ∧ t.env.pout = s.env.pout) ∧
    (s.blk.mode = .extractor →
      t.blk.curOut = s.blk.curOut ∧ t.env.sout = s.env.sout ∧ t.env.pin = s.env.pin))

/-! ### Whole runs -/

/-- 41_embedder.md rules R163, R169: EMBED of a carrier with room, in the well-behaved environment, ends
after exactly 8 + L + E + P + tail sequencer steps with DONE = 1, and SOUT holds the stego stream. -/
def Obligations.EmbedRunProducesTheStegoStream : Prop :=
  ∀ s : State, Inv s → Ready s.blk → s.env.pending = none →
    s.host.inputs = [.write 4 0x000 (encode .embed)] → WellBehaved s.env →
    s.env.cin.pos = 0 → s.env.pin.pos = 0 → s.env.sout = [] →
    s.blk.carrierLen.toNat = s.env.cin.content.length →
    s.blk.payLen.toNat ≤ s.env.pin.content.length →
    let e := s.blk.extLen.toNat
    let p := s.blk.payLen.toNat
    let need := s.cfg.headerSize + s.cfg.required e p
    e < s.cfg.extBufCap → need ≤ s.env.cin.content.length →
    ∃ t, runFor (1 + (8 + s.cfg.markerLen + e + p + (s.env.cin.content.length - need))) s = .next t ∧
      t.blk.done = true ∧ t.blk.fail = false ∧ t.blk.phase = .done ∧ t.blk.mode = .embedder ∧
      t.env.sout =
        stegoOf s.cfg s.env.cin.content (s.blk.ext.take e) (s.env.pin.content.take p) ∧
      t.env.sout.length = s.env.cin.content.length ∧
      t.env.pin.pos = p ∧ t.blk.curIn = s.blk.carrierLen ∧ t.blk.curOut = s.blk.carrierLen ∧
      t.env.pout = s.env.pout

/-- 42_extractor.md rule R195: EXTRACT in the well-behaved environment ends as the nine tests say. The run
is one with an empty queue after the command (log 3), and EXT[E] = 0x00 is the choice of log 19. -/
def Obligations.ExtractRunEndsAsTheTestsSay : Prop :=
  ∀ s : State, Inv s → Ready s.blk → s.env.pending = none →
    s.host.inputs = [.write 4 0x000 (encode .extract)] → WellBehaved s.env →
    s.env.cin.pos = 0 → s.env.pout = [] →
    ∃ n t, runFor n s = .next t ∧ t.blk.busy = false ∧ t.blk.mode = .extractor ∧
      (match extractEnd s.cfg s.env.cin.content with
        | .success ext payload =>
          t.blk.done = true ∧ t.blk.fail = false ∧ t.blk.phase = .done ∧
          t.blk.extLen.toNat = ext.length ∧
          t.blk.ext = ext ++ List.replicate (s.cfg.extBufCap - ext.length) 0x00#8 ∧
          t.blk.payLen.toNat = payload.length ∧ t.env.pout = payload
        | .failure k p =>
          t.blk.done = false ∧ t.blk.fail = true ∧ t.blk.err = some k ∧ t.blk.phase = p ∧
          t.env.pout = [])

/-- 42_extractor.md rule R196: extracting what EMBED produced gives the payload and the extension back,
byte for byte. -/
def Obligations.ExtractInvertsEmbed : Prop :=
  ∀ (c : Config) (carrier ext payload : List Byte), c.Wf →
    ext.length < c.extBufCap → payload.length ≤ c.payBufCap →
    c.headerSize + c.required ext.length payload.length ≤ carrier.length →
    extractEnd c (stegoOf c carrier ext payload) = .success ext payload ∧
    ∀ tail, extractEnd c
      ((stegoOf c carrier ext payload).take (c.headerSize + c.required ext.length payload.length)
        ++ tail) = .success ext payload

/-- 41_embedder.md rule R164, 30_encoding.md rule R108: the stego stream has the carrier's length, equals it
outside the embedded region, and differs from it inside in bit 0 only. -/
def Obligations.EmbeddingChangesOnlyBitZero : Prop :=
  ∀ (c : Config) (carrier ext payload : List Byte),
    c.headerSize + c.required ext.length payload.length ≤ carrier.length →
    let stego := stegoOf c carrier ext payload
    stego.length = carrier.length ∧
    (∀ k, k < c.headerSize ∨ c.headerSize + c.required ext.length payload.length ≤ k →
      stego[k]? = carrier[k]?) ∧
    (∀ k j, k < carrier.length → 1 ≤ j →
      (stego.getD k 0).getLsbD j = (carrier.getD k 0).getLsbD j)

/-- 42_extractor.md rule R197: a stream whose LSBs are all 0 and that is long enough fails with
FormatError. -/
def Obligations.AllZeroLsbsFailWithFormatError : Prop :=
  ∀ (c : Config) (s : List Byte), c.Wf → c.headerSize + 8 * c.markerLen ≤ s.length →
    (∀ b ∈ s, b &&& 1#8 = 0#8) → extractEnd c s = .failure .formatError .header

/-- 70_reset_and_hazards.md rule R253: every run ends, given that every transaction is answered, within the
number of steps the rule states; then exactly one of DONE and FAIL is 1 (rule R256). -/
def Obligations.EveryAnsweredRunEnds : Prop :=
  ∀ s : State, Inv s → s.blk.busy = true → s.host.inputs = [] → AlwaysAnswers s.env →
    ∃ n t, runFor n s = .next t ∧ t.blk.busy = false ∧ (t.blk.done = true ↔ t.blk.fail = false) ∧
      (s.blk.mode = .embedder →
        n ≤ 5 + 3 + s.cfg.markerLen + s.blk.extLen.toNat + s.blk.payLen.toNat +
          (s.blk.carrierLen.toNat -
            (s.cfg.headerSize + s.cfg.required s.blk.extLen.toNat s.blk.payLen.toNat))) ∧
      (s.blk.mode = .extractor →
        n ≤ 8 + s.cfg.markerLen + t.blk.extLen.toNat + t.blk.payLen.toNat)

/-- 30_encoding.md rules R110, R111: the script line `cmd i` is the write of the command word of `i` to
CTRL; `wr CARRIER_LEN, n` is two writes, which from a READY state set CARRIER_LEN to `n` and nothing else;
`wait` is a repeated read of STATUS, listed once in the encoding (log 23). -/
def Obligations.ScriptLinesAreHostWrites : Prop :=
  (∀ i : Instr, scriptEncoding [.cmd i] = [(0x000, some (encode i))] ∧
    scriptEvents [.cmd i] = [.write 4 0x000 (encode i)]) ∧
  (scriptEncoding [.wait] = [(0x004, none)] ∧ scriptEvents [.wait] = [.poll]) ∧
  (∀ (s : State) (n : DWord), Ready s.blk → s.env.pending = none → s.host.inputs = [] →
    runFor 2 (s.loadScript [.wrCarrierLen n]) =
      .next
        { s with
          blk := { s.blk with carrierLen := n }
          host := { s.host with answers := s.host.answers ++ [.okWrite, .okWrite] } })

/-- 30_encoding.md rules R110, R111, 70_reset_and_hazards.md rule R253: given that every transaction is
answered, the line `wait` ends with BUSY = 0. The host then has received one or more STATUS words: bit 5
of the last reads 0 and it is the STATUS of the final state, bit 5 of every earlier one reads 1. How many
reads there are is the model's choice (log 23), and nothing is said of it. -/
def Obligations.WaitReadsStatusUntilIdle : Prop :=
  ∀ s : State, Inv s → s.host.inputs = [] → AlwaysAnswers s.env →
    ∃ (n : Nat) (t : State) (earlier : List Word),
      runFor n (s.loadScript [.wait]) = .next t ∧ t.host.inputs = [] ∧ t.blk.busy = false ∧
      t.host.answers =
        s.host.answers ++ earlier.map .okRead ++ [.okRead (statusWord t.blk)] ∧
      (statusWord t.blk).getLsbD 5 = false ∧
      (∀ w ∈ earlier, w.getLsbD 5 = true) ∧
      (s.blk.busy = true → earlier ≠ []) ∧ (s.blk.busy = false → t.blk = s.blk ∧ earlier = [])
end

