-- ==== Sys2Proof/Laws/Buf.lean ====
section
/-! SUPPORT. The hidden buffers: every write keeps the canonical form, and read-after-write. -/

namespace Sys2Proof.Machine

theorem bufPut_mem {b : Buf} {i : Nat} {v : Byte} {x : Host.Cell} (h : x ∈ bufPut b i v) :
    x = (i, v) ∨ x ∈ b := by
  induction b with
  | nil => simpa [bufPut] using h
  | cons y r ih =>
    obtain ⟨j, w⟩ := y
    simp only [bufPut] at h
    split at h
    · simpa using h
    · split at h
      · simp only [List.mem_cons] at h ⊢
        tauto
      · simp only [List.mem_cons] at h ⊢
        rcases h with h | h
        · tauto
        · have := ih h
          tauto

/-- Every write keeps the canonical form. -/
theorem bufPut_wf {cap : Nat} {b : Buf} {i : Nat} {v : Byte} (h : Buf.Wf cap b) (hi : i < cap) :
    Buf.Wf cap (bufPut b i v) := by
  refine ⟨?_, fun x hx => ?_⟩
  · obtain ⟨h, -⟩ := h
    induction b with
    | nil => simp [bufPut]
    | cons y r ih =>
      obtain ⟨j, w⟩ := y
      rw [List.pairwise_cons] at h
      obtain ⟨h1, h2⟩ := h
      simp only [bufPut]
      split
      · rename_i hij
        simp only [List.pairwise_cons]
        refine ⟨fun x hx => ?_, h1, h2⟩
        rcases List.mem_cons.1 hx with rfl | hx
        · exact hij
        · exact Nat.lt_trans hij (h1 x hx)
      · split
        · rename_i hij
          subst hij
          exact List.pairwise_cons.2 ⟨h1, h2⟩
        · refine List.pairwise_cons.2 ⟨fun x hx => ?_, ih h2⟩
          rcases bufPut_mem hx with rfl | hx
          · show j < i
            omega
          · exact h1 x hx
  · rcases bufPut_mem hx with rfl | hx
    · exact hi
    · exact h.2 x hx

@[simp] theorem bufGet_bufPut_self (b : Buf) (i : Nat) (v : Byte) :
    bufGet (bufPut b i v) i = some v := by
  induction b with
  | nil => simp [bufPut, bufGet]
  | cons y r ih =>
    obtain ⟨j, w⟩ := y
    simp only [bufPut]
    split
    · simp [bufGet]
    · split
      · simp [bufGet]
      · rename_i h1 h2
        simp [bufGet, h2, ih]

theorem bufGet_bufPut_of_ne (b : Buf) {i j : Nat} (v : Byte) (h : j ≠ i) :
    bufGet (bufPut b i v) j = bufGet b j := by
  induction b with
  | nil => simp [bufPut, bufGet, h]
  | cons y r ih =>
    obtain ⟨k, w⟩ := y
    simp only [bufPut]
    split
    · simp [bufGet, h]
    · split
      · rename_i hik
        subst hik
        simp [bufGet, h]
      · simp only [bufGet, ih]

/-- An empty buffer, as reset leaves it, is in canonical form. -/
theorem buf_nil_wf (cap : Nat) : Buf.Wf cap [] := ⟨List.Pairwise.nil, by simp⟩

end Sys2Proof.Machine
end

