-- ==== Sys2Proof/Laws/Codec.lean ====
section
/-! SUPPORT. What one lane of the four codec functions does (40_bit_codec.md rule R129). -/

namespace Sys2Proof.Machine

@[simp] theorem packByte_length (v : Byte) (c : List Byte) : (packByte v c).length = 8 := by
  simp [packByte]

@[simp] theorem packU32_length (v : Word) (c : List Byte) : (packU32 v c).length = 32 := by
  simp [packU32]

/-- Lane `i` of pack_byte (rule R121). -/
theorem packByte_lane (v : Byte) (c : List Byte) {i : Nat} (h : i < 8) :
    (packByte v c)[i]? = some ((c.getD i 0#8 &&& 0xFE#8) ||| ((v >>> (7 - i)) &&& 1#8)) := by
  simp [packByte, h]

/-- Lane `i` of pack_u32 (rule R122). -/
theorem packU32_lane (v : Word) (c : List Byte) {i : Nat} (h : i < 32) :
    (packU32 v c)[i]? =
      some ((c.getD i 0#8 &&& 0xFE#8) ||| ((v >>> (31 - i)) &&& 1#32).setWidth 8) := by
  simp [packU32, h]

/-- Bit `7 - i` of unpack_byte is bit 0 of lane `i` (rule R123). -/
theorem unpackByte_bit (c : List Byte) {i : Nat} (h : i < 8) :
    (unpackByte c).getLsbD (7 - i) = (c.getD i 0#8).getLsbD 0 := by
  have h8 : List.range 8 = [0, 1, 2, 3, 4, 5, 6, 7] := by decide
  unfold unpackByte
  rw [h8]
  simp only [List.foldl_cons, List.foldl_nil]
  interval_cases i <;> simp

/-- Bit `31 - i` of unpack_u32 is bit 0 of lane `i` (rule R124). -/
theorem unpackU32_bit (c : List Byte) {i : Nat} (h : i < 32) :
    (unpackU32 c).getLsbD (31 - i) = (c.getD i 0#8).getLsbD 0 := by
  have key : ∀ n : Nat, n ≤ 32 → ∀ i, i < 32 →
      ((List.range n).foldl
        (fun v i => v ||| (((c.getD i 0#8 &&& 1#8).setWidth 32) <<< (31 - i))) 0#32).getLsbD (31 - i)
        = (decide (i < n) && (c.getD i 0#8).getLsbD 0) := by
    intro n
    induction n with
    | zero => simp
    | succ n ih =>
      intro hn i hi
      rw [List.range_succ, List.foldl_append]
      simp only [List.foldl_cons, List.foldl_nil, BitVec.getLsbD_or]
      rw [ih (by omega) i hi]
      simp only [BitVec.getLsbD_shiftLeft, BitVec.getLsbD_setWidth, BitVec.getLsbD_and,
        BitVec.getLsbD_one]
      by_cases h1 : i = n
      · subst h1
        simp
        omega
      · by_cases h2 : i < n
        · have h3 : ¬(31 - i - (31 - n) = 0) := by omega
          have h4 : i < n + 1 := by omega
          simp [h2, h3, h4]
        · have h3 : 31 - i < 31 - n := by omega
          have h4 : ¬ i < n + 1 := by omega
          simp [h2, h3, h4]
  have := key 32 (by omega) i h
  simpa [unpackU32, h] using this

/-- Bit `k` of lane `i` of pack_byte: bit 0 comes from the value, the others from the carrier (rule R129). -/
theorem packByte_bit (v : Byte) (c : List Byte) {i k : Nat} (h : i < 8) :
    ((packByte v c).getD i 0).getLsbD k =
      if k = 0 then v.getLsbD (7 - i) else (c.getD i 0).getLsbD k := by
  rw [List.getD_eq_getElem?_getD, packByte_lane v c h]
  simp only [Option.getD_some, BitVec.getLsbD_or, BitVec.getLsbD_and, BitVec.getLsbD_ushiftRight,
    BitVec.getLsbD_one]
  by_cases hk : k = 0
  · subst hk
    simp
  · simp only [hk, decide_false, Bool.and_false, Bool.or_false, if_false]
    by_cases h8 : k < 8
    · have : (0xFE#8).getLsbD k = true := by interval_cases k <;> simp_all
      simp [this]
    · simp [BitVec.getLsbD_of_ge, (by omega : 8 ≤ k)]

/-- Bit `k` of lane `i` of pack_u32 (rule R129). -/
theorem packU32_bit (v : Word) (c : List Byte) {i k : Nat} (h : i < 32) :
    ((packU32 v c).getD i 0).getLsbD k =
      if k = 0 then v.getLsbD (31 - i) else (c.getD i 0).getLsbD k := by
  rw [List.getD_eq_getElem?_getD, packU32_lane v c h]
  simp only [Option.getD_some, BitVec.getLsbD_or, BitVec.getLsbD_and, BitVec.getLsbD_ushiftRight,
    BitVec.getLsbD_one, BitVec.getLsbD_setWidth]
  by_cases hk : k = 0
  · subst hk
    simp
  · simp only [hk, decide_false, Bool.and_false, Bool.or_false, if_false]
    by_cases h8 : k < 8
    · have : (0xFE#8).getLsbD k = true := by interval_cases k <;> simp_all
      simp [this]
    · simp [BitVec.getLsbD_of_ge, (by omega : 8 ≤ k)]

end Sys2Proof.Machine
end

