-- ==== Sys2Proof/Laws/Config.lean ====
section
/-! SUPPORT. The configuration after State.reset is a legal one, whatever its open parameters are
(00_scope.md rules R8 to R11). -/

namespace Sys2Proof

theorem Config.installed_wf : Config.installed.Wf := by
  refine ⟨by decide, ?_, ?_, ?_, Config.openPayBufCap.isLt⟩
  · simp [Config.installed]
  · intro b hb
    simp only [Config.installed, List.mem_map] at hb
    obtain ⟨a, -, rfl⟩ := hb
    simp only [BitVec.toNat_ofNat]
    omega
  · simp [Config.installed]

end Sys2Proof
end

