-- ==== Sys2Proof/Laws/State.lean ====
section
/-! SUPPORT. One lemma per field and update operation, true by rfl, so that no proof unfolds a record
update. -/

namespace Sys2Proof.Machine

@[simp] theorem State.onBlk_cfg (f : Block → Block) (s : State) : (s.onBlk f).cfg = s.cfg := rfl
@[simp] theorem State.onBlk_blk (f : Block → Block) (s : State) : (s.onBlk f).blk = f s.blk := rfl
@[simp] theorem State.onBlk_env (f : Block → Block) (s : State) : (s.onBlk f).env = s.env := rfl
@[simp] theorem State.onBlk_host (f : Block → Block) (s : State) : (s.onBlk f).host = s.host := rfl
@[simp] theorem State.onBlk_free (f : Block → Block) (s : State) : (s.onBlk f).free = s.free := rfl

@[simp] theorem State.onEnv_cfg (f : Env → Env) (s : State) : (s.onEnv f).cfg = s.cfg := rfl
@[simp] theorem State.onEnv_blk (f : Env → Env) (s : State) : (s.onEnv f).blk = s.blk := rfl
@[simp] theorem State.onEnv_env (f : Env → Env) (s : State) : (s.onEnv f).env = f s.env := rfl
@[simp] theorem State.onEnv_host (f : Env → Env) (s : State) : (s.onEnv f).host = s.host := rfl
@[simp] theorem State.onEnv_free (f : Env → Env) (s : State) : (s.onEnv f).free = s.free := rfl

@[simp] theorem State.useFree_cfg (s : State) : (s.useFree).cfg = s.cfg := rfl
@[simp] theorem State.useFree_blk (s : State) : (s.useFree).blk = s.blk := rfl
@[simp] theorem State.useFree_env (s : State) : (s.useFree).env = s.env := rfl
@[simp] theorem State.useFree_host (s : State) : (s.useFree).host = s.host := rfl
@[simp] theorem State.useFree_free (s : State) : (s.useFree).free = s.free + 1 := rfl

@[simp] theorem State.answer_cfg (a : HostAnswer) (s : State) : (s.answer a).cfg = s.cfg := rfl
@[simp] theorem State.answer_blk (a : HostAnswer) (s : State) : (s.answer a).blk = s.blk := rfl
@[simp] theorem State.answer_env (a : HostAnswer) (s : State) : (s.answer a).env = s.env := rfl
@[simp] theorem State.answer_host (a : HostAnswer) (s : State) : (s.answer a).host = { s.host with answers := s.host.answers ++ [a] } := rfl
@[simp] theorem State.answer_free (a : HostAnswer) (s : State) : (s.answer a).free = s.free := rfl

@[simp] theorem State.setInputs_cfg (es : List HostEvent) (s : State) : (s.setInputs es).cfg = s.cfg := rfl
@[simp] theorem State.setInputs_blk (es : List HostEvent) (s : State) : (s.setInputs es).blk = s.blk := rfl
@[simp] theorem State.setInputs_env (es : List HostEvent) (s : State) : (s.setInputs es).env = s.env := rfl
@[simp] theorem State.setInputs_host (es : List HostEvent) (s : State) : (s.setInputs es).host = { s.host with inputs := es } := rfl
@[simp] theorem State.setInputs_free (es : List HostEvent) (s : State) : (s.setInputs es).free = s.free := rfl

@[simp] theorem failWith_cfg (k : FailKind) (s : State) : (failWith k s).cfg = s.cfg := rfl
@[simp] theorem failWith_blk (k : FailKind) (s : State) : (failWith k s).blk = { s.blk with fail := true, err := some k, busy := false } := rfl
@[simp] theorem failWith_env (k : FailKind) (s : State) : (failWith k s).env = s.env := rfl
@[simp] theorem failWith_host (k : FailKind) (s : State) : (failWith k s).host = s.host := rfl
@[simp] theorem failWith_free (k : FailKind) (s : State) : (failWith k s).free = s.free := rfl

@[simp] theorem advanceTo_cfg (p : Phase) (s : State) : (advanceTo p s).cfg = s.cfg := rfl
@[simp] theorem advanceTo_blk (p : Phase) (s : State) : (advanceTo p s).blk = { s.blk with phase := p, idx := 0 } := rfl
@[simp] theorem advanceTo_env (p : Phase) (s : State) : (advanceTo p s).env = s.env := rfl
@[simp] theorem advanceTo_host (p : Phase) (s : State) : (advanceTo p s).host = s.host := rfl
@[simp] theorem advanceTo_free (p : Phase) (s : State) : (advanceTo p s).free = s.free := rfl

@[simp] theorem movedIn_cfg (n : Nat) (s : State) : (movedIn n s).cfg = s.cfg := rfl
@[simp] theorem movedIn_blk (n : Nat) (s : State) : (movedIn n s).blk = { s.blk with curIn := s.blk.curIn + BitVec.ofNat 64 n } := rfl
@[simp] theorem movedIn_env (n : Nat) (s : State) : (movedIn n s).env = s.env := rfl
@[simp] theorem movedIn_host (n : Nat) (s : State) : (movedIn n s).host = s.host := rfl
@[simp] theorem movedIn_free (n : Nat) (s : State) : (movedIn n s).free = s.free := rfl

@[simp] theorem movedBoth_cfg (n : Nat) (s : State) : (movedBoth n s).cfg = s.cfg := rfl
@[simp] theorem movedBoth_blk (n : Nat) (s : State) : (movedBoth n s).blk =
    { s.blk with
      curIn := s.blk.curIn + BitVec.ofNat 64 n, curOut := s.blk.curOut + BitVec.ofNat 64 n } := rfl
@[simp] theorem movedBoth_env (n : Nat) (s : State) : (movedBoth n s).env = s.env := rfl
@[simp] theorem movedBoth_host (n : Nat) (s : State) : (movedBoth n s).host = s.host := rfl
@[simp] theorem movedBoth_free (n : Nat) (s : State) : (movedBoth n s).free = s.free := rfl

@[simp] theorem nextIdx_cfg (s : State) : (nextIdx s).cfg = s.cfg := rfl
@[simp] theorem nextIdx_blk (s : State) : (nextIdx s).blk = { s.blk with idx := s.blk.idx + 1 } := rfl
@[simp] theorem nextIdx_env (s : State) : (nextIdx s).env = s.env := rfl
@[simp] theorem nextIdx_host (s : State) : (nextIdx s).host = s.host := rfl
@[simp] theorem nextIdx_free (s : State) : (nextIdx s).free = s.free := rfl

@[simp] theorem finishRun_cfg (s : State) : (finishRun s).cfg = s.cfg := rfl
@[simp] theorem finishRun_blk (s : State) : (finishRun s).blk = { s.blk with phase := .done, done := true, busy := false } := rfl
@[simp] theorem finishRun_env (s : State) : (finishRun s).env = s.env := rfl
@[simp] theorem finishRun_host (s : State) : (finishRun s).host = s.host := rfl
@[simp] theorem finishRun_free (s : State) : (finishRun s).free = s.free := rfl

@[simp] theorem putMbuf_cfg (v : Byte) (s : State) : (putMbuf v s).cfg = s.cfg := rfl
@[simp] theorem putMbuf_blk (v : Byte) (s : State) : (putMbuf v s).blk = { s.blk with mbuf := bufPut s.blk.mbuf s.blk.idx.toNat v } := rfl
@[simp] theorem putMbuf_env (v : Byte) (s : State) : (putMbuf v s).env = s.env := rfl
@[simp] theorem putMbuf_host (v : Byte) (s : State) : (putMbuf v s).host = s.host := rfl
@[simp] theorem putMbuf_free (v : Byte) (s : State) : (putMbuf v s).free = s.free := rfl

@[simp] theorem putPbuf_cfg (v : Byte) (s : State) : (putPbuf v s).cfg = s.cfg := rfl
@[simp] theorem putPbuf_blk (v : Byte) (s : State) : (putPbuf v s).blk = { s.blk with pbuf := bufPut s.blk.pbuf s.blk.idx.toNat v } := rfl
@[simp] theorem putPbuf_env (v : Byte) (s : State) : (putPbuf v s).env = s.env := rfl
@[simp] theorem putPbuf_host (v : Byte) (s : State) : (putPbuf v s).host = s.host := rfl
@[simp] theorem putPbuf_free (v : Byte) (s : State) : (putPbuf v s).free = s.free := rfl

@[simp] theorem resetBlock_cfg (s : State) : (resetBlock s).cfg = s.cfg := rfl
@[simp] theorem resetBlock_blk (s : State) : (resetBlock s).blk = Block.reset s.cfg := rfl
@[simp] theorem resetBlock_env (s : State) : (resetBlock s).env = { s.env with pending := none } := rfl
@[simp] theorem resetBlock_host (s : State) : (resetBlock s).host = s.host := rfl
@[simp] theorem resetBlock_free (s : State) : (resetBlock s).free = s.free + 1 := rfl

@[simp] theorem newHistory_cfg (s : State) : (newHistory s).cfg = s.cfg := rfl
@[simp] theorem newHistory_blk (s : State) : (newHistory s).blk = s.blk := rfl
@[simp] theorem newHistory_env (s : State) : (newHistory s).env = { s.env with history := [] } := rfl
@[simp] theorem newHistory_host (s : State) : (newHistory s).host = s.host := rfl
@[simp] theorem newHistory_free (s : State) : (newHistory s).free = s.free := rfl

/-- Placing the queue back undoes taking its head away. -/
@[simp] theorem State.setInputs_inputs (s : State) : s.setInputs s.host.inputs = s := rfl
@[simp] theorem State.setInputs_setInputs (es fs : List HostEvent) (s : State) :
    (s.setInputs es).setInputs fs = s.setInputs fs := rfl

end Sys2Proof.Machine
end

