-- ==== Sys2Proof/Laws/Streams.lean ====
section
/-! SUPPORT. One lemma for each stream operation that says everything it can do. A transaction changes
`env` and `free` only; so a later proof cites these and never unfolds `streamRead` or `streamWrite`. -/

namespace Sys2Proof.Machine

/-- `t` differs from `s` in the environment and the counter of free values only. -/
abbrev EnvOnly (s t : State) : Prop := t.cfg = s.cfg ∧ t.blk = s.blk ∧ t.host = s.host

@[simp] theorem Env.setSource_pending (e : Env) (p : InPort) (x : Source) :
    (e.setSource p x).pending = e.pending := by cases p <;> rfl
@[simp] theorem Env.setSource_plan (e : Env) (p : InPort) (x : Source) :
    (e.setSource p x).plan = e.plan := by cases p <;> rfl
@[simp] theorem Env.setSource_history (e : Env) (p : InPort) (x : Source) :
    (e.setSource p x).history = e.history := by cases p <;> rfl
@[simp] theorem Env.setSource_sink (e : Env) (p : InPort) (x : Source) (q : OutPort) :
    (e.setSource p x).sink q = e.sink q := by cases p <;> cases q <;> rfl
@[simp] theorem Env.setSource_source_self (e : Env) (p : InPort) (x : Source) :
    (e.setSource p x).source p = x := by cases p <;> rfl
@[simp] theorem Env.setSource_cin_pin (e : Env) (x : Source) :
    (e.setSource .cin x).source .pin = e.source .pin := rfl
@[simp] theorem Env.setSource_pin_cin (e : Env) (x : Source) :
    (e.setSource .pin x).source .cin = e.source .cin := rfl
@[simp] theorem Env.setSink_pending (e : Env) (p : OutPort) (x : List Byte) :
    (e.setSink p x).pending = e.pending := by cases p <;> rfl
@[simp] theorem Env.setSink_plan (e : Env) (p : OutPort) (x : List Byte) :
    (e.setSink p x).plan = e.plan := by cases p <;> rfl
@[simp] theorem Env.setSink_history (e : Env) (p : OutPort) (x : List Byte) :
    (e.setSink p x).history = e.history := by cases p <;> rfl
@[simp] theorem Env.setSink_source (e : Env) (p : OutPort) (x : List Byte) (q : InPort) :
    (e.setSink p x).source q = e.source q := by cases p <;> cases q <;> rfl
@[simp] theorem Env.setSink_sink_self (e : Env) (p : OutPort) (x : List Byte) :
    (e.setSink p x).sink p = x := by cases p <;> rfl
@[simp] theorem Env.setSink_sout_pout (e : Env) (x : List Byte) :
    (e.setSink .sout x).sink .pout = e.sink .pout := rfl
@[simp] theorem Env.setSink_pout_sout (e : Env) (x : List Byte) :
    (e.setSink .pout x).sink .sout = e.sink .sout := rfl
@[simp] theorem Env.popReply_pending (e : Env) : e.popReply.pending = e.pending := rfl
@[simp] theorem Env.popReply_plan (e : Env) : e.popReply.plan = e.plan.tail := rfl
@[simp] theorem Env.popReply_history (e : Env) : e.popReply.history = e.history := rfl
@[simp] theorem Env.popReply_source (e : Env) (p : InPort) : e.popReply.source p = e.source p := by
  cases p <;> rfl
@[simp] theorem Env.popReply_sink (e : Env) (p : OutPort) : e.popReply.sink p = e.sink p := by
  cases p <;> rfl
@[simp] theorem Env.record_pending (t : Transaction) (e : Env) : (e.record t).pending = e.pending :=
  rfl
@[simp] theorem Env.record_plan (t : Transaction) (e : Env) : (e.record t).plan = e.plan := rfl
@[simp] theorem Env.record_history (t : Transaction) (e : Env) :
    (e.record t).history = e.history ++ [t] := rfl
@[simp] theorem Env.record_source (t : Transaction) (e : Env) (p : InPort) :
    (e.record t).source p = e.source p := by cases p <;> rfl
@[simp] theorem Env.record_sink (t : Transaction) (e : Env) (p : OutPort) :
    (e.record t).sink p = e.sink p := by cases p <;> rfl

@[simp] theorem Env.unsettled_pending (r : Request) (n : Nat) (e : Env) :
    (e.unsettled r n).pending = e.pending := by cases r <;> simp [Env.unsettled]
@[simp] theorem Env.unsettled_plan (r : Request) (n : Nat) (e : Env) :
    (e.unsettled r n).plan = e.plan := by cases r <;> simp [Env.unsettled]
@[simp] theorem Env.unsettled_history (r : Request) (n : Nat) (e : Env) :
    (e.unsettled r n).history = e.history := by cases r <;> simp [Env.unsettled]
@[simp] theorem Env.unsettled_read_sink (p : InPort) (k n : Nat) (e : Env) (q : OutPort) :
    (e.unsettled (.read p k) n).sink q = e.sink q := by simp [Env.unsettled]
@[simp] theorem Env.unsettled_write_source (p : OutPort) (bs : List Byte) (n : Nat) (e : Env)
    (q : InPort) : (e.unsettled (.write p bs) n).source q = e.source q := by simp [Env.unsettled]

/-- A well-behaved environment answers the next transaction `Ok` (20_memory.md rule R74). -/
theorem nextReply_of_ok {e : Env} (h : ∀ r ∈ e.plan, r = Reply.ok) : e.nextReply = .ok := by
  unfold Env.nextReply
  cases hp : e.plan with
  | nil => rfl
  | cons r rs => exact h r (by simp [hp])

/-- The rest of a well-behaved environment's answers are `Ok` too. -/
theorem plan_tail_ok {l : List Reply} (h : ∀ r ∈ l, r = Reply.ok) : ∀ r ∈ l.tail, r = Reply.ok :=
  fun r hr => h r (List.mem_of_mem_tail hr)

@[simp] theorem readEnv_plan (p : InPort) (n : Nat) (e : Env) :
    (readEnv p n e).plan = e.plan.tail := by simp [readEnv]
@[simp] theorem readEnv_pending (p : InPort) (n : Nat) (e : Env) :
    (readEnv p n e).pending = e.pending := by simp [readEnv]
@[simp] theorem readEnv_sink (p : InPort) (n : Nat) (e : Env) (q : OutPort) :
    (readEnv p n e).sink q = e.sink q := by simp [readEnv]
@[simp] theorem readEnv_source_self (p : InPort) (n : Nat) (e : Env) :
    (readEnv p n e).source p =
      { content := (e.source p).content, pos := (e.source p).pos + n } := by simp [readEnv]
@[simp] theorem readEnv_cin_pin (n : Nat) (e : Env) :
    (readEnv .cin n e).source .pin = e.source .pin := by simp [readEnv]
@[simp] theorem readEnv_pin_cin (n : Nat) (e : Env) :
    (readEnv .pin n e).source .cin = e.source .cin := by simp [readEnv]
@[simp] theorem readEnv_history (p : InPort) (n : Nat) (e : Env) :
    (readEnv p n e).history =
      e.history ++ [.readOk p n (((e.source p).content.drop (e.source p).pos).take n)] := by
  simp [readEnv]
@[simp] theorem writeEnv_plan (p : OutPort) (bs : List Byte) (e : Env) :
    (writeEnv p bs e).plan = e.plan.tail := by simp [writeEnv]
@[simp] theorem writeEnv_pending (p : OutPort) (bs : List Byte) (e : Env) :
    (writeEnv p bs e).pending = e.pending := by simp [writeEnv]
@[simp] theorem writeEnv_source (p : OutPort) (bs : List Byte) (e : Env) (q : InPort) :
    (writeEnv p bs e).source q = e.source q := by simp [writeEnv]
@[simp] theorem writeEnv_sink_self (p : OutPort) (bs : List Byte) (e : Env) :
    (writeEnv p bs e).sink p = e.sink p ++ bs := by simp [writeEnv]
@[simp] theorem writeEnv_sout_pout (bs : List Byte) (e : Env) :
    (writeEnv .sout bs e).sink .pout = e.sink .pout := by simp [writeEnv]
@[simp] theorem writeEnv_pout_sout (bs : List Byte) (e : Env) :
    (writeEnv .pout bs e).sink .sout = e.sink .sout := by simp [writeEnv]
@[simp] theorem writeEnv_history (p : OutPort) (bs : List Byte) (e : Env) :
    (writeEnv p bs e).history = e.history ++ [.writeOk p bs] := by simp [writeEnv]

/-- A read that the environment grants and whose bytes are there goes on with exactly those bytes
(rules R71, R74). -/
theorem readElseFail_ok {p : InPort} {n : Nat} {s : State} {k : List Byte → State → Result}
    (h : s.env.nextReply = .ok) (hn : (s.env.source p).pos + n ≤ (s.env.source p).content.length) :
    readElseFail p n s k =
      k (((s.env.source p).content.drop (s.env.source p).pos).take n) (s.onEnv (readEnv p n)) := by
  simp only [readElseFail, streamRead, h]
  rw [if_pos hn]

/-- A read that the environment grants but whose bytes are not all there fails (rules R71, R74). -/
theorem readElseFail_short {p : InPort} {n : Nat} {s : State} {k : List Byte → State → Result}
    (h : s.env.nextReply = .ok) (hn : ¬(s.env.source p).pos + n ≤ (s.env.source p).content.length) :
    readElseFail p n s k = .next (failWith .ioError (failedRead p n s)) := by
  simp only [readElseFail, streamRead, h]
  rw [if_neg hn]

/-- A write that the environment grants goes on (rule R72). -/
theorem writeElseFail_ok {p : OutPort} {bs : List Byte} {s : State} {k : State → Result}
    (h : s.env.nextReply = .ok) :
    writeElseFail p bs s k = k (s.onEnv (writeEnv p bs)) := by
  simp only [writeElseFail, streamWrite, h]

/-- What is decided about the next transaction, as an entry of the plan (rule R70). -/
theorem nextReply_eq (e : Env) : e.nextReply = e.plan.getD 0 .ok := by
  unfold Env.nextReply
  cases e.plan <;> rfl

/-- A read that the environment fails (rule R71). -/
theorem readElseFail_fail {p : InPort} {n : Nat} {s : State} {k : List Byte → State → Result}
    (h : s.env.nextReply = .fail) :
    readElseFail p n s k = .next (failWith .ioError (failedRead p n s)) := by
  simp only [readElseFail, streamRead, h]

/-- A write that the environment fails (rule R72). -/
theorem writeElseFail_fail {p : OutPort} {bs : List Byte} {s : State} {k : State → Result}
    (h : s.env.nextReply = .fail) :
    writeElseFail p bs s k = .next (failWith .ioError (failedWrite p bs s)) := by
  simp only [writeElseFail, streamWrite, h]

/-- Everything a read at the head of a step can lead to: the rest of the step on exactly `n` bytes, an
IOError, or the wait that never ends. -/
theorem readElseFail_cases (p : InPort) (n : Nat) (s : State) (k : List Byte → State → Result) :
    (s.env.nextReply = .ok ∧ (s.env.source p).pos + n ≤ (s.env.source p).content.length ∧
      readElseFail p n s k =
        k (((s.env.source p).content.drop (s.env.source p).pos).take n) (s.onEnv (readEnv p n))) ∨
    readElseFail p n s k = .next (failWith .ioError (failedRead p n s)) ∨
    (s.env.nextReply = .never ∧
      readElseFail p n s k = .next (waitForever (.read p n) s)) := by
  cases h : s.env.nextReply with
  | ok =>
    by_cases hn : (s.env.source p).pos + n ≤ (s.env.source p).content.length
    · exact .inl ⟨rfl, hn, readElseFail_ok h hn⟩
    · exact .inr (.inl (readElseFail_short h hn))
  | fail => exact .inr (.inl (by simp only [readElseFail, streamRead, h]))
  | never => exact .inr (.inr ⟨rfl, by simp only [readElseFail, streamRead, h]⟩)

/-- Everything a write can lead to: the rest of the step, an IOError, or the wait that never ends. -/
theorem writeElseFail_cases (p : OutPort) (bs : List Byte) (s : State) (k : State → Result) :
    (s.env.nextReply = .ok ∧ writeElseFail p bs s k = k (s.onEnv (writeEnv p bs))) ∨
    (s.env.nextReply = .fail ∧
      writeElseFail p bs s k = .next (failWith .ioError (failedWrite p bs s))) ∨
    (s.env.nextReply = .never ∧
      writeElseFail p bs s k = .next (waitForever (.write p bs) s)) := by
  cases h : s.env.nextReply with
  | ok => exact .inl ⟨rfl, writeElseFail_ok h⟩
  | fail => exact .inr (.inl ⟨rfl, by simp only [writeElseFail, streamWrite, h]⟩)
  | never => exact .inr (.inr ⟨rfl, by simp only [writeElseFail, streamWrite, h]⟩)

@[simp] theorem failedRead_cfg (p : InPort) (n : Nat) (s : State) :
    (failedRead p n s).cfg = s.cfg := rfl
@[simp] theorem failedRead_blk (p : InPort) (n : Nat) (s : State) :
    (failedRead p n s).blk = s.blk := rfl
@[simp] theorem failedRead_host (p : InPort) (n : Nat) (s : State) :
    (failedRead p n s).host = s.host := rfl
@[simp] theorem failedRead_pending (p : InPort) (n : Nat) (s : State) :
    (failedRead p n s).env.pending = s.env.pending := by simp [failedRead]
@[simp] theorem failedRead_sink (p : InPort) (n : Nat) (s : State) (q : OutPort) :
    (failedRead p n s).env.sink q = s.env.sink q := by simp [failedRead]
@[simp] theorem failedWrite_cfg (p : OutPort) (bs : List Byte) (s : State) :
    (failedWrite p bs s).cfg = s.cfg := rfl
@[simp] theorem failedWrite_blk (p : OutPort) (bs : List Byte) (s : State) :
    (failedWrite p bs s).blk = s.blk := rfl
@[simp] theorem failedWrite_host (p : OutPort) (bs : List Byte) (s : State) :
    (failedWrite p bs s).host = s.host := rfl
@[simp] theorem failedWrite_pending (p : OutPort) (bs : List Byte) (s : State) :
    (failedWrite p bs s).env.pending = s.env.pending := by simp [failedWrite]
@[simp] theorem waitForever_cfg (r : Request) (s : State) : (waitForever r s).cfg = s.cfg := rfl
@[simp] theorem waitForever_blk (r : Request) (s : State) : (waitForever r s).blk = s.blk := rfl
@[simp] theorem waitForever_host (r : Request) (s : State) : (waitForever r s).host = s.host := rfl
@[simp] theorem waitForever_history (r : Request) (s : State) :
    (waitForever r s).env.history = s.env.history := by simp [waitForever]
@[simp] theorem waitForever_pending (r : Request) (s : State) :
    (waitForever r s).env.pending = some r := rfl

end Sys2Proof.Machine
end

