-- ==== Sys2Proof/Laws/Sequencer.lean ====
section
/-! SUPPORT. What a sequencer step can do, said once (41_embedder.md rule R161, 42_extractor.md rule
R184): it leaves the configuration and the host's side alone, and the block either waits, or fails with
IOError and nothing else, or makes one of the moves the step rules name. -/

namespace Sys2Proof.Machine

/-- Failure entry on the block (60_exceptions.md rule R216). -/
abbrev Block.failed (k : FailKind) (b : Block) : Block :=
  { b with fail := true, err := some k, busy := false }

/-- `t` is `s` after a step whose block either stands still (a transaction is unanswered), or enters
failure with IOError (not at PHASE 7, whose step issues no transaction), or makes a move that `M`
admits. -/
def Stepped (s t : State) (M : Block → Prop) : Prop :=
  t.cfg = s.cfg ∧ t.host = s.host ∧
  ((t.env.pending.isSome = true ∧ t.blk = s.blk) ∨
   (t.env.pending = s.env.pending ∧ s.blk.phase ≠ .output ∧ t.blk = s.blk.failed .ioError) ∨
   (t.env.pending = s.env.pending ∧ M t.blk))

theorem Stepped.of_read {p : InPort} {n : Nat} {s t : State} {k : List Byte → State → Result}
    {M : Block → Prop} (hq : s.blk.phase ≠ .output) (h : readElseFail p n s k = .next t)
    (hk : ∀ bytes s1, s1.cfg = s.cfg → s1.blk = s.blk → s1.host = s.host →
      s1.env.pending = s.env.pending → k bytes s1 = .next t → Stepped s1 t M) :
    Stepped s t M := by
  rcases readElseFail_cases p n s k with ⟨-, -, h1⟩ | h1 | ⟨-, h1⟩
  · rw [h1] at h
    obtain ⟨h2, h3, h4⟩ := hk _ (s.onEnv (readEnv p n)) rfl rfl rfl (by simp) h
    exact ⟨h2, h3, by simpa using h4⟩
  · rw [h1] at h
    cases h
    exact ⟨rfl, rfl, .inr (.inl ⟨by simp, hq, rfl⟩)⟩
  · rw [h1] at h
    cases h
    exact ⟨rfl, rfl, .inl ⟨by simp, rfl⟩⟩

theorem Stepped.of_write {p : OutPort} {bs : List Byte} {s t : State} {k : State → Result}
    {M : Block → Prop} (hq : s.blk.phase ≠ .output) (h : writeElseFail p bs s k = .next t)
    (hk : ∀ s1, s1.cfg = s.cfg → s1.blk = s.blk → s1.host = s.host →
      s1.env.pending = s.env.pending → k s1 = .next t → Stepped s1 t M) :
    Stepped s t M := by
  rcases writeElseFail_cases p bs s k with ⟨-, h1⟩ | ⟨-, h1⟩ | ⟨-, h1⟩
  · rw [h1] at h
    obtain ⟨h2, h3, h4⟩ := hk (s.onEnv (writeEnv p bs)) rfl rfl rfl (by simp) h
    exact ⟨h2, h3, by simpa using h4⟩
  · rw [h1] at h
    cases h
    exact ⟨rfl, rfl, .inr (.inl ⟨by simp, hq, rfl⟩)⟩
  · rw [h1] at h
    cases h
    exact ⟨rfl, rfl, .inl ⟨by simp, rfl⟩⟩

/-- A step that changes the block alone. -/
theorem Stepped.of_next {s t u : State} {M : Block → Prop} (h : (Host.Outcome.next u : Result) = .next t)
    (hc : u.cfg = s.cfg) (hh : u.host = s.host) (hp : u.env.pending = s.env.pending)
    (hm : M u.blk) : Stepped s t M := by
  cases h
  exact ⟨hc, hh, .inr (.inr ⟨hp, hm⟩)⟩

theorem Stepped.mono {s t : State} {M N : Block → Prop} (h : Stepped s t M) (hmn : ∀ b, M b → N b) :
    Stepped s t N :=
  ⟨h.1, h.2.1, h.2.2.imp id (Or.imp id fun h => ⟨h.1, hmn _ h.2⟩)⟩

/-- Both cursors move by `n` (10_state.md rule R32). -/
abbrev Block.movedBoth (n : Nat) (b : Block) : Block :=
  { b with curIn := b.curIn + BitVec.ofNat 64 n, curOut := b.curOut + BitVec.ofNat 64 n }

/-- CUR_IN moves by `n` (rule R32). -/
abbrev Block.movedIn (n : Nat) (b : Block) : Block :=
  { b with curIn := b.curIn + BitVec.ofNat 64 n }

/-- A milestone is reached (rules R30, R31). -/
abbrev Block.at (p : Phase) (b : Block) : Block := { b with phase := p, idx := 0 }

/-- One field byte is done (rule R31). -/
abbrev Block.nextIdx (b : Block) : Block := { b with idx := b.idx + 1 }

/-- The run ends in success (rules R160, R194). -/
abbrev Block.finished (b : Block) : Block := { b with phase := .done, done := true, busy := false }

/-- The moves of the Embedder (41_embedder.md rules R153 to R161). -/
inductive EmbedMove (c : Config) (b : Block) : Block → Prop where
  | header (h : b.phase = .idle) : EmbedMove c b ((b.movedBoth c.headerSize).at .header)
  | markerByte (h : b.phase = .header) (hi : b.idx.toNat < c.markerLen) :
      EmbedMove c b (b.movedBoth 8).nextIdx
  | markerEnd (h : b.phase = .header) (hi : c.markerLen ≤ b.idx.toNat) :
      EmbedMove c b (b.at .marker)
  | extLen (h : b.phase = .marker) : EmbedMove c b ((b.movedBoth 32).at .extLen)
  | extByte (h : b.phase = .extLen) (hi : b.idx.toNat < b.extLen.toNat) :
      EmbedMove c b (b.movedBoth 8).nextIdx
  | extEnd (h : b.phase = .extLen) (hi : b.extLen.toNat ≤ b.idx.toNat) : EmbedMove c b (b.at .ext)
  | payLen (h : b.phase = .ext) : EmbedMove c b ((b.movedBoth 32).at .payLen)
  | payByte (h : b.phase = .payLen) (hi : b.idx.toNat < b.payLen.toNat) :
      EmbedMove c b (b.movedBoth 8).nextIdx
  | payEnd (h : b.phase = .payLen) (hi : b.payLen.toNat ≤ b.idx.toNat) :
      EmbedMove c b (b.at .payload)
  | tailByte (h : b.phase = .payload) (hi : b.curIn.toNat < b.carrierLen.toNat) :
      EmbedMove c b (b.movedBoth 1)
  | tailEnd (h : b.phase = .payload) (hi : b.carrierLen.toNat ≤ b.curIn.toNat) :
      EmbedMove c b (b.at .output)
  | finish (h : b.phase = .output) : EmbedMove c b b.finished

theorem embedByte_stepped {v : Byte} {s t : State} (hq : s.blk.phase ≠ .output)
    (h : embedByte v s = .next t) :
    Stepped s t (fun b => b = (s.blk.movedBoth 8).nextIdx) := by
  refine Stepped.of_read hq h fun c s1 _ hb _ _ h => ?_
  refine Stepped.of_write (hb ▸ hq) h fun s2 _ hb2 _ _ h => ?_
  exact Stepped.of_next h rfl rfl rfl (by simp [hb2, hb])

theorem embedLength_stepped {v : Word} {p : Phase} {s t : State} (hq : s.blk.phase ≠ .output)
    (h : embedLength v p s = .next t) :
    Stepped s t (fun b => b = (s.blk.movedBoth 32).at p) := by
  refine Stepped.of_read hq h fun c s1 _ hb _ _ h => ?_
  refine Stepped.of_write (hb ▸ hq) h fun s2 _ hb2 _ _ h => ?_
  exact Stepped.of_next h rfl rfl rfl (by simp [hb2, hb])

/-- What a step of the Embedder can do. -/
theorem embedStep_stepped {s t : State} (h : embedStep s = .next t) :
    Stepped s t (EmbedMove s.cfg s.blk) := by
  unfold embedStep at h
  split at h
  · rename_i hp
    have hq : s.blk.phase ≠ .output := by simp [hp]
    refine Stepped.of_read hq h fun c s1 hc hb _ _ h => ?_
    refine Stepped.of_write (hb ▸ hq) h fun s2 hc2 hb2 _ _ h => ?_
    rw [← hc, ← hc2]
    rw [← hb, ← hb2] at hp ⊢
    exact Stepped.of_next h rfl rfl rfl (.header hp)
  · rename_i hp
    have hq : s.blk.phase ≠ .output := by simp [hp]
    unfold embedMarker at h
    split at h
    · rename_i m hm
      exact (embedByte_stepped hq h).mono fun b hb =>
        hb ▸ .markerByte hp (List.getElem?_eq_some_iff.1 hm).1
    · rename_i hm
      exact Stepped.of_next h rfl rfl rfl (.markerEnd hp (by simpa using hm))
  · rename_i hp
    have hq : s.blk.phase ≠ .output := by simp [hp]
    exact (embedLength_stepped hq h).mono fun b hb => hb ▸ .extLen hp
  · rename_i hp
    have hq : s.blk.phase ≠ .output := by simp [hp]
    unfold embedExt at h
    split at h
    · rename_i hi
      split at h
      · exact (embedByte_stepped hq h).mono fun b hb => hb ▸ .extByte hp hi
      · cases h
    · rename_i hi
      exact Stepped.of_next h rfl rfl rfl (.extEnd hp (by omega))
  · rename_i hp
    have hq : s.blk.phase ≠ .output := by simp [hp]
    exact (embedLength_stepped hq h).mono fun b hb => hb ▸ .payLen hp
  · rename_i hp
    have hq : s.blk.phase ≠ .output := by simp [hp]
    unfold embedPayload at h
    split at h
    · rename_i hi
      refine Stepped.of_read hq h fun c s1 _ hb _ _ h => ?_
      refine (embedByte_stepped (hb ▸ hq) h).mono fun b hb2 => ?_
      rw [hb2, hb]
      exact .payByte hp hi
    · rename_i hi
      exact Stepped.of_next h rfl rfl rfl (.payEnd hp (by omega))
  · rename_i hp
    have hq : s.blk.phase ≠ .output := by simp [hp]
    unfold embedTail at h
    split at h
    · rename_i hi
      refine Stepped.of_read hq h fun c s1 _ hb _ _ h => ?_
      refine Stepped.of_write (hb ▸ hq) h fun s2 _ hb2 _ _ h => ?_
      rw [← hb, ← hb2] at hp hi ⊢
      exact Stepped.of_next h rfl rfl rfl (.tailByte hp hi)
    · rename_i hi
      exact Stepped.of_next h rfl rfl rfl (.tailEnd hp (by omega))
  · rename_i hp
    exact Stepped.of_next h rfl rfl rfl (.finish hp)
  · cases h

/-- The moves of the Extractor (42_extractor.md rules R181 to R194). `v` and `w` stand for what the
group of carrier bytes unpacked to. -/
inductive ExtractMove (s : State) (b : Block) : Block → Prop where
  | header (h : b.phase = .idle) : ExtractMove s b ((b.movedIn s.cfg.headerSize).at .header)
  | markerByte (v : Byte) (h : b.phase = .header) (hi : b.idx.toNat < s.cfg.markerLen) :
      ExtractMove s b
        ({ b with mbuf := bufPut b.mbuf b.idx.toNat v }.movedIn 8).nextIdx
  | markerOk (h : b.phase = .header) (hi : s.cfg.markerLen ≤ b.idx.toNat)
      (hm : mbufPrefix s s.cfg.markerLen = s.cfg.marker) : ExtractMove s b (b.at .marker)
  | markerBad (h : b.phase = .header) (hi : s.cfg.markerLen ≤ b.idx.toNat)
      (hm : mbufPrefix s s.cfg.markerLen ≠ s.cfg.marker) : ExtractMove s b (b.failed .formatError)
  | extLenBad (w : Word) (h : b.phase = .marker) (hw : s.cfg.extBufCap ≤ w.toNat) :
      ExtractMove s b (({ b with extLen := w }.movedIn 32).failed .bufferOverflowError)
  | extLenOk (w : Word) (h : b.phase = .marker) (hw : w.toNat < s.cfg.extBufCap) :
      ExtractMove s b (({ b with extLen := w }.movedIn 32).at .extLen)
  | extByte (v : Byte) (h : b.phase = .extLen) (hi : b.idx.toNat < b.extLen.toNat)
      (hx : b.idx.toNat < b.ext.length) :
      ExtractMove s b ({ b with ext := b.ext.set b.idx.toNat v }.movedIn 8).nextIdx
  | extEnd (h : b.phase = .extLen) (hi : b.extLen.toNat ≤ b.idx.toNat)
      (hx : b.extLen.toNat < b.ext.length) :
      ExtractMove s b ({ b with ext := b.ext.set b.extLen.toNat 0x00#8 }.at .ext)
  | payLen (w : Word) (h : b.phase = .ext) :
      ExtractMove s b (({ b with payLen := w }.movedIn 32).at .payLen)
  | resource (h : b.phase = .payLen) (hr : s.cfg.payBufCap < b.payLen.toNat) :
      ExtractMove s b (b.failed .resourceError)
  | payByte (v : Byte) (h : b.phase = .payLen) (hr : b.payLen.toNat ≤ s.cfg.payBufCap)
      (hi : b.idx.toNat < b.payLen.toNat) :
      ExtractMove s b
        ({ b with pbuf := bufPut b.pbuf b.idx.toNat v }.movedIn 8).nextIdx
  | payEnd (h : b.phase = .payLen) (hr : b.payLen.toNat ≤ s.cfg.payBufCap)
      (hi : b.payLen.toNat ≤ b.idx.toNat) : ExtractMove s b (b.at .payload)
  | output (h : b.phase = .payload) : ExtractMove s b { b with phase := .output }
  | finish (h : b.phase = .output) : ExtractMove s b b.finished

/-- What a step of the Extractor can do. -/
theorem extractStep_stepped {s t : State} (h : extractStep s = .next t) :
    Stepped s t (ExtractMove s s.blk) := by
  unfold extractStep at h
  split at h
  · rename_i hp
    have hq : s.blk.phase ≠ .output := by simp [hp]
    refine Stepped.of_read hq h fun c s1 hc hb _ _ h => ?_
    rw [← hb] at hp ⊢
    have hm : ExtractMove s s1.blk ((s1.blk.movedIn s.cfg.headerSize).at .header) := .header hp
    rw [← hc] at hm
    exact Stepped.of_next h rfl rfl rfl hm
  · rename_i hp
    have hq : s.blk.phase ≠ .output := by simp [hp]
    unfold extractMarker at h
    split at h
    · rename_i hi
      refine Stepped.of_read hq h fun c s1 hc hb _ _ h => ?_
      rw [← hb] at hp hi ⊢
      exact Stepped.of_next h rfl rfl rfl (.markerByte _ hp hi)
    · rename_i hi
      unfold verifyMarker at h
      split at h
      · rename_i hm
        exact Stepped.of_next h rfl rfl rfl (.markerOk hp (by omega) hm)
      · rename_i hm
        exact Stepped.of_next h rfl rfl rfl (.markerBad hp (by omega) hm)
  · rename_i hp
    have hq : s.blk.phase ≠ .output := by simp [hp]
    refine Stepped.of_read hq h fun c s1 hc hb _ _ h => ?_
    simp only at h
    split at h
    · rename_i hw
      simp only [movedIn_cfg, State.onBlk_cfg, movedIn_blk, State.onBlk_blk, hc] at hw
      rw [← hb] at hp ⊢
      exact Stepped.of_next h rfl rfl rfl (.extLenBad _ hp hw)
    · rename_i hw
      simp only [movedIn_cfg, State.onBlk_cfg, movedIn_blk, State.onBlk_blk, hc] at hw
      rw [← hb] at hp ⊢
      exact Stepped.of_next h rfl rfl rfl (.extLenOk _ hp (by omega))
  · rename_i hp
    have hq : s.blk.phase ≠ .output := by simp [hp]
    unfold extractExt at h
    split at h
    · rename_i hi
      refine Stepped.of_read hq h fun c s1 hc hb _ _ h => ?_
      unfold writeExt at h
      split at h
      · rename_i hx
        rw [← hb] at hp hi ⊢
        exact Stepped.of_next h rfl rfl rfl (.extByte _ hp hi hx)
      · cases h
    · rename_i hi
      unfold writeExt at h
      split at h
      · rename_i hx
        exact Stepped.of_next h rfl rfl rfl (.extEnd hp (by omega) hx)
      · cases h
  · rename_i hp
    have hq : s.blk.phase ≠ .output := by simp [hp]
    refine Stepped.of_read hq h fun c s1 hc hb _ _ h => ?_
    rw [← hb] at hp ⊢
    exact Stepped.of_next h rfl rfl rfl (.payLen _ hp)
  · rename_i hp
    have hq : s.blk.phase ≠ .output := by simp [hp]
    unfold extractPayload at h
    split at h
    · rename_i hr
      exact Stepped.of_next h rfl rfl rfl (.resource hp hr)
    · rename_i hr
      split at h
      · rename_i hi
        refine Stepped.of_read hq h fun c s1 hc hb _ _ h => ?_
        rw [← hb] at hp hr hi ⊢
        exact Stepped.of_next h rfl rfl rfl (.payByte _ hp (by omega) hi)
      · rename_i hi
        exact Stepped.of_next h rfl rfl rfl (.payEnd hp (by omega) (by omega))
  · rename_i hp
    have hq : s.blk.phase ≠ .output := by simp [hp]
    refine Stepped.of_write hq h fun s1 hc hb _ _ h => ?_
    rw [← hb] at hp ⊢
    exact Stepped.of_next h rfl rfl rfl (.output hp)
  · rename_i hp
    exact Stepped.of_next h rfl rfl rfl (.finish hp)
  · cases h

end Sys2Proof.Machine
end

