-- ==== Sys2Proof/Laws/HostPort.lean ====
section
/-! SUPPORT. What a command, a host access and a step of the machine can do, each said once. -/

namespace Sys2Proof.Machine

/-- A command either finds READY and has its effect, or is `Refused` (30_encoding.md rule R90). -/
theorem whenReady_cases (s : State) (f : State → State) :
    (Ready s.blk ∧ whenReady s f = .next ((f s).answer .okWrite)) ∨
    (¬Ready s.blk ∧ whenReady s f = .next (s.answer .refused)) := by
  unfold whenReady
  by_cases h : Ready s.blk
  · exact .inl ⟨h, by rw [if_pos h]⟩
  · exact .inr ⟨h, by rw [if_neg h]⟩

theorem whenReady_ready {s : State} (h : Ready s.blk) (f : State → State) :
    whenReady s f = .next ((f s).answer .okWrite) := by rw [whenReady, if_pos h]

theorem whenReady_refused {s : State} (h : ¬Ready s.blk) (f : State → State) :
    whenReady s f = .next (s.answer .refused) := by rw [whenReady, if_neg h]

/-- What an accepted command does to the state (30_encoding.md rule R91). -/
def effectOf (i : Instr) (s : State) : State :=
  match i with
  | .nop => s
  | .pack8 => s.onBlk fun b => setLanes (packByte (valByte b) (lane8 b)) b
  | .pack32 => s.onBlk fun b => setLanes (packU32 b.val (lane32 b)) b
  | .unpack8 => s.onBlk fun b => setVal ((unpackByte (lane8 b)).setWidth 32) b
  | .unpack32 => s.onBlk fun b => setVal (unpackU32 (lane32 b)) b
  | .embed => startEmbed s
  | .extract => startExtract s

/-- Every command is its effect behind the READY test. -/
theorem exec_eq (i : Instr) (s : State) : exec i s = whenReady s (effectOf i) := by
  cases i <;> rfl

/-- The three ways EMBED starts (41_embedder.md rules R150 to R152), in the order of the checks. -/
theorem startEmbed_cases (s : State) :
    (s.cfg.extBufCap ≤ s.blk.extLen.toNat ∧
      startEmbed s =
        failWith .bufferOverflowError (newHistory (s.onBlk fun b => { b with mode := .embedder }))) ∨
    (s.blk.extLen.toNat < s.cfg.extBufCap ∧
      s.blk.carrierLen.toNat <
        s.cfg.headerSize + s.cfg.required s.blk.extLen.toNat s.blk.payLen.toNat ∧
      startEmbed s =
        failWith .capacityError (newHistory (s.onBlk fun b => { b with mode := .embedder }))) ∨
    (s.blk.extLen.toNat < s.cfg.extBufCap ∧
      s.cfg.headerSize + s.cfg.required s.blk.extLen.toNat s.blk.payLen.toNat ≤
        s.blk.carrierLen.toNat ∧
      startEmbed s =
        newHistory (s.onBlk fun b =>
          { b with mode := .embedder, busy := true, idx := 0, curIn := 0, curOut := 0 })) := by
  by_cases h1 : s.cfg.extBufCap ≤ s.blk.extLen.toNat
  · exact .inl ⟨h1, by simp [startEmbed, extTooLong, h1]⟩
  · by_cases h2 : s.blk.carrierLen.toNat <
        s.cfg.headerSize + s.cfg.required s.blk.extLen.toNat s.blk.payLen.toNat
    · exact .inr (.inl ⟨by omega, h2, by simp [startEmbed, extTooLong, carrierTooSmall, h1, h2]⟩)
    · refine .inr (.inr ⟨by omega, by omega, ?_⟩)
      simp only [startEmbed, extTooLong, carrierTooSmall, newHistory_cfg, newHistory_blk,
        State.onBlk_cfg, State.onBlk_blk, h1, h2, decide_false, Bool.false_eq_true, if_false]
      rfl

@[simp] theorem effectOf_cfg (i : Instr) (s : State) : (effectOf i s).cfg = s.cfg := by
  cases i <;> try rfl
  rcases startEmbed_cases s with ⟨-, h⟩ | ⟨-, -, h⟩ | ⟨-, -, h⟩ <;> simp [effectOf, h]

@[simp] theorem effectOf_host (i : Instr) (s : State) : (effectOf i s).host = s.host := by
  cases i <;> try rfl
  rcases startEmbed_cases s with ⟨-, h⟩ | ⟨-, -, h⟩ | ⟨-, -, h⟩ <;> simp [effectOf, h]

@[simp] theorem effectOf_free (i : Instr) (s : State) : (effectOf i s).free = s.free := by
  cases i <;> try rfl
  rcases startEmbed_cases s with ⟨-, h⟩ | ⟨-, -, h⟩ | ⟨-, -, h⟩ <;> simp [effectOf, h]

@[simp] theorem effectOf_pending (i : Instr) (s : State) :
    (effectOf i s).env.pending = s.env.pending := by
  cases i <;> try rfl
  rcases startEmbed_cases s with ⟨-, h⟩ | ⟨-, -, h⟩ | ⟨-, -, h⟩ <;> simp [effectOf, h]

/-- What the sequencer's turn can do (10_state.md rule R27). -/
theorem sequencerTurn_cases {s t : State} (h : sequencerTurn s = .next t) :
    (s.blk.busy = false ∧ t = s) ∨
    (s.blk.busy = true ∧ s.blk.mode = .embedder ∧ Stepped s t (EmbedMove s.cfg s.blk)) ∨
    (s.blk.busy = true ∧ s.blk.mode = .extractor ∧ Stepped s t (ExtractMove s s.blk)) := by
  unfold sequencerTurn at h
  split at h
  · rename_i hb
    split at h
    · rename_i hm
      exact .inr (.inl ⟨hb, hm, embedStep_stepped h⟩)
    · rename_i hm
      exact .inr (.inr ⟨hb, hm, extractStep_stepped h⟩)
  · rename_i hb
    cases h
    exact .inl ⟨by simpa using hb, rfl⟩

/-- A host read changes nothing but the host's answers (20_memory.md rule R63). -/
theorem hostRead_next {size off : Nat} {s t : State} (h : hostRead size off s = .next t) :
    ∃ a, t = s.answer a := by
  unfold hostRead at h
  split at h
  · split at h
    · cases h
      exact ⟨_, rfl⟩
    · split at h
      · cases h
        exact ⟨_, rfl⟩
      · cases h
  · cases h
    exact ⟨_, rfl⟩

/-- BUSY is bit 5 of STATUS (30_encoding.md rule R96). -/
@[simp] theorem statusWord_busy (b : Block) : (statusWord b).getLsbD 5 = b.busy := by
  rcases b with ⟨ph, m, bu, dn, fl, er⟩
  simp only [statusWord]
  rcases er with _ | k <;> (try cases k) <;> cases ph <;> cases m <;> cases bu <;> cases dn <;>
    cases fl <;> decide

/-- One read of the line `wait` (rule R111): STATUS is the answer, and the poll goes on while BUSY = 1. -/
theorem pollStatus_eq (rest : List HostEvent) (s : State) :
    pollStatus rest s =
      .next ((s.setInputs (if s.blk.busy = true then .turn :: .poll :: rest else rest)).answer
        (.okRead (statusWord s.blk))) := by
  have hr : ∀ c : Config, regAt c HostReg.status.offset = some .status := fun c => by
    simp [regAt, fixedRegs, HostReg.offset]
  unfold pollStatus
  rw [statusWord_busy]
  simp only [hostRead, hr, readReg]
  rw [if_pos (by decide)]
  rfl

/-- What a host write can do (rule R64): be `Refused` and change nothing; write an RW* register while
READY; or issue a command. -/
theorem hostWrite_cases {size off : Nat} {w : Word} {s t : State}
    (h : hostWrite size off w s = .next t) :
    t = s.answer .refused ∨
    (∃ r, regAt s.cfg off = some r ∧ r.writable = true ∧ Ready s.blk ∧
      t = (s.onBlk (writeReg r w)).answer .okWrite) ∨
    (∃ i, decode w = .ok i ∧ exec i s = .next t) := by
  unfold hostWrite at h
  split at h
  · split at h
    · unfold issueCommand at h
      split at h
      · rename_i i hi
        exact .inr (.inr ⟨i, hi, h⟩)
      · cases h
        exact .inl rfl
    · rename_i r _ hr
      split at h
      · rename_i hw
        cases h
        exact .inr (.inl ⟨_, hr, hw.2, hw.1, rfl⟩)
      · cases h
        exact .inl rfl
    · cases h
      exact .inl rfl
  · cases h
    exact .inl rfl

/-- `u` is `s` but for the host's side: a host event has been taken from the queue. -/
abbrev SameMachine (u s : State) : Prop :=
  u.cfg = s.cfg ∧ u.blk = s.blk ∧ u.env = s.env ∧ u.free = s.free

/-- Everything one step of the machine can do (00_scope.md rule R4): a reset; or, with no transaction
unanswered, something that leaves the block and the transaction in progress alone, a host write to a
register while READY, an accepted command, or a sequencer step. -/
inductive StepKind (s t : State) : Prop where
  | reset (rest : List HostEvent) (hi : s.host.inputs = .reset :: rest)
      (ht : t = resetBlock (s.setInputs rest))
  | quiet (hp : s.env.pending = none) (hc : t.cfg = s.cfg) (hb : t.blk = s.blk)
      (hp' : t.env.pending = none)
  | wrote (hp : s.env.pending = none) (u : State) (hu : SameMachine u s) (off : Nat) (r : HostReg)
      (w : Word) (hr : regAt s.cfg off = some r) (hw : r.writable = true) (hrd : Ready s.blk)
      (ht : t = (u.onBlk (writeReg r w)).answer .okWrite)
  | command (hp : s.env.pending = none) (u : State) (hu : SameMachine u s) (i : Instr)
      (hrd : Ready s.blk) (ht : t = (effectOf i u).answer .okWrite)
  | embed (hp : s.env.pending = none) (u : State) (hu : SameMachine u s) (hb : s.blk.busy = true)
      (hm : s.blk.mode = .embedder) (ht : Stepped u t (EmbedMove u.cfg u.blk))
  | extract (hp : s.env.pending = none) (u : State) (hu : SameMachine u s) (hb : s.blk.busy = true)
      (hm : s.blk.mode = .extractor) (ht : Stepped u t (ExtractMove u u.blk))

theorem StepKind.of_turn {s t u : State} (hp : s.env.pending = none) (hu : SameMachine u s)
    (h : sequencerTurn u = .next t) : StepKind s t := by
  obtain ⟨hc, hb, he, hf⟩ := hu
  rcases sequencerTurn_cases h with ⟨-, rfl⟩ | ⟨h1, h2, h3⟩ | ⟨h1, h2, h3⟩
  · exact .quiet hp hc hb (by rw [he, hp])
  · exact .embed hp u ⟨hc, hb, he, hf⟩ (hb ▸ h1) (hb ▸ h2) h3
  · exact .extract hp u ⟨hc, hb, he, hf⟩ (hb ▸ h1) (hb ▸ h2) h3

theorem step_kind {s t : State} (h : step s = .next t) : StepKind s t := by
  unfold step takeStep at h
  split at h
  · rename_i rest hr
    cases h
    exact .reset rest hr rfl
  · split at h
    · cases h
    · rename_i hne hp
      have hp : s.env.pending = none := by simpa using hp
      split at h
      · exact .of_turn hp ⟨rfl, rfl, rfl, rfl⟩ h
      · rename_i e rest hin
        have hs : SameMachine (s.setInputs rest) s := ⟨rfl, rfl, rfl, rfl⟩
        cases e with
        | reset => exact absurd hin (hne rest)
        | read size off =>
          obtain ⟨a, rfl⟩ := hostRead_next h
          exact .quiet hp rfl rfl hp
        | write size off w =>
          rcases hostWrite_cases h with rfl | ⟨r, hr, hw, hrd, rfl⟩ | ⟨i, -, hi⟩
          · exact .quiet hp rfl rfl hp
          · exact .wrote hp _ hs off r w hr hw hrd rfl
          · rw [exec_eq] at hi
            rcases whenReady_cases (s.setInputs rest) (effectOf i) with ⟨hrd, h2⟩ | ⟨-, h2⟩
            · rw [h2] at hi
              cases hi
              exact .command hp _ hs i hrd rfl
            · rw [h2] at hi
              cases hi
              exact .quiet hp rfl rfl hp
        | turn => exact .of_turn hp hs h
        | poll =>
          rw [show hostEvent .poll rest s = _ from pollStatus_eq rest s] at h
          cases h
          exact .quiet hp rfl rfl hp
        | openIn p content =>
          cases h
          exact .quiet hp rfl rfl (by cases p <;> exact hp)
        | openOut p =>
          cases h
          exact .quiet hp rfl rfl (by cases p <;> exact hp)

/-- With no transaction unanswered, the step is the event at the head of the queue. -/
theorem step_event {s : State} {e : HostEvent} {rest : List HostEvent}
    (hp : s.env.pending = none) (h : s.host.inputs = e :: rest) :
    step s = hostEvent e rest s := by
  unfold step takeStep
  rw [h]
  cases e <;> simp [hp]

/-- Offset 0x000 is CTRL: a whole-word write to it issues a command (20_memory.md rules R61, R64). -/
theorem hostWrite_ctrl (w : Word) (s : State) : hostWrite 4 0x000 w s = issueCommand w s := by
  unfold hostWrite
  rw [if_pos (by decide)]
  have : regAt s.cfg 0x000 = some .ctrl := by simp [regAt, fixedRegs]
  rw [this]

/-- A register found at an offset is in the map and stands at that offset (rule R61). -/
theorem regAt_some {c : Config} {off : Nat} {r : HostReg} (h : regAt c off = some r) :
    r.inMap c = true ∧ off = r.offset := by
  unfold regAt at h
  split at h
  · cases h
  rename_i h0
  split at h
  · rename_i h1
    have h2 : off / 4 < 16 := by omega
    have h3 : off = 4 * (off / 4) := by omega
    generalize off / 4 = n at h h2 h3
    subst h3
    interval_cases n <;> simp [fixedRegs] at h <;> subst h <;> simp [HostReg.inMap, HostReg.offset]
  split at h
  · cases h
    simp [HostReg.inMap, HostReg.offset]
    omega
  split at h
  · simp only [Option.ite_none_right_eq_some, Option.some.injEq] at h
    obtain ⟨h3, rfl⟩ := h
    simp [HostReg.inMap, HostReg.offset]
    omega
  split at h
  · simp only [Option.ite_none_right_eq_some, Option.some.injEq] at h
    obtain ⟨h3, rfl⟩ := h
    simp [HostReg.inMap, HostReg.offset]
    omega
  · cases h

/-- A register file of the right length has every entry that the map names. -/
theorem readReg_isSome {c : Config} {b : Block} {r : HostReg} (hl : b.lane.length = 32)
    (he : b.ext.length = c.extBufCap) (h : r.inMap c = true) : (readReg c b r).isSome = true := by
  cases r <;> try rfl
  all_goals
    have h := of_decide_eq_true h
    simp [readReg]
    omega

end Sys2Proof.Machine
end

