-- ==== Sys2Proof/Laws/PerInstr.lean ====
section
/-! SUPPORT. Statements about each command as syntax, one lemma per constructor (30_encoding.md rules R91,
R92, R93). -/

namespace Sys2Proof.Laws.Encoding

/-- The command's word decodes to the command, its reserved field is 0, its OP field is not the reserved
one, and the command is well formed. -/
def Statement (i : Instr) : Prop :=
  decode (encode i) = .ok i ∧ CommandWordWf (encode i) ∧ i.wf = true

theorem nop : Statement .nop := by unfold Statement; decide
theorem pack8 : Statement .pack8 := by unfold Statement; decide
theorem pack32 : Statement .pack32 := by unfold Statement; decide
theorem unpack8 : Statement .unpack8 := by unfold Statement; decide
theorem unpack32 : Statement .unpack32 := by unfold Statement; decide
theorem embed : Statement .embed := by unfold Statement; decide
theorem extract : Statement .extract := by unfold Statement; decide

end Sys2Proof.Laws.Encoding
end

