-- ==== Sys2Proof/Laws/Run.lean ====
section
/-! SUPPORT. Runs of the machine: how they are cut and joined, and what a run with no host event is. -/

namespace Sys2Proof

open Sys2Proof.Machine

/-- A run goes on from the state its first step answers. -/
theorem runFor_succ {n : Nat} {s t : State} (h : step s = .next t) :
    runFor (n + 1) s = runFor n t := by
  show Host.Core.run core (n + 1) s = _
  simp only [Host.Core.run]
  rw [show core.step s = .next t from h]

/-- A run of `m + n` steps is a run of `m` steps and then one of `n`. -/
theorem runFor_add {m n : Nat} {s t : State} (h : runFor m s = .next t) :
    runFor (m + n) s = runFor n t := by
  induction m generalizing s with
  | zero =>
    cases h
    rw [Nat.zero_add]
  | succ m ih =>
    cases hs : step s with
    | next u =>
      rw [runFor_succ hs] at h
      rw [show m + 1 + n = (m + n) + 1 by omega, runFor_succ hs]
      exact ih h
    | fault f =>
      exfalso
      simp only [runFor, Host.Core.run] at h
      rw [show core.step s = .fault f from hs] at h
      cases h
    | refused r =>
      exfalso
      simp only [runFor, Host.Core.run] at h
      rw [show core.step s = .refused r from hs] at h
      cases h

/-- With no host event queued and no transaction unanswered, a step is the sequencer's turn (log 3). -/
theorem step_quiet {s : State} (hp : s.env.pending = none) (hi : s.host.inputs = []) :
    step s = sequencerTurn s := by
  simp [step, takeStep, hi, hp]

@[simp] theorem packs_length (s c : List Byte) : (packs s c).length = 8 * s.length := by
  induction s generalizing c with
  | nil => rfl
  | cons v r ih =>
    simp [packs, ih]
    omega

@[simp] theorem bytesAt_length (s : List Byte) (o n : Nat) : (bytesAt s o n).length = n := by
  simp [bytesAt]

end Sys2Proof
end

