-- ==== Sys2Proof/Tests/Slice0.lean ====
section
/-! SUPPORT. The model's own tests. The expected results come from the spec: the words of
30_encoding.md rule R91, and the vectors of 95_test_vectors.md named in each docstring (its K, E, X, A). After
them, a witness for the hypotheses of every obligation that has some. -/

namespace Sys2Proof.Tests

open Sys2Proof Sys2Proof.Machine

/-! ### Helpers -/

/-- CFG_REF (00_scope.md rule R13), which the spec's vectors use. -/
def cfgRef : Config := { headerSize := 54, marker := [0x23, 0x2A], extBufCap := 8, payBufCap := 65536 }

/-- An environment with these contents, well-behaved. -/
def envOf (cin pin : List Byte) : Env where
  cin := { content := cin, pos := 0 }
  pin := { content := pin, pos := 0 }
  sout := []
  pout := []
  plan := []
  pending := none
  history := []

/-- A state with this block and these events to come. -/
def stateOf (c : Config) (b : Block) (inputs : List HostEvent := []) (e : Env := envOf [] []) : State where
  cfg := c
  blk := b
  env := e
  host := { inputs := inputs, answers := [] }
  free := 0

/-- The block after reset under CFG_REF. -/
def ref : Block := Block.reset cfgRef

/-- Something of the next state, none where there is none. -/
def after {α : Type} (r : Result) (f : State → α) : Option α :=
  match r with
  | .next t => some (f t)
  | .fault _ => none
  | .refused _ => none

/-- The block, the answers received and the STATUS word after a result. -/
def blkAfter (r : Result) : Option Block := after r (·.blk)
def answersAfter (r : Result) : Option (List HostAnswer) := after r (·.host.answers)
def statusAfter (r : Result) : Option Word := after r fun t => statusWord t.blk

/-! ### Decoding: each word written out from rule R91, bits 31:3 zero and OP in bits 2:0 -/

theorem test_decode_nop : decode 0b00000000000000000000000000000_000#32 = .ok .nop := by decide
theorem test_decode_pack8 : decode 0b00000000000000000000000000000_001#32 = .ok .pack8 := by decide
theorem test_decode_pack32 : decode 0b00000000000000000000000000000_010#32 = .ok .pack32 := by decide
theorem test_decode_unpack8 : decode 0b00000000000000000000000000000_011#32 = .ok .unpack8 := by decide
theorem test_decode_unpack32 : decode 0b00000000000000000000000000000_100#32 = .ok .unpack32 := by
  decide
theorem test_decode_embed : decode 0b00000000000000000000000000000_101#32 = .ok .embed := by decide
theorem test_decode_extract : decode 0b00000000000000000000000000000_110#32 = .ok .extract := by decide

/-- A4: the three reserved words of the vector. -/
theorem test_decode_reserved :
    decode 0x00000007#32 = .error .reservedOp ∧ decode 0x00000010#32 = .error .reservedBits ∧
    decode 0x80000001#32 = .error .reservedBits := by decide

/-- The table's numbering, and step running the word placed. -/
theorem test_table_word : decodeTableWord 32 5 = some .embed ∧ decodeTableWord 32 7 = none ∧
    statusAfter (step ((stateOf cfgRef ref).withFetchWord 32 6)) = some 0x00000030 := by decide

/-! ### Well-formedness: each check refuses an ill-formed term -/

theorem test_wf_ref : cfgRef.Wf := by decide
theorem test_wf_header_too_large : ¬{ cfgRef with headerSize := 4294967296 }.Wf := by decide
theorem test_wf_marker_empty : ¬{ cfgRef with marker := [] }.Wf := by decide
theorem test_wf_marker_too_long : ¬{ cfgRef with marker := List.replicate 257 0x41 }.Wf :=
  fun h => absurd h.2.1.2 (by rw [List.length_replicate]; decide)
theorem test_wf_marker_byte_zero : ¬{ cfgRef with marker := [0x00] }.Wf := by decide
theorem test_wf_marker_byte_not_ascii : ¬{ cfgRef with marker := [0x80] }.Wf := by decide
theorem test_wf_ext_cap_zero : ¬{ cfgRef with extBufCap := 0 }.Wf := by decide
theorem test_wf_ext_cap_too_large : ¬{ cfgRef with extBufCap := 257 }.Wf := by decide
theorem test_wf_pay_cap_too_large : ¬{ cfgRef with payBufCap := 4294967296 }.Wf := by decide
theorem test_wf_command_word : ¬CommandWordWf 0x00000008#32 ∧ ¬CommandWordWf 7#32 := by decide
/-- A11: a byte access, a misaligned offset, an offset beyond the window. -/
theorem test_wf_host_access :
    ¬HostAccessWf 1 0x018 ∧ ¬HostAccessWf 4 0x006 ∧ ¬HostAccessWf 4 0x1000 := by decide

/-! ### The commands -/

/-- K8. -/
theorem test_nop : blkAfter (exec .nop (stateOf cfgRef ref)) = some ref ∧
    answersAfter (exec .nop (stateOf cfgRef ref)) = some [.okWrite] := by decide

def lanesK1 : List Byte := [0x10, 0x21, 0x32, 0x43, 0x54, 0x65, 0x76, 0x87] ++ List.replicate 24 0

/-- K1. -/
theorem test_pack8 :
    blkAfter (exec .pack8 (stateOf cfgRef { ref with val := 0x000000C3, lane := lanesK1 })) =
      some { ref with
        val := 0x000000C3
        lane := [0x11, 0x21, 0x32, 0x42, 0x54, 0x64, 0x77, 0x87] ++ List.replicate 24 0 } := by decide

/-- K3: VAL[31:8] is ignored. -/
theorem test_pack8_ignores_high_bits :
    (blkAfter (exec .pack8 (stateOf cfgRef { ref with val := 0xABCDEF68 }))).map Block.lane =
      some ([0, 1, 1, 0, 1, 0, 0, 0] ++ List.replicate 24 0) := by decide

/-- K4. -/
theorem test_pack32 :
    blkAfter (exec .pack32
        (stateOf cfgRef { ref with val := 0x80000001, lane := List.replicate 32 0xFE })) =
      some { ref with
        val := 0x80000001, lane := [0xFF] ++ List.replicate 30 0xFE ++ [0xFF] } := by decide

/-- K2. -/
theorem test_unpack8 :
    (blkAfter (exec .unpack8
        (stateOf cfgRef { ref with
          val := 0xFFFFFFFF
          lane := [0x11, 0x21, 0x32, 0x42, 0x54, 0x64, 0x77, 0x87] ++ List.replicate 24 0 }))).map
        Block.val = some 0x000000C3 := by decide

/-- K7, first part: lane 8 is not read. -/
theorem test_unpack8_stops_at_lane_7 :
    (blkAfter (exec .unpack8 (stateOf cfgRef { ref with lane := ref.lane.set 8 1 }))).map Block.val =
      some 0 := by decide

/-- K5. -/
theorem test_unpack32 :
    (blkAfter (exec .unpack32
        (stateOf cfgRef { ref with lane := (List.range 32).map (BitVec.ofNat 8) }))).map Block.val =
      some 0x55555555 := by decide

/-- K7, second part: lane 8 is bit 23. -/
theorem test_unpack32_lane_8 :
    (blkAfter (exec .unpack32 (stateOf cfgRef { ref with lane := ref.lane.set 8 1 }))).map Block.val =
      some 0x00800000 := by decide

/-- E3 and E4: the capacity check at its threshold and one byte below. -/
theorem test_embed_capacity :
    statusAfter (exec .embed
        (stateOf cfgRef { ref with carrierLen := 206, extLen := 4, payLen := 5 })) =
      some 0x00000020 ∧
    statusAfter (exec .embed
        (stateOf cfgRef { ref with carrierLen := 205, extLen := 4, payLen := 5 })) =
      some 0x00000380 := by decide

/-- E6: the extension bound is tested before the capacity. -/
theorem test_embed_extension_bound :
    statusAfter (exec .embed (stateOf cfgRef { ref with extLen := 8 })) = some 0x00000480 ∧
    statusAfter (exec .embed (stateOf cfgRef { ref with extLen := 0xFFFFFFFF })) =
      some 0x00000480 := by decide

/-- A14: accepted with CIN empty, and X13's clearing of stale values. -/
theorem test_extract_clears :
    blkAfter (exec .extract
        (stateOf cfgRef { ref with
          extLen := 3, payLen := 9, ext := [0x61, 0x62, 0x63, 0, 0, 0, 0, 0] })) =
      some { ref with mode := .extractor, busy := true } := by decide

/-- A14, second part: the first step of a run on an empty CIN. -/
theorem test_extract_first_step :
    statusAfter (step (stateOf cfgRef { ref with mode := .extractor, busy := true })) =
      some 0x00000190 := by decide

/-! ### Host access -/

/-- A2, A8: writes to read-only registers. -/
theorem test_write_read_only :
    answersAfter (step (stateOf cfgRef ref [.write 4 0x004 0xFFFFFFFF])) = some [.refused] ∧
    answersAfter (step (stateOf cfgRef ref [.write 4 0x800 0x41])) = some [.refused] ∧
    answersAfter (step (stateOf cfgRef ref [.write 4 0x02C 1])) = some [.refused] := by decide

/-- A1, A3, A5, A6, A7: reads. -/
theorem test_reads :
    (([0x000, 0x040, 0x180, 0xC00, 0x030, 0x034, 0x038, 0x03C, 0x800, 0x804, 0x808, 0x41C, 0x420].map
      fun off => answersAfter (step (stateOf cfgRef ref [.read 4 off]))) =
     ([.okRead 0, .refused, .refused, .refused, .okRead 54, .okRead 2, .okRead 8,
       .okRead 0x00010000, .okRead 0x23, .okRead 0x2A, .refused, .okRead 0, .refused].map
      fun a => some [a])) := by decide

/-- A12 and K9: the two halves of CARRIER_LEN, and a lane that holds 8 bits. -/
theorem test_writes :
    (blkAfter (step (stateOf cfgRef { ref with carrierLen := 0x0000000100000000 }
      [.write 4 0x008 2]))).map Block.carrierLen = some 0x0000000100000002 ∧
    (blkAfter (step (stateOf cfgRef ref [.write 4 0x100 0x000001FF]))).map Block.lane =
      some (ref.lane.set 0 0xFF) := by decide

/-! ### Single sequencer steps -/

/-- E10 at its failing step: the second SOUT write is refused after CIN was consumed to offset 62. -/
theorem test_embed_sink_refuses :
    let s := stateOf cfgRef
      { ref with busy := true, phase := .header, curIn := 54, curOut := 54, carrierLen := 206 } []
      { envOf (List.replicate 70 0) [] with cin := { content := List.replicate 70 0, pos := 54 },
                                            plan := [.ok, .fail] }
    after (step s) (fun t => (statusWord t.blk, t.blk.idx, t.blk.curIn, t.env.cin.pos)) =
      some (0x00000181, 0, 54, 62) := by decide

/-- X2 at its failing step: the marker decoded as 0x00 0x00 does not match. -/
theorem test_extract_marker_mismatch :
    let s := stateOf cfgRef
      { ref with
        mode := .extractor, busy := true, phase := .header, idx := 2, curIn := 70
        mbuf := [(0, 0x00), (1, 0x00)] }
    after (step s) (fun t => (statusWord t.blk, t.blk.idx, t.blk.curIn)) =
      some (0x00000291, 2, 70) := by decide

/-- The encoding of program P1's first line, and of a CARRIER_LEN line as in P3. -/
theorem test_script :
    scriptEncoding [.reset, .wr .val 0x000000C3, .wrCarrierLen 10000, .cmd .embed, .wait, .rd .status] =
      [(0x018, some 0x000000C3), (0x008, some 0x00002710), (0x00C, some 0), (0x000, some 5),
       (0x004, none), (0x004, none)] := by decide

/-- One read of `wait` (rule R111): during a run it is repeated after a turn, in a terminal state it is the
last. The STATUS words are those of programs P3 and P4. -/
theorem test_wait_reads_status :
    let running := stateOf cfgRef { ref with busy := true } (scriptEvents [.wait])
    let ended := stateOf cfgRef { ref with mode := .extractor, phase := .done, done := true }
      (scriptEvents [.wait])
    after (step running) (·.host) =
      some { inputs := [.turn, .poll], answers := [.okRead 0x00000020] } ∧
    after (step ended) (·.host) = some { inputs := [], answers := [.okRead 0x00000058] } := by decide

/-! ### Witnesses

Each theorem `witness_<obligation>` gives concrete states and operands that meet the hypotheses of the
obligation of that name, one for each of its clauses, at the boundary values of their ranges. -/

/-- A small legal configuration. -/
def tiny : Config := { headerSize := 2, marker := [0x41], extBufCap := 2, payBufCap := 1 }

/-- The block after reset under it. -/
def idle : Block := Block.reset tiny

/-- A READY state with these events to come. -/
def ready (inputs : List HostEvent) : State := stateOf tiny idle inputs

/-- An Embedder run of one extension byte and one payload byte on 91 carrier bytes (need = 90), at a
PHASE, an IDX and a cursor. -/
def embBlk (p : Phase) (i : Word) (cur : DWord) : Block :=
  { idle with
    busy := true, phase := p, idx := i, curIn := cur, curOut := cur
    carrierLen := 91, extLen := 1, payLen := 1, ext := [0x74, 0x00] }

def embAt (p : Phase) (i : Word) (cur : DWord) : State :=
  stateOf tiny (embBlk p i cur) []
    { envOf (List.replicate 91 0) [0x68] with
      cin := { content := List.replicate 91 0, pos := cur.toNat } }

/-- An Extractor run at a PHASE, an IDX, a cursor and the results so far. -/
def extBlk (p : Phase) (i : Word) (cur : DWord) (e q : Word) : Block :=
  { idle with
    busy := true, mode := .extractor, phase := p, idx := i, curIn := cur, extLen := e, payLen := q
    mbuf := [(0, 0x41)], pbuf := [(0, 0x68)] }

def extAt (p : Phase) (i : Word) (cur : DWord) (e q : Word) : State :=
  stateOf tiny (extBlk p i cur e q) []
    { envOf (List.replicate 91 0) [] with
      cin := { content := List.replicate 91 0, pos := cur.toNat } }

/-- The same state with other answers planned. -/
def planned (s : State) (l : List Reply) : State := { s with env := { s.env with plan := l } }

theorem inv_embedder {s : State} (hc : s.cfg.Wf) (hf : FilesOk s.cfg s.blk) (hg : FlagsOk s.blk)
    (he : s.blk.err = none) (hm : s.blk.mode = .embedder) (h : EmbedderOk s.cfg s.blk)
    (hw : s.env.pending = none) : Inv s where
  cfg := hc
  files := hf
  flags := hg
  stage := fun k hk => by rw [he] at hk; cases hk
  embedder := fun _ => h
  extractor := fun hx => by rw [hm] at hx; cases hx
  waiting := fun h => by rw [hw] at h; cases h

theorem inv_extractor {s : State} (hc : s.cfg.Wf) (hf : FilesOk s.cfg s.blk) (hg : FlagsOk s.blk)
    (he : s.blk.err = none) (hm : s.blk.mode = .extractor) (h : ExtractorOk s.cfg s.blk)
    (hw : s.env.pending = none) : Inv s where
  cfg := hc
  files := hf
  flags := hg
  stage := fun k hk => by rw [he] at hk; cases hk
  embedder := fun hx => by rw [hm] at hx; cases hx
  extractor := fun _ => h
  waiting := fun h => by rw [hw] at h; cases h

theorem inv_ready (inputs : List HostEvent) : Inv (ready inputs) :=
  inv_embedder (show tiny.Wf by decide) (show FilesOk tiny (idle) by decide)
    (show FlagsOk (idle) by decide) rfl rfl
    (show EmbedderOk tiny (idle) by decide) rfl

/-- A run that waits for an unanswered read. -/
def hung (inputs : List HostEvent) : State :=
  { embAt .idle 0 0 with
    host := { inputs := inputs, answers := [] }
    env := { envOf [] [] with pending := some (.read .cin 2) } }

theorem inv_hung (inputs : List HostEvent) : Inv (hung inputs) where
  cfg := show tiny.Wf by decide
  files := show FilesOk tiny (embBlk .idle 0 0) by decide
  flags := show FlagsOk (embBlk .idle 0 0) by decide
  stage := fun k hk => by cases hk
  embedder := fun _ => show EmbedderOk tiny (embBlk .idle 0 0) by decide
  extractor := fun hx => by cases hx
  waiting := fun _ => rfl

/-- A failed run (E8's stage): IOError at PHASE 4 of the Embedder. -/
def failedBlk : Block := failedBlock .ioError (embBlk .ext 0 50)

def failed (inputs : List HostEvent) : State := stateOf tiny failedBlk inputs

theorem inv_failed (inputs : List HostEvent) : Inv (failed inputs) where
  cfg := show tiny.Wf by decide
  files := show FilesOk tiny (failedBlk) by decide
  flags := show FlagsOk (failedBlk) by decide
  stage := fun k hk => by
    cases hk
    show (Mode.embedder, Phase.ext, FailKind.ioError) ∈ failStages
    decide
  embedder := fun _ => show EmbedderOk tiny (failedBlk) by decide
  extractor := fun hx => by cases hx
  waiting := fun h => by cases h

/-- A finished run of the Embedder. -/
def finishedBlk : Block := { embBlk .done 0 91 with busy := false, done := true }

def finished (inputs : List HostEvent) : State := stateOf tiny finishedBlk inputs

theorem inv_finished (inputs : List HostEvent) : Inv (finished inputs) :=
  inv_embedder (show tiny.Wf by decide) (show FilesOk tiny (finishedBlk) by decide)
    (show FlagsOk (finishedBlk) by decide) rfl rfl
    (show EmbedderOk tiny (finishedBlk) by decide) rfl

theorem inv_embAt : Inv (embAt .idle 0 0) ∧ Inv (embAt .header 1 10) ∧ Inv (embAt .extLen 0 42) ∧
    Inv (embAt .extLen 1 50) ∧ Inv (embAt .payLen 0 82) ∧ Inv (embAt .payload 0 90) := by
  refine ⟨?_, ?_, ?_, ?_, ?_, ?_⟩ <;>
    exact inv_embedder (by decide) (by decide) (by decide) rfl rfl (by decide) rfl

theorem extractorOk_header : ExtractorOk tiny (extBlk .header 1 10 0 0) := by
  refine ⟨rfl, ?_, by decide, fun _ => ⟨by decide, by decide, rfl, rfl, by decide, by decide⟩,
    by decide, by decide, by decide, by decide, by decide, by decide, by decide⟩
  intro j _ h
  have h : j < 2 := h
  interval_cases j <;> rfl

theorem extractorOk_ext : ExtractorOk tiny (extBlk .extLen 0 42 1 0) ∧
    ExtractorOk tiny (extBlk .extLen 1 50 1 0) := by
  constructor
  all_goals
    refine ⟨rfl, ?_, nofun, nofun, fun _ _ => by decide, nofun, fun _ _ _ => by decide,
      fun _ => by decide, nofun, nofun, nofun⟩
    intro j _ h
    have h : j < 2 := h
    interval_cases j <;> rfl

theorem extractorOk_output (p : Phase) (hp : p = .payload ∨ p = .output) :
    ExtractorOk tiny (extBlk p 0 90 1 1) := by
  rcases hp with rfl | rfl
  all_goals
    refine ⟨rfl, ?_, nofun, nofun, fun _ _ => by decide, nofun, fun _ _ _ => by decide, nofun, nofun,
      nofun, fun _ => ⟨by decide, by decide, by decide, by decide⟩⟩
    intro j _ h
    have h : j < 2 := h
    interval_cases j <;> rfl

theorem extractorOk_resource : ExtractorOk tiny (extBlk .payLen 0 82 1 2) := by
  refine ⟨rfl, ?_, nofun, nofun, fun _ _ => by decide, nofun, fun _ _ _ => by decide, nofun, nofun,
    fun _ => ⟨by decide, by decide, by decide, nofun, by decide⟩, nofun⟩
  intro j _ h
  have h : j < 2 := h
  interval_cases j <;> rfl

theorem inv_resource : Inv (extAt .payLen 0 82 1 2) :=
  inv_extractor (by decide) (by decide) (by decide) rfl rfl extractorOk_resource rfl

theorem inv_extAt : Inv (extAt .header 1 10 0 0) ∧ Inv (extAt .extLen 0 42 1 0) ∧
    Inv (extAt .extLen 1 50 1 0) ∧ Inv (extAt .payload 0 90 1 1) := by
  refine ⟨?_, ?_, ?_, ?_⟩
  · exact inv_extractor (by decide) (by decide) (by decide) rfl rfl extractorOk_header rfl
  · exact inv_extractor (by decide) (by decide) (by decide) rfl rfl
      extractorOk_ext.1 rfl
  · exact inv_extractor (by decide) (by decide) (by decide) rfl rfl
      extractorOk_ext.2 rfl
  · exact inv_extractor (by decide) (by decide) (by decide) rfl rfl
      (extractorOk_output _ (.inl rfl)) rfl

/-! #### Encoding and the step -/

theorem witness_ReservedWordsAreRefused :
    (ready [.write 4 0x000 7]).env.pending = none ∧
    (ready [.write 4 0x000 7]).host.inputs = [.write 4 0x000 7] ∧
    ((0x00000008#32).extractLsb' 3 29 ≠ 0#29 ∧ (0x80000000#32).extractLsb' 3 29 ≠ 0#29) ∧
    (0x00000007#32).extractLsb' 0 3 = 7#3 := by decide

theorem witness_StepRunsTheCommandWritten :
    (ready [.write 4 0x000 6]).env.pending = none ∧ decode 6 = .ok .extract ∧
    (ready [.write 4 0x000 6]).host.inputs = .write 4 0x000 6 :: [] := by decide

theorem witness_QueueSaysWhoMovesNext :
    (ready []).env.pending = none ∧ (ready []).host.inputs = [] ∧
    (ready [.turn]).host.inputs = .turn :: [] ∧ (ready [.poll]).host.inputs = .poll :: [] ∧
    (ready [.poll]).blk.busy = false ∧
    ((embAt .idle 0 0).setInputs [.poll]).host.inputs = .poll :: [] ∧
    ((embAt .idle 0 0).setInputs [.poll]).blk.busy = true := by decide

theorem witness_SequencerMovesExactlyWhileBusy :
    (Inv (ready []) ∧ (ready []).env.pending = none ∧ (ready []).blk.busy = false) ∧
    (Inv (embAt .idle 0 0) ∧ (embAt .idle 0 0).env.pending = none ∧
      (embAt .idle 0 0).blk.busy = true) ∧
    (Inv (extAt .payload 0 90 1 1) ∧ (extAt .payload 0 90 1 1).blk.busy = true) :=
  ⟨⟨inv_ready _, rfl, rfl⟩, ⟨inv_embAt.1, rfl, rfl⟩, ⟨inv_extAt.2.2.2, rfl⟩⟩

/-! #### Host access -/

theorem witness_HostReadsHaveNoEffect :
    Inv (ready [.read 4 0x03C]) ∧ (ready [.read 4 0x03C]).env.pending = none ∧
    (ready [.read 4 0x03C]).host.inputs = .read 4 0x03C :: [] ∧
    regAt tiny 0x03C = some .paramPayBufCap ∧ regAt tiny 0x17C = some (.lane 31) ∧
    regAt tiny 0x404 = some (.ext 1) ∧ regAt tiny 0x800 = some (.marker 0) ∧
    regAt tiny 0x040 = none ∧ regAt tiny 0x408 = none ∧ regAt tiny 0xFFC = none :=
  ⟨inv_ready _, by decide⟩

theorem witness_RegisterMapContents :
    tiny.Wf ∧ 31 < 32 ∧ 1 < tiny.extBufCap ∧ 0 < tiny.markerLen ∧
    (regAt tiny (0x100 + 4 * 31) = some (.lane 31) ∧ regAt tiny (0x400 + 4 * 1) = some (.ext 1) ∧
      regAt tiny (0x800 + 4 * 0) = some (.marker 0)) ∧
    regAt tiny 0x0FC = none ∧ regAt tiny 0x180 = none ∧ regAt tiny (0x400 + 4 * 2) = none ∧
    regAt tiny (0x800 + 4 * 1) = none ∧ regAt tiny 0xC00 = none := by decide

/-- At the largest capacity the EXT file reaches the end of its range: EXT[255] stands at 0x7FC. -/
theorem witness_RegisterMapContents_largest :
    let c := { tiny with extBufCap := 256 }
    c.Wf ∧ regAt c 0x7FC = some (.ext 255) ∧ regAt c 0x800 = some (.marker 0) := by decide

theorem witness_PartialOrMisalignedAccessIsRefused :
    (ready [.read 1 0x018]).env.pending = none ∧
    (ready [.read 1 0x018]).host.inputs = .read 1 0x018 :: [] ∧
    (ready [.write 4 0x006 0]).host.inputs = .write 4 0x006 0 :: [] ∧
    (ready [.write 4 0x1000 0]).host.inputs = .write 4 0x1000 0 :: [] ∧
    (1 : Nat) ≠ 4 ∧ 0x006 % 4 ≠ 0 ∧ 0x1000 ≤ 0x1000 := by decide

theorem witness_WritesOutsideReadyAreLost :
    ((finished [.write 4 0x018 1]).env.pending = none ∧
      (finished [.write 4 0x018 1]).blk.done = true ∧
      (finished [.write 4 0x018 1]).host.inputs = .write 4 0x018 1 :: []) ∧
    ((failed [.write 4 0x000 0]).env.pending = none ∧ (failed [.write 4 0x000 0]).blk.fail = true ∧
      (failed [.write 4 0x000 0]).host.inputs = .write 4 0x000 0 :: []) ∧
    (embAt .idle 0 0).blk.busy = true := by decide

theorem witness_HostWriteRule :
    (ready [.write 4 0x17C 0x1FF]).env.pending = none ∧ Ready (ready [.write 4 0x17C 0x1FF]).blk ∧
    (ready [.write 4 0x17C 0x1FF]).host.inputs = .write 4 0x17C 0x1FF :: [] ∧
    0x17C = 0x100 + 4 * 31 ∧ 0x404 = 0x400 + 4 * 1 ∧ 1 < tiny.extBufCap ∧
    regAt tiny 0x004 = some .status ∧ HostReg.status ≠ .ctrl ∧ HostReg.status.writable = false ∧
    regAt tiny 0x408 = none ∧ ¬Ready (finished [.write 4 0x018 1]).blk := by decide

theorem witness_WriteThenReadBack :
    Inv (ready []) ∧ (HostReg.lane 31).writable = true ∧ (HostReg.lane 31).inMap tiny = true ∧
    (HostReg.ext 1).writable = true ∧ (HostReg.ext 1).inMap tiny = true ∧
    HostReg.carrierLenHi.writable = true ∧ HostReg.carrierLenLo.inMap tiny = true ∧
    HostReg.lane 30 ≠ HostReg.lane 31 :=
  ⟨inv_ready _, by decide⟩

theorem witness_RegisterOffsetsAreUnique : tiny.Wf ∧ cfgRef.Wf := by decide

/-! #### STATUS and reset -/

theorem witness_StatusWordFields : Inv (ready []) ∧ (ready []).blk.fail = false := ⟨inv_ready _, rfl⟩


theorem witness_ResetEventSetsEveryRegister :
    (failed [.reset]).host.inputs = .reset :: [] ∧ (hung [.reset]).host.inputs = .reset :: [] := by
  decide

/-! #### NOP, the leaf commands, the codec -/

theorem witness_NopChangesNothing : Ready (ready []).blk ∧ ¬Ready (failed []).blk := by decide

theorem witness_Pack8WritesValIntoLaneLsbs :
    Ready (ready []).blk ∧ (ready []).blk.lane.length = 32 ∧ 7 < 8 ∧ 8 ≤ 8 ∧ 1 ≤ 1 := by decide

theorem witness_Pack32WritesValIntoLaneLsbs :
    Ready (ready []).blk ∧ (ready []).blk.lane.length = 32 ∧ 31 < 32 ∧ 1 ≤ 7 := by decide

theorem witness_Unpack8ReadsLaneLsbs : Ready (ready []).blk ∧ 7 < 8 ∧ 8 ≤ 31 := by decide

theorem witness_Unpack32ReadsLaneLsbs : Ready (ready []).blk ∧ 31 < 32 := by decide

theorem witness_LeafCommandsCompleteAndKeepTheRest :
    (∀ i ∈ [Instr.nop, .pack8, .pack32, .unpack8, .unpack32],
      i ∈ [Instr.nop, .pack8, .pack32, .unpack8, .unpack32]) ∧
    Instr.pack32 ∈ [Instr.nop, .pack8, .pack32] ∧ Instr.unpack32 ∈ [Instr.nop, .unpack8, .unpack32] ∧
    Ready (ready []).blk ∧ ¬Ready (finished []).blk := by decide

theorem witness_CommandsAreRefusedOutsideReady :
    ¬Ready (failed []).blk ∧ ¬Ready (finished []).blk ∧ ¬Ready (embAt .idle 0 0).blk := by decide

theorem witness_UnpackInvertsPack :
    (lanesK1.take 8).length = 8 ∧ lanesK1.length = 32 := by decide

theorem witness_PackChangesOnlyBitZero :
    (lanesK1.take 8).length = 8 ∧ lanesK1.length = 32 ∧ 7 < 8 ∧ 31 < 32 ∧ 1 ≤ 1 := by decide

theorem witness_LengthIsFourBytesMostSignificantFirst : lanesK1.length = 32 := by decide

/-- The carriers `10 21 32 …` and `00 01 00 01 …` have the same LSBs and are not the same. -/
theorem witness_FurtherCodecLaws :
    (lanesK1.take 8).length = 8 ∧ lanesK1.length = 32 ∧
    (∀ i, i < 8 → (lanesK1.take 8).getD i 0 &&& 1#8 =
      ([0, 1, 0, 1, 0, 1, 0, 1] : List Byte).getD i 0 &&& 1#8) ∧
    (∀ i, i < 32 → lanesK1.getD i 0 &&& 1#8 =
      ([0, 1, 0, 1, 0, 1, 0, 1] : List Byte).getD i 0 &&& 1#8) ∧
    packByte 0xC3 (lanesK1.take 8) = packByte 0xC3 (lanesK1.take 8) := by decide

/-! #### EMBED and EXTRACT -/

theorem witness_EmbedChecksThenStarts : Ready (ready []).blk ∧ ¬Ready (failed []).blk := by decide
theorem witness_ExtractClearsThenStarts : Ready (ready []).blk ∧ ¬Ready (failed []).blk := by decide

theorem witness_HeaderCopyStep :
    RunningAt .embedder .idle (embAt .idle 0 0) ∧ CinHas (embAt .idle 0 0) 2 ∧
    (embAt .idle 0 0).env.plan.getD 0 .ok = .ok ∧
    CinReadFails (planned (embAt .idle 0 0) [.fail]) 2 ∧
    (planned (embAt .idle 0 0) [.ok, .fail]).env.plan.getD 1 .ok = .fail := by decide

/-- IDX = L - 1 and IDX = L, with L = 1. -/
theorem witness_MarkerEmbeddingStep :
    (RunningAt .embedder .header (embAt .header 0 2) ∧
      (embAt .header 0 2).blk.idx.toNat < (embAt .header 0 2).cfg.marker.length ∧
      CinHas (embAt .header 0 2) 8) ∧
    (RunningAt .embedder .header (embAt .header 1 10) ∧
      (embAt .header 1 10).blk.idx.toNat = (embAt .header 1 10).cfg.marker.length) := by decide

theorem witness_LengthEmbeddingSteps :
    (RunningAt .embedder .marker (embAt .marker 0 10) ∧ CinHas (embAt .marker 0 10) 32) ∧
    (RunningAt .embedder .ext (embAt .ext 0 50) ∧ CinHas (embAt .ext 0 50) 32) := by decide

/-- IDX = E - 1 and IDX = E, with E = 1. -/
theorem witness_ExtensionEmbeddingStep :
    (Inv (embAt .extLen 0 42) ∧ RunningAt .embedder .extLen (embAt .extLen 0 42) ∧
      (embAt .extLen 0 42).blk.idx.toNat < (embAt .extLen 0 42).blk.extLen.toNat ∧
      CinHas (embAt .extLen 0 42) 8) ∧
    (Inv (embAt .extLen 1 50) ∧ RunningAt .embedder .extLen (embAt .extLen 1 50) ∧
      (embAt .extLen 1 50).blk.idx.toNat = (embAt .extLen 1 50).blk.extLen.toNat) :=
  ⟨⟨inv_embAt.2.2.1, by decide⟩, ⟨inv_embAt.2.2.2.1, by decide⟩⟩

/-- IDX = P - 1 and IDX = P, with P = 1; each of the answers; PIN empty. -/
theorem witness_PayloadEmbeddingStep :
    let s := embAt .payLen 0 82
    (RunningAt .embedder .payLen s ∧ s.blk.idx.toNat < s.blk.payLen.toNat ∧
      s.env.pin.content[s.env.pin.pos]? = some 0x68 ∧ CinHas s 8) ∧
    ((planned s [.fail]).env.plan.getD 0 .ok = .fail ∧
      (planned s [.ok, .fail]).env.plan.getD 1 .ok = .fail ∧
      (planned s [.ok, .ok, .fail]).env.plan.getD 2 .ok = .fail) ∧
    (envOf [] []).pin.content.length < (envOf [] []).pin.pos + 1 ∧
    (RunningAt .embedder .payLen (embAt .payLen 1 90) ∧
      (embAt .payLen 1 90).blk.idx.toNat = (embAt .payLen 1 90).blk.payLen.toNat) := by decide

/-- CUR_IN = CARRIER_LEN - 1 and CUR_IN = CARRIER_LEN. -/
theorem witness_TailCopyStep :
    (Inv (embAt .payload 0 90) ∧ RunningAt .embedder .payload (embAt .payload 0 90) ∧
      (embAt .payload 0 90).blk.curIn.toNat < (embAt .payload 0 90).blk.carrierLen.toNat ∧
      CinHas (embAt .payload 0 90) 1) ∧
    (RunningAt .embedder .payload (embAt .payload 0 91) ∧
      (embAt .payload 0 91).blk.curIn = (embAt .payload 0 91).blk.carrierLen) :=
  ⟨⟨inv_embAt.2.2.2.2.2, by decide⟩, by decide⟩

theorem witness_FinalStepSetsDone :
    RunningAt .embedder .output (embAt .output 0 91) ∧
    RunningAt .extractor .output (extAt .output 0 90 1 1) := by decide

theorem witness_HeaderSkipStep :
    RunningAt .extractor .idle (extAt .idle 0 0 0 0) ∧ CinHas (extAt .idle 0 0 0 0) 2 ∧
    CinReadFails (planned (extAt .idle 0 0 0 0) [.fail]) 2 := by decide

/-- IDX = L - 1 and IDX = L; a marker buffer that matches and one that does not. -/
theorem witness_MarkerDecodeThenVerify :
    (RunningAt .extractor .header (extAt .header 0 2 0 0) ∧
      (extAt .header 0 2 0 0).blk.idx.toNat < (extAt .header 0 2 0 0).cfg.marker.length) ∧
    (Inv (extAt .header 1 10 0 0) ∧ RunningAt .extractor .header (extAt .header 1 10 0 0) ∧
      (extAt .header 1 10 0 0).blk.idx.toNat = (extAt .header 1 10 0 0).cfg.marker.length ∧
      (∀ j, j < tiny.marker.length → bufGet (extAt .header 1 10 0 0).blk.mbuf j = tiny.marker[j]?)) ∧
    (0 < tiny.marker.length ∧ bufGet [(0, 0x40)] 0 ≠ tiny.marker[0]?) :=
  ⟨by decide, ⟨inv_extAt.1, by decide, by decide, by decide⟩, by decide⟩

theorem witness_ExtensionLengthGuard :
    RunningAt .extractor .marker (extAt .marker 0 10 0 0) ∧ CinHas (extAt .marker 0 10 0 0) 32 ∧
    tiny.extBufCap ≤ 2 ∧ ¬tiny.extBufCap ≤ 1 := by decide

/-- IDX = E - 1 and IDX = E. -/
theorem witness_ExtensionDecodeThenTerminate :
    (Inv (extAt .extLen 0 42 1 0) ∧ RunningAt .extractor .extLen (extAt .extLen 0 42 1 0) ∧
      (extAt .extLen 0 42 1 0).blk.idx.toNat < (extAt .extLen 0 42 1 0).blk.extLen.toNat) ∧
    (Inv (extAt .extLen 1 50 1 0) ∧ RunningAt .extractor .extLen (extAt .extLen 1 50 1 0) ∧
      (extAt .extLen 1 50 1 0).blk.idx.toNat = (extAt .extLen 1 50 1 0).blk.extLen.toNat) :=
  ⟨⟨inv_extAt.2.1, by decide⟩, ⟨inv_extAt.2.2.1, by decide⟩⟩

theorem witness_PayloadLengthDecode :
    RunningAt .extractor .ext (extAt .ext 0 50 1 0) ∧ CinHas (extAt .ext 0 50 1 0) 32 := by decide

/-- PAY_LEN = PAY_BUF_CAP + 1 and PAY_LEN = PAY_BUF_CAP, with IDX = P - 1 and IDX = P. -/
theorem witness_ResourceCheckThenPayloadDecode :
    (Inv (extAt .payLen 0 82 1 2) ∧ RunningAt .extractor .payLen (extAt .payLen 0 82 1 2) ∧
      tiny.payBufCap < (extAt .payLen 0 82 1 2).blk.payLen.toNat) ∧
    (RunningAt .extractor .payLen (extAt .payLen 0 82 1 1) ∧
      (extAt .payLen 0 82 1 1).blk.payLen.toNat ≤ tiny.payBufCap ∧
      (extAt .payLen 0 82 1 1).blk.idx.toNat < (extAt .payLen 0 82 1 1).blk.payLen.toNat) ∧
    (RunningAt .extractor .payLen (extAt .payLen 1 90 1 1) ∧
      (extAt .payLen 1 90 1 1).blk.idx.toNat = (extAt .payLen 1 90 1 1).blk.payLen.toNat) :=
  ⟨⟨inv_resource, by decide⟩, by decide⟩

theorem witness_OutputWriteIsOneTransaction :
    Inv (extAt .payload 0 90 1 1) ∧ RunningAt .extractor .payload (extAt .payload 0 90 1 1) ∧
    (extAt .payload 0 90 1 1).env.plan.getD 0 .ok = .ok ∧
    (planned (extAt .payload 0 90 1 1) [.fail]).env.plan.getD 0 .ok = .fail :=
  ⟨inv_extAt.2.2.2, by decide⟩

/-! #### Failures, waiting, invariants -/

/-- A step whose one transaction fails, and one whose two transactions succeed. -/
theorem witness_FailedTransactionIsTheOnlyIOError :
    (Inv (planned (embAt .idle 0 0) [.fail]) ∧ (planned (embAt .idle 0 0) [.fail]).blk.busy = true ∧
      after (sequencerTurn (planned (embAt .idle 0 0) [.fail])) (fun t => t.env.history) =
        some [.readFail .cin 2]) ∧
    (Inv (embAt .idle 0 0) ∧
      after (sequencerTurn (embAt .idle 0 0)) (fun t => t.env.history) =
        some [.readOk .cin 2 [0, 0], .writeOk .sout [0, 0]]) :=
  ⟨⟨inv_embedder (by decide) (by decide) (by decide) rfl rfl (by decide) rfl, by decide, by decide⟩,
    ⟨inv_embAt.1, by decide⟩⟩

theorem witness_TerminalStatesLeaveOnlyByReset :
    (Inv (failed [.write 4 0x000 5]) ∧ Terminal (failed [.write 4 0x000 5]).blk ∧
      answersAfter (step (failed [.write 4 0x000 5])) = some [.refused]) ∧
    (Inv (finished [.reset]) ∧ Terminal (finished [.reset]).blk ∧
      blkAfter (step (finished [.reset])) = some idle) :=
  ⟨⟨inv_failed _, by decide⟩, ⟨inv_finished _, by decide⟩⟩

theorem witness_PhaseAdvancesByOneOrResets :
    (blkAfter (step (embAt .idle 0 0))).map Block.phase = some .header ∧
    (blkAfter (step (failed [.reset]))).map Block.phase = some .idle ∧
    (blkAfter (step (embAt .header 0 2))).map Block.phase = some .header := by decide

theorem witness_UnansweredTransactionWaitsForReset :
    after (sequencerTurn (planned (embAt .idle 0 0) [.ok, .never])) (fun t => t.env.pending.isSome) =
      some true ∧
    ((hung []).env.pending.isSome = true ∧ (∀ rest, (hung []).host.inputs ≠ .reset :: rest)) ∧
    (hung [.reset]).host.inputs = .reset :: [] := by
  refine ⟨by decide, ⟨by decide, ?_⟩, by decide⟩
  intro rest h
  cases h

theorem witness_EveryStepKeepsTheInvariant :
    Inv (embAt .idle 0 0) ∧ (blkAfter (step (embAt .idle 0 0))).map Block.idx = some 0 :=
  ⟨inv_embAt.1, by decide⟩

theorem witness_EmbedderCursorsStaySynchronised :
    (embAt .idle 0 0).blk.busy = true ∧ (embAt .idle 0 0).blk.mode = .embedder ∧
    Inv (embAt .idle 0 0) ∧
    (blkAfter (step (embAt .idle 0 0))).map (fun b => (b.mode, b.curIn)) = some (.embedder, 2) :=
  ⟨rfl, rfl, inv_embAt.1, by decide⟩

theorem witness_NoStepStopsUnderTheInvariant :
    (Inv (ready []) ∧ (ready []).env.pending = none) ∧
    (Inv (hung [.reset]) ∧ ∃ rest, (hung [.reset]).host.inputs = .reset :: rest) :=
  ⟨⟨inv_ready _, rfl⟩, ⟨inv_hung _, [], rfl⟩⟩

theorem witness_ConfigurationAndUnusedRegistersStay :
    (blkAfter (sequencerTurn (embAt .idle 0 0))).isSome = true ∧
    (embAt .idle 0 0).blk.mode = .embedder ∧
    (blkAfter (sequencerTurn (extAt .output 0 90 1 1))).isSome = true ∧
    (extAt .output 0 90 1 1).blk.mode = .extractor := by decide

/-! #### Whole runs -/

/-- The capacity at its threshold: 90 carrier bytes, E = P = 1. -/
theorem witness_EmbedRunProducesTheStegoStream :
    let s := stateOf tiny { idle with carrierLen := 90, extLen := 1, payLen := 1, ext := [0x74, 0] }
      [.write 4 0x000 (encode .embed)] (envOf (List.replicate 90 0) [0x68])
    Inv s ∧ Ready s.blk ∧ s.env.pending = none ∧
    s.host.inputs = [.write 4 0x000 (encode .embed)] ∧ WellBehaved s.env ∧
    s.env.cin.pos = 0 ∧ s.env.pin.pos = 0 ∧ s.env.sout = [] ∧
    s.blk.carrierLen.toNat = s.env.cin.content.length ∧
    s.blk.payLen.toNat ≤ s.env.pin.content.length ∧ s.blk.extLen.toNat < s.cfg.extBufCap ∧
    s.cfg.headerSize + s.cfg.required s.blk.extLen.toNat s.blk.payLen.toNat ≤
      s.env.cin.content.length :=
  ⟨inv_embedder (by decide) (by decide) (by decide) rfl rfl (by decide) rfl, by decide⟩

theorem witness_ExtractRunEndsAsTheTestsSay :
    let s := stateOf tiny idle [.write 4 0x000 (encode .extract)] (envOf (List.replicate 90 0) [])
    Inv s ∧ Ready s.blk ∧ s.env.pending = none ∧
    s.host.inputs = [.write 4 0x000 (encode .extract)] ∧ WellBehaved s.env ∧
    s.env.cin.pos = 0 ∧ s.env.pout = [] :=
  ⟨inv_embedder (by decide) (by decide) (by decide) rfl rfl (by decide) rfl, by decide⟩

theorem witness_ExtractInvertsEmbed :
    tiny.Wf ∧ ([0x74] : List Byte).length < tiny.extBufCap ∧
    ([0x68] : List Byte).length ≤ tiny.payBufCap ∧
    tiny.headerSize + tiny.required ([0x74] : List Byte).length ([0x68] : List Byte).length ≤
      (List.replicate 90 (0x55 : Byte)).length := by decide

theorem witness_EmbeddingChangesOnlyBitZero :
    tiny.headerSize + tiny.required ([0x74] : List Byte).length ([0x68] : List Byte).length ≤
      (List.replicate 91 (0x55 : Byte)).length ∧
    (1 < tiny.headerSize ∧ tiny.headerSize + tiny.required 1 1 ≤ 90) ∧
    89 < (List.replicate 91 (0x55 : Byte)).length ∧ 1 ≤ 7 := by decide

theorem witness_AllZeroLsbsFailWithFormatError :
    tiny.Wf ∧ tiny.headerSize + 8 * tiny.markerLen ≤ (List.replicate 10 (0xFE : Byte)).length ∧
    (∀ b ∈ List.replicate 10 (0xFE : Byte), b &&& 1#8 = 0#8) := by decide

theorem witness_EveryAnsweredRunEnds :
    (Inv (embAt .idle 0 0) ∧ (embAt .idle 0 0).blk.busy = true ∧ (embAt .idle 0 0).host.inputs = [] ∧
      AlwaysAnswers (embAt .idle 0 0).env ∧ (embAt .idle 0 0).blk.mode = .embedder) ∧
    (Inv (extAt .payload 0 90 1 1) ∧ (extAt .payload 0 90 1 1).host.inputs = [] ∧
      AlwaysAnswers (extAt .payload 0 90 1 1).env ∧
      (extAt .payload 0 90 1 1).blk.mode = .extractor) :=
  ⟨⟨inv_embAt.1, by decide⟩, ⟨inv_extAt.2.2.2, by decide⟩⟩

theorem witness_ScriptLinesAreHostWrites :
    Ready (ready []).blk ∧ (ready []).env.pending = none ∧ (ready []).host.inputs = [] := by decide

theorem witness_WaitReadsStatusUntilIdle :
    (Inv (embAt .idle 0 0) ∧ (embAt .idle 0 0).host.inputs = [] ∧
      AlwaysAnswers (embAt .idle 0 0).env ∧ (embAt .idle 0 0).blk.busy = true) ∧
    (Inv (finished []) ∧ (finished []).host.inputs = [] ∧ AlwaysAnswers (finished []).env ∧
      (finished []).blk.busy = false) :=
  ⟨⟨inv_embAt.1, by decide⟩, ⟨inv_finished _, by decide⟩⟩

end Sys2Proof.Tests
end

section
/-! PROOF of O52 (00_scope.md section 4; 10_state.md rules R22 to R25, R34 to R36). The configuration is
read off `step_kind`; the registers off the moves of `Stepped`; the streams, of which `Stepped` says
nothing, off the transactions that the step rules issue. -/

namespace Sys2Proof.Machine

/-! ### The configuration -/

theorem StepKind.cfg_eq {s t : State} (h : StepKind s t) : t.cfg = s.cfg := by
  cases h with
  | reset rest _ ht => rw [ht, resetBlock_cfg, State.setInputs_cfg]
  | quiet _ hc => exact hc
  | wrote _ u hu off r w _ _ _ ht => rw [ht, State.answer_cfg, State.onBlk_cfg, hu.1]
  | command _ u hu i _ ht => rw [ht, State.answer_cfg, effectOf_cfg, hu.1]
  | embed _ u hu _ _ ht => rw [ht.1, hu.1]
  | extract _ u hu _ _ ht => rw [ht.1, hu.1]

/-! ### The registers -/

/-- A relation of blocks holds over a sequencer step when it is reflexive there and holds over an
IOError and over every move. -/
theorem Stepped.blk_rel {s t : State} {M : Block → Prop} {R : Block → Block → Prop}
    (h : Stepped s t M) (hwait : R s.blk s.blk) (hfail : R s.blk (s.blk.failed .ioError))
    (hmove : ∀ b, M b → R s.blk b) : R s.blk t.blk := by
  obtain ⟨-, -, ⟨-, hb⟩ | ⟨-, -, hb⟩ | ⟨-, hm⟩⟩ := h
  · rw [hb]; exact hwait
  · rw [hb]; exact hfail
  · exact hmove _ hm

/-- `b'` has the registers of `b` that no step of a run in mode `m` writes (rules R22 to R25, R34,
R35). -/
def RegsKept (m : Mode) (b b' : Block) : Prop :=
  b'.val = b.val ∧ b'.lane = b.lane ∧ b'.carrierLen = b.carrierLen ∧ b'.mode = b.mode ∧
  (m = .embedder →
    b'.extLen = b.extLen ∧ b'.payLen = b.payLen ∧ b'.ext = b.ext ∧ b'.mbuf = b.mbuf ∧
    b'.pbuf = b.pbuf) ∧
  (m = .extractor → b'.curOut = b.curOut)

theorem RegsKept.refl (m : Mode) (b : Block) : RegsKept m b b :=
  ⟨rfl, rfl, rfl, rfl, fun _ => ⟨rfl, rfl, rfl, rfl, rfl⟩, fun _ => rfl⟩

/-- Failure entry writes FAIL, ERR and BUSY only (60_exceptions.md rule R216). -/
theorem RegsKept.failed (m : Mode) (k : FailKind) (b : Block) : RegsKept m b (b.failed k) :=
  RegsKept.refl m b

theorem EmbedMove.regsKept {c : Config} {b b' : Block} (h : EmbedMove c b b') :
    RegsKept .embedder b b' := by
  cases h <;> exact ⟨rfl, rfl, rfl, rfl, fun _ => ⟨rfl, rfl, rfl, rfl, rfl⟩, nofun⟩

theorem ExtractMove.regsKept {s : State} {b b' : Block} (h : ExtractMove s b b') :
    RegsKept .extractor b b' := by
  cases h <;> exact ⟨rfl, rfl, rfl, rfl, nofun, fun _ => rfl⟩

/-! ### The streams -/

/-- The streams that a run in mode `m` has no part in are in `t` as they were in `s`: POUT for the
Embedder, SOUT and PIN for the Extractor (20_memory.md rule R60). -/
def OtherPortsKept (m : Mode) (s t : State) : Prop :=
  (m = .embedder → t.env.pout = s.env.pout) ∧
  (m = .extractor → t.env.sout = s.env.sout ∧ t.env.pin = s.env.pin)

theorem OtherPortsKept.refl (m : Mode) (s : State) : OtherPortsKept m s s :=
  ⟨fun _ => rfl, fun _ => ⟨rfl, rfl⟩⟩

theorem OtherPortsKept.trans {m : Mode} {s u t : State} (h : OtherPortsKept m s u)
    (h' : OtherPortsKept m u t) : OtherPortsKept m s t :=
  ⟨fun hm => (h'.1 hm).trans (h.1 hm),
   fun hm => ⟨(h'.2 hm).1.trans (h.2 hm).1, (h'.2 hm).2.trans (h.2 hm).2⟩⟩

/-- A step that leaves the environment alone. -/
theorem OtherPortsKept.of_next {m : Mode} {s t u : State}
    (h : (Host.Outcome.next u : Result) = .next t) (he : u.env = s.env) : OtherPortsKept m s t := by
  cases h
  exact ⟨fun _ => by rw [he], fun _ => by rw [he]; exact ⟨rfl, rfl⟩⟩

/-- However a read comes out, it keeps the other streams if the rest of the step does; the Extractor
reads CIN only. -/
theorem OtherPortsKept.of_read {m : Mode} {p : InPort} {n : Nat} {s t : State}
    {k : List Byte → State → Result} (hp : m = .extractor → p = .cin)
    (h : readElseFail p n s k = .next t)
    (hk : ∀ bytes s1, k bytes s1 = .next t → OtherPortsKept m s1 t) : OtherPortsKept m s t := by
  rcases readElseFail_cases p n s k with ⟨-, -, h1⟩ | h1 | ⟨-, h1⟩ <;> rw [h1] at h
  · have hok : OtherPortsKept m s (s.onEnv (readEnv p n)) :=
      ⟨fun _ => by cases p <;> rfl, fun hm => by rw [hp hm]; exact ⟨rfl, rfl⟩⟩
    exact hok.trans (hk _ _ h)
  · cases h
    exact ⟨fun _ => by cases p <;> rfl, fun hm => by rw [hp hm]; exact ⟨rfl, rfl⟩⟩
  · cases h
    exact ⟨fun _ => by cases p <;> rfl, fun hm => by rw [hp hm]; exact ⟨rfl, rfl⟩⟩

/-- The output port that a run in mode `m` writes (41_embedder.md, 42_extractor.md rule R193). -/
def Mode.output (m : Mode) : OutPort :=
  match m with
  | .embedder => .sout
  | .extractor => .pout

/-- However a write to the output port of the mode comes out, it keeps the other streams if the rest of
the step does. -/
theorem OtherPortsKept.of_write {m : Mode} {bs : List Byte} {s t : State} {k : State → Result}
    (h : writeElseFail m.output bs s k = .next t)
    (hk : ∀ s1, k s1 = .next t → OtherPortsKept m s1 t) : OtherPortsKept m s t := by
  rcases writeElseFail_cases m.output bs s k with ⟨-, h1⟩ | ⟨-, h1⟩ | ⟨-, h1⟩ <;> rw [h1] at h
  · have hok : OtherPortsKept m s (s.onEnv (writeEnv m.output bs)) :=
      ⟨by rintro rfl; rfl, by rintro rfl; exact ⟨rfl, rfl⟩⟩
    exact hok.trans (hk _ h)
  · cases h
    exact ⟨by rintro rfl; rfl, by rintro rfl; exact ⟨rfl, rfl⟩⟩
  · cases h
    exact ⟨by rintro rfl; rfl, by rintro rfl; exact ⟨rfl, rfl⟩⟩

theorem embedByte_otherPorts {v : Byte} {s t : State} (h : embedByte v s = .next t) :
    OtherPortsKept .embedder s t :=
  .of_read nofun h fun _ _ h => .of_write (m := .embedder) h fun _ h => .of_next h rfl

theorem embedLength_otherPorts {v : Word} {p : Phase} {s t : State}
    (h : embedLength v p s = .next t) : OtherPortsKept .embedder s t :=
  .of_read nofun h fun _ _ h => .of_write (m := .embedder) h fun _ h => .of_next h rfl

/-- No step of the Embedder touches POUT. -/
theorem embedStep_otherPorts {s t : State} (h : embedStep s = .next t) :
    OtherPortsKept .embedder s t := by
  unfold embedStep at h
  cases hp : s.blk.phase <;> simp only [hp] at h
  case idle =>
    exact .of_read nofun h fun _ _ h => .of_write (m := .embedder) h fun _ h => .of_next h rfl
  case header =>
    unfold embedMarker at h
    split at h
    · exact embedByte_otherPorts h
    · exact .of_next h rfl
  case marker => exact embedLength_otherPorts h
  case extLen =>
    unfold embedExt at h
    split at h
    · split at h
      · exact embedByte_otherPorts h
      · cases h
    · exact .of_next h rfl
  case ext => exact embedLength_otherPorts h
  case payLen =>
    unfold embedPayload at h
    split at h
    · exact .of_read nofun h fun _ _ h => embedByte_otherPorts h
    · exact .of_next h rfl
  case payload =>
    unfold embedTail at h
    split at h
    · exact .of_read nofun h fun _ _ h => .of_write (m := .embedder) h fun _ h => .of_next h rfl
    · exact .of_next h rfl
  case output => exact .of_next h rfl
  case done => cases h

/-- An access to EXT touches no stream. -/
theorem OtherPortsKept.of_writeExt {m : Mode} {i : Nat} {v : Byte} {s t : State}
    {k : State → Result} (h : writeExt i v s k = .next t)
    (hk : ∀ s1, k s1 = .next t → OtherPortsKept m s1 t) : OtherPortsKept m s t := by
  unfold writeExt at h
  split at h
  · exact hk (s.onBlk _) h
  · cases h

/-- No step of the Extractor touches SOUT or PIN. -/
theorem extractStep_otherPorts {s t : State} (h : extractStep s = .next t) :
    OtherPortsKept .extractor s t := by
  have hcin : Mode.extractor = .extractor → InPort.cin = .cin := fun _ => rfl
  unfold extractStep at h
  cases hp : s.blk.phase <;> simp only [hp] at h
  case idle => exact .of_read hcin h fun _ _ h => .of_next h rfl
  case header =>
    unfold extractMarker at h
    split at h
    · exact .of_read hcin h fun _ _ h => .of_next h rfl
    · unfold verifyMarker at h
      split at h <;> exact .of_next h rfl
  case marker =>
    refine .of_read hcin h fun c s1 h => ?_
    dsimp only at h
    split at h <;> exact .of_next h rfl
  case extLen =>
    unfold extractExt at h
    split at h
    · exact .of_read hcin h fun _ _ h => .of_writeExt h fun _ h => .of_next h rfl
    · exact .of_writeExt h fun _ h => .of_next h rfl
  case ext => exact .of_read hcin h fun _ _ h => .of_next h rfl
  case payLen =>
    unfold extractPayload at h
    split at h
    · exact .of_next h rfl
    · split at h
      · exact .of_read hcin h fun _ _ h => .of_next h rfl
      · exact .of_next h rfl
  case payload => exact .of_write (m := .extractor) h fun _ h => .of_next h rfl
  case output => exact .of_next h rfl
  case done => cases h

/-! ### The sequencer's turn -/

theorem sequencerTurn_host {s t : State} (h : sequencerTurn s = .next t) : t.host = s.host := by
  rcases sequencerTurn_cases h with ⟨-, rfl⟩ | ⟨-, -, -, hh, -⟩ | ⟨-, -, -, hh, -⟩
  · rfl
  · exact hh
  · exact hh

theorem sequencerTurn_regsKept {s t : State} (h : sequencerTurn s = .next t) :
    RegsKept s.blk.mode s.blk t.blk := by
  rcases sequencerTurn_cases h with ⟨-, rfl⟩ | ⟨-, hm, hs⟩ | ⟨-, hm, hs⟩
  · exact .refl _ _
  · rw [hm]
    exact hs.blk_rel (.refl _ _) (.failed _ _ _) fun _ => EmbedMove.regsKept
  · rw [hm]
    exact hs.blk_rel (.refl _ _) (.failed _ _ _) fun _ => ExtractMove.regsKept

theorem sequencerTurn_otherPorts {s t : State} (h : sequencerTurn s = .next t) :
    OtherPortsKept s.blk.mode s t := by
  unfold sequencerTurn at h
  split at h
  · split at h
    · rename_i hm
      rw [hm]
      exact embedStep_otherPorts h
    · rename_i hm
      rw [hm]
      exact extractStep_otherPorts h
  · cases h
    exact .refl _ _

end Sys2Proof.Machine

namespace Sys2Proof

open Sys2Proof.Machine

/-- Settles O52: the configuration by the kinds of a step, the registers by the moves of a sequencer
step, the streams by the ports its transactions name. -/
theorem configurationAndUnusedRegistersStay : Obligations.ConfigurationAndUnusedRegistersStay := by
  refine ⟨fun s t h => (step_kind h).cfg_eq, fun s t h => ?_⟩
  obtain ⟨hval, hlane, hcarrier, hmode, hemb, hext⟩ := sequencerTurn_regsKept h
  obtain ⟨hpout, hother⟩ := sequencerTurn_otherPorts h
  refine ⟨hval, hlane, hcarrier, hmode, sequencerTurn_host h, fun hm => ?_, fun hm => ?_⟩
  · obtain ⟨hextLen, hpayLen, hfile, hmbuf, hpbuf⟩ := hemb hm
    exact ⟨hextLen, hpayLen, hfile, hmbuf, hpbuf, hpout hm⟩
  · exact ⟨hext hm, hother hm⟩

end Sys2Proof
end

section
/-! SUPPORT for the statements of 10_state.md. The invariant as a predicate of a configuration and a
block, and what it says of a run at one PHASE. -/

namespace Sys2Proof

open Sys2Proof.Machine

/-! ### The part of the invariant that speaks of the block -/

/-- What `Inv` says of the block under a configuration. -/
structure BlockOk (c : Config) (b : Block) : Prop where
  files     : FilesOk c b
  flags     : FlagsOk b
  stage     : StageOk b
  embedder  : b.mode = .embedder → EmbedderOk c b
  extractor : b.mode = .extractor → ExtractorOk c b

theorem Inv.blockOk {s : State} (h : Inv s) : BlockOk s.cfg s.blk :=
  ⟨h.files, h.flags, h.stage, h.embedder, h.extractor⟩

theorem BlockOk.inv {s : State} (h : BlockOk s.cfg s.blk) (hc : s.cfg.Wf)
    (hw : s.env.pending.isSome = true → s.blk.busy = true) : Inv s :=
  ⟨hc, h.files, h.flags, h.stage, h.embedder, h.extractor, hw⟩

/-- With no transaction unanswered nothing beyond the block and the configuration is asked. -/
theorem BlockOk.inv_of_none {s : State} (h : BlockOk s.cfg s.blk) (hc : s.cfg.Wf)
    (hp : s.env.pending = none) : Inv s :=
  h.inv hc fun hs => by rw [hp] at hs; cases hs

/-! ### Flags and stage (10_state.md rule R42, 60_exceptions.md rule R227) -/

/-- The flags of a run in progress. -/
structure Running (b : Block) : Prop where
  busy  : b.busy = true
  done  : b.done = false
  fail  : b.fail = false
  err   : b.err = none
  phase : b.phase ≠ .done

theorem BlockOk.running {c : Config} {b : Block} (h : BlockOk c b) (hb : b.busy = true) :
    Running b := by
  obtain ⟨hbusy, -, -, herr, hphase, -⟩ := h.flags
  obtain ⟨hdone, hfail⟩ := hbusy hb
  exact ⟨hb, hdone, hfail, herr.2 hfail, hphase hb⟩

/-- The flags and the stage of a block are as the invariant says. -/
abbrev StatusOk (b : Block) : Prop := FlagsOk b ∧ StageOk b

theorem Running.statusOk {b : Block} (h : Running b) : StatusOk b := by
  obtain ⟨hbusy, hdone, hfail, herr, hphase⟩ := h
  exact ⟨by simp [FlagsOk, hbusy, hdone, hfail, herr, hphase], by simp [StageOk, herr]⟩

theorem Running.finished {b : Block} (h : Running b) : StatusOk b.finished := by
  obtain ⟨-, -, hfail, herr, -⟩ := h
  exact ⟨by simp [FlagsOk, hfail, herr], by simp [StageOk, herr]⟩

/-- Failure entry out of a run, at one of the stages of rule R227. -/
theorem Running.failed {b : Block} (h : Running b) {k : FailKind}
    (hk : (b.mode, b.phase, k) ∈ failStages) : StatusOk (b.failed k) := by
  obtain ⟨-, hdone, -, -, hphase⟩ := h
  exact ⟨by simp [FlagsOk, hdone, hphase], by rintro _ ⟨⟩; exact hk⟩

/-- A move that keeps the flags and does not reach PHASE 8 leaves the run in progress. -/
theorem Running.goesOn {b b' : Block} (h : Running b) (hbusy : b'.busy = b.busy)
    (hdone : b'.done = b.done) (hfail : b'.fail = b.fail) (herr : b'.err = b.err)
    (hphase : b'.phase ≠ .done) : Running b' :=
  ⟨hbusy ▸ h.busy, hdone ▸ h.done, hfail ▸ h.fail, herr ▸ h.err, hphase⟩

/-- An IOError can end a run at every PHASE below 7 (rule R227). -/
theorem ioError_mem_failStages (m : Mode) {p : Phase} (ho : p ≠ .output) (hd : p ≠ .done) :
    (m, p, FailKind.ioError) ∈ failStages := by
  cases m <;> cases p <;> simp [failStages] at ho hd ⊢

/-! ### One PHASE of a run -/

/-- What `EmbedderOk` says of IDX and the cursor at PHASE `p`. -/
def EmbedderAt (c : Config) (b : Block) (p : Phase) : Prop :=
  match p with
  | .idle => b.idx.toNat = 0 ∧ b.curIn.toNat = 0
  | .header => b.idx.toNat ≤ c.markerLen ∧ b.curIn.toNat = c.headerSize + 8 * b.idx.toNat
  | .marker => b.idx.toNat = 0 ∧ b.curIn.toNat = c.headerSize + 8 * c.markerLen
  | .extLen =>
    b.idx.toNat ≤ b.extLen.toNat ∧
    b.curIn.toNat = c.headerSize + 8 * c.markerLen + 32 + 8 * b.idx.toNat
  | .ext =>
    b.idx.toNat = 0 ∧
    b.curIn.toNat = c.headerSize + 8 * c.markerLen + 32 + 8 * b.extLen.toNat
  | .payLen =>
    b.idx.toNat ≤ b.payLen.toNat ∧
    b.curIn.toNat =
      c.headerSize + 8 * c.markerLen + 32 + 8 * b.extLen.toNat + 32 + 8 * b.idx.toNat
  | .payload =>
    b.idx.toNat = 0 ∧
    c.headerSize + c.required b.extLen.toNat b.payLen.toNat ≤ b.curIn.toNat ∧
    b.curIn.toNat ≤ b.carrierLen.toNat
  | .output | .done => b.idx.toNat = 0 ∧ b.curIn = b.carrierLen

/-- What the start checks of EMBED have established (41_embedder.md rules R151, R152). -/
abbrev StartChecked (c : Config) (b : Block) : Prop :=
  b.extLen.toNat < c.extBufCap ∧
  c.headerSize + c.required b.extLen.toNat b.payLen.toNat ≤ b.carrierLen.toNat

theorem embedderOk_iff (c : Config) (b : Block) :
    EmbedderOk c b ↔
      b.curIn = b.curOut ∧ (b.busy = true ∨ b.phase ≠ .idle → StartChecked c b) ∧
      EmbedderAt c b b.phase := by
  cases hp : b.phase <;> simp [EmbedderOk, EmbedderAt, hp]

/-- What `ExtractorOk` says of IDX, the cursor, the results and the buffers at PHASE `p`. -/
def ExtractorAt (c : Config) (b : Block) (p : Phase) : Prop :=
  match p with
  | .idle => b.idx.toNat = 0 ∧ b.curIn.toNat = 0 ∧ b.extLen = 0 ∧ b.payLen = 0
  | .header =>
    b.idx.toNat ≤ c.markerLen ∧ b.curIn.toNat = c.headerSize + 8 * b.idx.toNat ∧
    b.extLen = 0 ∧ b.payLen = 0 ∧
    (∀ j, j < b.idx.toNat → (bufGet b.mbuf j).isSome = true) ∧
    (b.err = some .formatError → b.idx.toNat = c.markerLen)
  | .marker =>
    b.idx.toNat = 0 ∧ b.payLen = 0 ∧
    (b.err = some .bufferOverflowError →
      c.extBufCap ≤ b.extLen.toNat ∧
      b.curIn.toNat = c.headerSize + 8 * c.markerLen + 32) ∧
    (b.err ≠ some .bufferOverflowError →
      b.extLen = 0 ∧ b.curIn.toNat = c.headerSize + 8 * c.markerLen)
  | .extLen =>
    b.idx.toNat ≤ b.extLen.toNat ∧ b.payLen = 0 ∧
    b.curIn.toNat = c.headerSize + 8 * c.markerLen + 32 + 8 * b.idx.toNat
  | .ext =>
    b.idx.toNat = 0 ∧ b.payLen = 0 ∧
    b.curIn.toNat = c.headerSize + 8 * c.markerLen + 32 + 8 * b.extLen.toNat
  | .payLen =>
    b.idx.toNat ≤ b.payLen.toNat ∧
    (0 < b.idx.toNat → b.payLen.toNat ≤ c.payBufCap) ∧
    (∀ j, j < b.idx.toNat → (bufGet b.pbuf j).isSome = true) ∧
    (b.err = some .resourceError → c.payBufCap < b.payLen.toNat) ∧
    b.curIn.toNat =
      c.headerSize + 8 * c.markerLen + 32 + 8 * b.extLen.toNat + 32 + 8 * b.idx.toNat
  | .payload | .output | .done =>
    b.idx.toNat = 0 ∧ b.payLen.toNat ≤ c.payBufCap ∧
    (∀ j, j < b.payLen.toNat → (bufGet b.pbuf j).isSome = true) ∧
    b.curIn.toNat = c.headerSize + c.required b.extLen.toNat b.payLen.toNat

/-- The entries of EXT that are not yet written are 0x00 (93 U13). -/
abbrev ExtTailZero (b : Block) (n : Nat) : Prop :=
  ∀ j, n ≤ j → j < b.ext.length → b.ext[j]? = some 0x00#8

/-- The marker has been verified (42_extractor.md rule R183). -/
abbrev MarkerVerified (c : Config) (b : Block) (p : Phase) : Prop :=
  p ≠ .idle → p ≠ .header → ∀ j, j < c.markerLen → bufGet b.mbuf j = c.marker[j]?

/-- The extension length has passed the guard (rule R185). -/
abbrev ExtLenGuarded (c : Config) (b : Block) (p : Phase) : Prop :=
  p ≠ .idle → p ≠ .header → p ≠ .marker → b.extLen.toNat < c.extBufCap

theorem extractorOk_iff (c : Config) (b : Block) :
    ExtractorOk c b ↔
      b.curOut = 0 ∧ ExtTailZero b (extFilled b) ∧ MarkerVerified c b b.phase ∧
      ExtLenGuarded c b b.phase ∧ ExtractorAt c b b.phase := by
  cases hp : b.phase <;>
    simp [ExtractorOk, ExtractorAt, ExtTailZero, MarkerVerified, ExtLenGuarded, hp]

end Sys2Proof
end

section
/-! SUPPORT for O49 and O17. Reset, a host write and a command keep the part of the invariant that
speaks of the block. -/

namespace Sys2Proof

open Sys2Proof.Machine

/-! ### Reset -/

theorem blockOk_reset (c : Config) : BlockOk c (Block.reset c) where
  files := ⟨by simp [Block.reset], by simp [Block.reset], buf_nil_wf _, buf_nil_wf _⟩
  flags := by simp [FlagsOk, Block.reset]
  stage := nofun
  embedder _ := (embedderOk_iff c _).2 ⟨rfl, by simp [Block.reset], rfl, rfl⟩
  extractor := nofun

/-! ### READY -/

/-- In READY the block is Idle with no failure kind, and MODE is 0 (10_state.md rule R29). -/
theorem BlockOk.ready {c : Config} {b : Block} (h : BlockOk c b) (hr : Ready b) :
    b.mode = .embedder ∧ b.err = none := by
  obtain ⟨-, hbusy, hdone, hfail⟩ := hr
  obtain ⟨-, -, -, herr, -, hidle⟩ := h.flags
  exact ⟨(hidle hbusy hdone hfail).2, herr.2 hfail⟩

theorem BlockOk.ready_cursors {c : Config} {b : Block} (h : BlockOk c b) (hr : Ready b) :
    b.curIn = b.curOut ∧ b.idx.toNat = 0 ∧ b.curIn.toNat = 0 := by
  obtain ⟨hsync, -, hat⟩ := (embedderOk_iff c b).1 (h.embedder (h.ready hr).1)
  rw [hr.1] at hat
  exact ⟨hsync, hat⟩

/-- `b'` has the flags, MODE, IDX and cursors of `b`. -/
structure SameRun (b b' : Block) : Prop where
  phase  : b'.phase = b.phase
  mode   : b'.mode = b.mode
  busy   : b'.busy = b.busy
  done   : b'.done = b.done
  fail   : b'.fail = b.fail
  err    : b'.err = b.err
  idx    : b'.idx = b.idx
  curIn  : b'.curIn = b.curIn
  curOut : b'.curOut = b.curOut

/-- In READY the other registers are free, as long as the files stay in form. -/
theorem BlockOk.of_sameRun {c : Config} {b b' : Block} (h : BlockOk c b) (hr : Ready b)
    (hs : SameRun b b') (hf : FilesOk c b') : BlockOk c b' := by
  obtain ⟨hphase, hmode, hbusy, hdone, hfail, herr, hidx, hin, hout⟩ := hs
  have hm := (h.ready hr).1
  have hat := h.ready_cursors hr
  refine ⟨hf, ?_, ?_, fun _ => ?_, fun hx => ?_⟩
  · simpa only [FlagsOk, hphase, hmode, hbusy, hdone, hfail, herr] using h.flags
  · simpa only [StageOk, hphase, hmode, herr] using h.stage
  · obtain ⟨hidle, hnot, -, -⟩ := hr
    rw [embedderOk_iff, hphase, hidle, hbusy, hin, hout]
    exact ⟨hat.1, by simp [hnot], hidx ▸ hat.2.1, hin ▸ hat.2.2⟩
  · rw [hmode, hm] at hx
    cases hx

/-! ### Host writes and the leaf commands -/

theorem writeReg_sameRun (r : HostReg) (w : Word) (b : Block) : SameRun b (writeReg r w b) := by
  cases r <;> exact ⟨rfl, rfl, rfl, rfl, rfl, rfl, rfl, rfl, rfl⟩

theorem writeReg_files {c : Config} {b : Block} (h : FilesOk c b) (r : HostReg) (w : Word) :
    FilesOk c (writeReg r w b) := by
  obtain ⟨hlane, hext, hbufs⟩ := h
  cases r
  case lane i => exact ⟨by simpa [writeReg] using hlane, hext, hbufs⟩
  case ext i => exact ⟨hlane, by simpa [writeReg] using hext, hbufs⟩
  all_goals exact ⟨hlane, hext, hbufs⟩

theorem setLanes_sameRun (bs : List Byte) (b : Block) : SameRun b (setLanes bs b) :=
  ⟨rfl, rfl, rfl, rfl, rfl, rfl, rfl, rfl, rfl⟩

theorem setLanes_files {c : Config} {b : Block} (h : FilesOk c b) {bs : List Byte}
    (hbs : bs.length ≤ 32) : FilesOk c (setLanes bs b) := by
  obtain ⟨hlane, hrest⟩ := h
  refine ⟨?_, hrest⟩
  simp only [setLanes, List.length_append, List.length_drop, hlane]
  omega

theorem setVal_sameRun (v : Word) (b : Block) : SameRun b (setVal v b) :=
  ⟨rfl, rfl, rfl, rfl, rfl, rfl, rfl, rfl, rfl⟩

/-! ### EMBED and EXTRACT -/

/-- A start check of EMBED fails: MODE is 0 already, and failure entry follows at PHASE 0. -/
theorem BlockOk.embedRefused {c : Config} {b : Block} (h : BlockOk c b) (hr : Ready b)
    {k : FailKind} (hk : (Mode.embedder, Phase.idle, k) ∈ failStages) :
    BlockOk c ({ b with mode := .embedder }.failed k) := by
  obtain ⟨hsync, hat⟩ := h.ready_cursors hr
  obtain ⟨hidle, -, hdone, -⟩ := hr
  refine ⟨h.files, by simp [FlagsOk, hdone, hidle], ?_, fun _ => ?_, nofun⟩
  · rintro _ ⟨⟩
    simpa only [hidle] using hk
  · rw [embedderOk_iff]
    refine ⟨hsync, by simp [hidle], ?_⟩
    change EmbedderAt c _ b.phase
    rw [hidle]
    exact hat

/-- EMBED passes its start checks (41_embedder.md rule R150). -/
theorem BlockOk.embedStarted {c : Config} {b : Block} (h : BlockOk c b) (hr : Ready b)
    (hs : StartChecked c b) :
    BlockOk c { b with mode := .embedder, busy := true, idx := 0, curIn := 0, curOut := 0 } := by
  have herr := (h.ready hr).2
  obtain ⟨hidle, -, hdone, hfail⟩ := hr
  obtain ⟨hflags, hstage⟩ : StatusOk
      { b with mode := .embedder, busy := true, idx := 0, curIn := 0, curOut := 0 } :=
    Running.statusOk ⟨rfl, hdone, hfail, herr, by simp [hidle]⟩
  refine ⟨h.files, hflags, hstage, fun _ => ?_, nofun⟩
  rw [embedderOk_iff]
  refine ⟨rfl, fun _ => hs, ?_⟩
  simp [hidle, EmbedderAt]

theorem BlockOk.startEmbed {s : State} (h : BlockOk s.cfg s.blk) (hr : Ready s.blk) :
    BlockOk s.cfg (startEmbed s).blk := by
  rcases startEmbed_cases s with ⟨-, hs⟩ | ⟨-, -, hs⟩ | ⟨hext, hcap, hs⟩ <;> rw [hs]
  · exact h.embedRefused hr (by decide)
  · exact h.embedRefused hr (by decide)
  · exact h.embedStarted hr ⟨hext, hcap⟩

theorem BlockOk.startExtract {s : State} (h : BlockOk s.cfg s.blk) (hr : Ready s.blk) :
    BlockOk s.cfg (startExtract s).blk := by
  obtain ⟨hlane, -, hbufs⟩ := h.files
  have herr := (h.ready hr).2
  obtain ⟨hidle, -, hdone, hfail⟩ := hr
  obtain ⟨hflags, hstage⟩ : StatusOk (Machine.startExtract s).blk :=
    Running.statusOk ⟨rfl, hdone, hfail, herr, by simp [Machine.startExtract, hidle]⟩
  refine ⟨⟨hlane, List.length_replicate, hbufs⟩, hflags, hstage, nofun, fun _ => ?_⟩
  rw [extractorOk_iff]
  refine ⟨rfl, fun j _ hj => ?_, ?_, ?_, ?_⟩
  · simp only [Machine.startExtract, newHistory_blk, State.onBlk_blk, List.length_replicate] at hj ⊢
    simp [hj]
  all_goals simp [Machine.startExtract, hidle, ExtractorAt, MarkerVerified, ExtLenGuarded]

/-- Every accepted command keeps the block in form. -/
theorem BlockOk.effectOf {s : State} (h : BlockOk s.cfg s.blk) (hr : Ready s.blk) (i : Instr) :
    BlockOk s.cfg (effectOf i s).blk := by
  cases i with
  | nop => exact h
  | pack8 => exact h.of_sameRun hr (setLanes_sameRun _ _) (setLanes_files h.files (by simp))
  | pack32 => exact h.of_sameRun hr (setLanes_sameRun _ _) (setLanes_files h.files (by simp))
  | unpack8 => exact h.of_sameRun hr (setVal_sameRun _ _) h.files
  | unpack32 => exact h.of_sameRun hr (setVal_sameRun _ _) h.files
  | embed => exact h.startEmbed hr
  | extract => exact h.startExtract hr

end Sys2Proof
end

section
/-! SUPPORT for O49. The arithmetic of cursors and IDX; failure with IOError and every move of the
Embedder keep the part of the invariant that speaks of the block. -/

namespace Sys2Proof

open Sys2Proof.Machine

/-! ### Cursor and IDX arithmetic -/

theorem cursor_add {d : DWord} {n : Nat} (h : d.toNat + n < 18446744073709551616) :
    (d + BitVec.ofNat 64 n).toNat = d.toNat + n := by
  rw [BitVec.toNat_add, BitVec.toNat_ofNat]
  omega

theorem idx_succ {i : Word} (h : i.toNat + 1 < 4294967296) : (i + 1).toNat = i.toNat + 1 := by
  rw [BitVec.toNat_add, show (1 : Word).toNat = 1 from rfl]
  omega

/-! ### Failure with IOError -/

theorem EmbedderOk.failed {c : Config} {b : Block} (h : EmbedderOk c b) (k : FailKind) :
    EmbedderOk c (b.failed k) := by
  rw [embedderOk_iff] at h ⊢
  obtain ⟨hsync, hstart, hat⟩ := h
  exact ⟨hsync, fun hx => hstart (.inr (by simpa using hx)), hat⟩

/-- IOError adds nothing to what the other failure kinds leave (60_exceptions.md rule R211). -/
theorem ExtractorOk.ioFailed {c : Config} {b : Block} (h : ExtractorOk c b) (he : b.err = none) :
    ExtractorOk c (b.failed .ioError) := by
  rw [extractorOk_iff] at h ⊢
  obtain ⟨hout, htail, hmark, hguard, hat⟩ := h
  refine ⟨hout, htail, hmark, hguard, ?_⟩
  change ExtractorAt c _ b.phase
  cases hp : b.phase <;> rw [hp] at hat <;> simpa [ExtractorAt, he] using hat

theorem BlockOk.ioFailed {c : Config} {b : Block} (h : BlockOk c b) (hb : b.busy = true)
    (hq : b.phase ≠ .output) : BlockOk c (b.failed .ioError) := by
  have hr := h.running hb
  obtain ⟨hflags, hstage⟩ := hr.failed (ioError_mem_failStages b.mode hq hr.phase)
  exact ⟨h.files, hflags, hstage, fun hm => (h.embedder hm).failed _,
    fun hm => (h.extractor hm).ioFailed hr.err⟩

/-! ### The Embedder -/

theorem Machine.EmbedMove.statusOk {c : Config} {b b' : Block} (h : EmbedMove c b b') (hr : Running b) :
    StatusOk b' := by
  cases h
  case finish => exact hr.finished
  all_goals
    refine Running.statusOk ?_
    exact hr.goesOn rfl rfl rfl rfl (by simp [*])

/-- Both cursors move together (41_embedder.md rule R162). -/
theorem Machine.EmbedMove.synchronised {c : Config} {b b' : Block} (h : EmbedMove c b b')
    (hs : b.curIn = b.curOut) : b'.curIn = b'.curOut := by
  cases h <;> simp [hs]

/-- The IDX and cursor of each PHASE follow from those of the PHASE before. -/
theorem Machine.EmbedMove.embedderAt {c : Config} {b b' : Block} (hc : c.Wf) (hs : StartChecked c b)
    (h : EmbedMove c b b') (hat : EmbedderAt c b b.phase) : EmbedderAt c b' b'.phase := by
  obtain ⟨hhead, ⟨-, hmark⟩, -, ⟨-, hcap⟩, -⟩ := hc
  have hmark : c.markerLen ≤ 256 := hmark
  obtain ⟨hext, hneed⟩ := hs
  have hpay := b.payLen.isLt
  have hlen := b.carrierLen.isLt
  simp only [Config.required] at hneed
  cases h with
  | header hp =>
    rw [hp] at hat
    obtain ⟨-, hcur⟩ := hat
    have hadd := cursor_add (d := b.curIn) (n := c.headerSize) (by omega)
    simp only [EmbedderAt, hadd]
    simp [hcur]
  | markerByte hp hi =>
    simp only [hp, EmbedderAt] at hat ⊢
    rw [cursor_add (by omega), idx_succ (by omega)]
    omega
  | markerEnd hp hi =>
    simp only [hp, EmbedderAt] at hat ⊢
    exact ⟨rfl, by omega⟩
  | extLen hp =>
    simp only [hp, EmbedderAt] at hat ⊢
    rw [cursor_add (by omega)]
    simp; omega
  | extByte hp hi =>
    simp only [hp, EmbedderAt] at hat ⊢
    rw [cursor_add (by omega), idx_succ (by omega)]
    omega
  | extEnd hp hi =>
    simp only [hp, EmbedderAt] at hat ⊢
    exact ⟨rfl, by omega⟩
  | payLen hp =>
    simp only [hp, EmbedderAt] at hat ⊢
    rw [cursor_add (by omega)]
    simp; omega
  | payByte hp hi =>
    simp only [hp, EmbedderAt] at hat ⊢
    rw [cursor_add (by omega), idx_succ (by omega)]
    omega
  | payEnd hp hi =>
    simp only [hp, EmbedderAt, Config.required] at hat ⊢
    exact ⟨rfl, by omega, by omega⟩
  | tailByte hp hi =>
    simp only [hp, EmbedderAt, Config.required] at hat ⊢
    rw [cursor_add (by omega)]
    omega
  | tailEnd hp hi =>
    simp only [hp, EmbedderAt] at hat ⊢
    exact ⟨rfl, BitVec.eq_of_toNat_eq (by omega)⟩
  | finish hp =>
    simpa only [hp, EmbedderAt] using hat

theorem Machine.EmbedMove.blockOk {c : Config} {b b' : Block} (hc : c.Wf) (h : BlockOk c b)
    (hb : b.busy = true) (hm : b.mode = .embedder) (hmv : EmbedMove c b b') : BlockOk c b' := by
  obtain ⟨-, hlane, hcarrier, hmode, hkept, -⟩ := hmv.regsKept
  obtain ⟨hextLen, hpayLen, hext, hmbuf, hpbuf⟩ := hkept rfl
  obtain ⟨hflags, hstage⟩ := hmv.statusOk (h.running hb)
  obtain ⟨hsync, hstart, hat⟩ := (embedderOk_iff c b).1 (h.embedder hm)
  have hstart := hstart (.inl hb)
  refine ⟨?_, hflags, hstage, fun _ => ?_, fun hx => ?_⟩
  · simpa only [FilesOk, hlane, hext, hmbuf, hpbuf] using h.files
  · rw [embedderOk_iff]
    refine ⟨hmv.synchronised hsync, fun _ => ?_, hmv.embedderAt hc hstart hat⟩
    simpa only [StartChecked, hextLen, hpayLen, hcarrier] using hstart
  · rw [hmode, hm] at hx
    cases hx

end Sys2Proof
end

section
/-! SUPPORT for O49. Every move of the Extractor keeps the part of the invariant that speaks of the
block: the flags, the register files, the entries of EXT not yet written, the verified marker, and
IDX, cursor and results at each PHASE. -/

namespace Sys2Proof

open Sys2Proof.Machine

theorem Machine.ExtractMove.statusOk {s : State} {b b' : Block} (h : ExtractMove s b b')
    (hr : Running b) (hm : b.mode = .extractor) : StatusOk b' := by
  cases h
  case finish => exact hr.finished
  case markerBad hp _ _ => exact hr.failed (by simp [hm, hp, failStages])
  case resource hp _ => exact hr.failed (by simp [hm, hp, failStages])
  case extLenBad w hp _ =>
    have hr' : Running ({ b with extLen := w }.movedIn 32) := hr.goesOn rfl rfl rfl rfl hr.phase
    exact hr'.failed (by simp [hm, hp, failStages])
  all_goals
    refine Running.statusOk ?_
    exact hr.goesOn rfl rfl rfl rfl (by simp [*])

theorem Machine.ExtractMove.files {s : State} {b b' : Block} (h : ExtractMove s b b')
    (hf : FilesOk s.cfg b) : FilesOk s.cfg b' := by
  obtain ⟨hlane, hext, hmbuf, hpbuf⟩ := hf
  cases h
  case markerByte v hp hi => exact ⟨hlane, hext, bufPut_wf hmbuf hi, hpbuf⟩
  case payByte v hp hr hi => exact ⟨hlane, hext, hmbuf, bufPut_wf hpbuf (by omega)⟩
  case extByte v hp hi hx => exact ⟨hlane, by simpa using hext, hmbuf, hpbuf⟩
  case extEnd hp hi hx => exact ⟨hlane, by simpa using hext, hmbuf, hpbuf⟩
  all_goals exact ⟨hlane, hext, hmbuf, hpbuf⟩

/-- A move writes EXT only at the first entry not yet counted as filled, or at EXT_LEN with 0x00
(42_extractor.md rules R186, R187). -/
theorem Machine.ExtractMove.extTailZero {s : State} {b b' : Block} (h : ExtractMove s b b')
    (hat : ExtractorAt s.cfg b b.phase) (hz : ExtTailZero b (extFilled b)) :
    ExtTailZero b' (extFilled b') := by
  cases h
  case extByte v hp hi hx =>
    have hidx : (b.idx + 1).toNat = b.idx.toNat + 1 := idx_succ (by have := b.extLen.isLt; omega)
    simp only [extFilled, hp, hidx] at hz ⊢
    intro j hj hlt
    rw [List.length_set] at hlt
    rw [List.getElem?_set_ne (by omega)]
    exact hz j (by omega) hlt
  case extEnd hp hi hx =>
    simp only [hp, ExtractorAt] at hat
    simp only [extFilled, hp] at hz ⊢
    intro j hj hlt
    rw [List.length_set] at hlt
    by_cases hje : b.extLen.toNat = j
    · rw [hje, List.getElem?_set_self hlt]
    · rw [List.getElem?_set_ne hje]
      exact hz j (by omega) hlt
  all_goals simp_all [extFilled, ExtTailZero]

/-- The first bytes of MBUF, where all are written, are its entries (10_state.md rule R37). -/
theorem bufGet_of_mbufPrefix_eq {s : State} {l : List Byte} {j : Nat}
    (h : mbufPrefix s l.length = l) (hj : j < l.length)
    (hw : (bufGet s.blk.mbuf j).isSome = true) : bufGet s.blk.mbuf j = l[j]? := by
  obtain ⟨v, hv⟩ := Option.isSome_iff_exists.1 hw
  have hget : (mbufPrefix s l.length)[j]? = some v := by simp [mbufPrefix, hj, hv]
  rw [hv, ← hget, h]

theorem Machine.ExtractMove.markerVerified {s : State} {b' : Block} (h : ExtractMove s s.blk b')
    (hat : ExtractorAt s.cfg s.blk s.blk.phase) (hv : MarkerVerified s.cfg s.blk s.blk.phase) :
    MarkerVerified s.cfg b' b'.phase := by
  cases h
  case markerOk hp hi hm =>
    simp only [hp, ExtractorAt] at hat
    obtain ⟨-, -, -, -, hwritten, -⟩ := hat
    exact fun _ _ j hj => bufGet_of_mbufPrefix_eq hm hj (hwritten j (by omega))
  all_goals simp_all [MarkerVerified]

theorem Machine.ExtractMove.extLenGuarded {s : State} {b b' : Block} (h : ExtractMove s b b')
    (hg : ExtLenGuarded s.cfg b b.phase) : ExtLenGuarded s.cfg b' b'.phase := by
  cases h <;> simp_all [ExtLenGuarded]

/-- After writing entry `n`, every entry up to `n` is written if those below it were. -/
theorem bufPut_written {b : Buf} {n : Nat} {v : Byte}
    (h : ∀ j, j < n → (bufGet b j).isSome = true) :
    ∀ j, j < n + 1 → (bufGet (bufPut b n v) j).isSome = true := by
  intro j hj
  by_cases hjn : j = n
  · rw [hjn, bufGet_bufPut_self, Option.isSome_some]
  · rw [bufGet_bufPut_of_ne b v hjn]
    exact h j (by omega)

/-- The IDX, cursor and results of each PHASE follow from those of the PHASE before. -/
theorem Machine.ExtractMove.extractorAt {s : State} {b b' : Block} (hc : s.cfg.Wf)
    (h : ExtractMove s b b') (he : b.err = none) (hg : ExtLenGuarded s.cfg b b.phase)
    (hat : ExtractorAt s.cfg b b.phase) : ExtractorAt s.cfg b' b'.phase := by
  obtain ⟨hhead, ⟨-, hmark⟩, -, ⟨-, hcap⟩, -⟩ := hc
  have hmark : s.cfg.markerLen ≤ 256 := hmark
  have hpay := b.payLen.isLt
  cases h with
  | header hp =>
    simp only [hp, ExtractorAt] at hat ⊢
    obtain ⟨-, hcur, hext, hlen⟩ := hat
    rw [cursor_add (by omega)]
    simp [hcur, hext, hlen, he]
  | markerByte v hp hi =>
    simp only [hp, ExtractorAt] at hat ⊢
    obtain ⟨-, hcur, hext, hlen, hwritten, -⟩ := hat
    rw [cursor_add (by omega), idx_succ (by omega)]
    exact ⟨by omega, by omega, hext, hlen, bufPut_written hwritten, by simp [he]⟩
  | markerOk hp hi hm =>
    simp only [hp, ExtractorAt] at hat ⊢
    obtain ⟨hle, hcur, hext, hlen, -, -⟩ := hat
    exact ⟨rfl, hlen, by simp [he], fun _ => ⟨hext, by omega⟩⟩
  | markerBad hp hi hm =>
    simp only [hp, ExtractorAt] at hat ⊢
    obtain ⟨hle, hcur, hext, hlen, hwritten, -⟩ := hat
    exact ⟨hle, hcur, hext, hlen, hwritten, fun _ => by omega⟩
  | extLenBad w hp hw =>
    simp only [hp, ExtractorAt] at hat ⊢
    obtain ⟨hidx, hlen, -, hok⟩ := hat
    obtain ⟨-, hcur⟩ := hok (by simp [he])
    rw [cursor_add (by omega)]
    exact ⟨hidx, hlen, fun _ => ⟨hw, by omega⟩, fun hne => absurd rfl hne⟩
  | extLenOk w hp hw =>
    simp only [hp, ExtractorAt] at hat ⊢
    obtain ⟨-, hlen, -, hok⟩ := hat
    obtain ⟨-, hcur⟩ := hok (by simp [he])
    rw [cursor_add (by omega)]
    exact ⟨Nat.zero_le _, hlen, by simp; omega⟩
  | extByte v hp hi hx =>
    simp only [hp, ExtractorAt] at hat ⊢
    obtain ⟨-, hlen, hcur⟩ := hat
    have hcapped := hg (by simp [hp]) (by simp [hp]) (by simp [hp])
    rw [cursor_add (by omega), idx_succ (by omega)]
    exact ⟨by omega, hlen, by omega⟩
  | extEnd hp hi hx =>
    simp only [hp, ExtractorAt] at hat ⊢
    obtain ⟨hle, hlen, hcur⟩ := hat
    exact ⟨rfl, hlen, by omega⟩
  | payLen w hp =>
    simp only [hp, ExtractorAt] at hat ⊢
    obtain ⟨-, -, hcur⟩ := hat
    have hcapped := hg (by simp [hp]) (by simp [hp]) (by simp [hp])
    rw [cursor_add (by omega)]
    simp [he]; omega
  | resource hp hr =>
    simp only [hp, ExtractorAt] at hat ⊢
    obtain ⟨hle, hcapped, hwritten, -, hcur⟩ := hat
    exact ⟨hle, hcapped, hwritten, fun _ => hr, hcur⟩
  | payByte v hp hr hi =>
    simp only [hp, ExtractorAt] at hat ⊢
    obtain ⟨-, -, hwritten, -, hcur⟩ := hat
    have hcapped := hg (by simp [hp]) (by simp [hp]) (by simp [hp])
    rw [cursor_add (by omega), idx_succ (by omega)]
    exact ⟨by omega, fun _ => hr, bufPut_written hwritten, by simp [he], by omega⟩
  | payEnd hp hr hi =>
    simp only [hp, ExtractorAt, Config.required] at hat ⊢
    obtain ⟨hle, -, hwritten, -, hcur⟩ := hat
    exact ⟨rfl, hr, fun j hj => hwritten j (by omega), by omega⟩
  | output hp => simpa only [hp, ExtractorAt] using hat
  | finish hp => simpa only [hp, ExtractorAt] using hat

theorem Machine.ExtractMove.blockOk {s : State} {b' : Block} (hc : s.cfg.Wf)
    (h : BlockOk s.cfg s.blk) (hb : s.blk.busy = true) (hm : s.blk.mode = .extractor)
    (hmv : ExtractMove s s.blk b') : BlockOk s.cfg b' := by
  have hr := h.running hb
  obtain ⟨-, -, -, hmode, -, hcurOut⟩ := hmv.regsKept
  obtain ⟨hflags, hstage⟩ := hmv.statusOk hr hm
  obtain ⟨hout, htail, hmark, hguard, hat⟩ := (extractorOk_iff _ _).1 (h.extractor hm)
  refine ⟨hmv.files h.files, hflags, hstage, fun hx => ?_, fun _ => ?_⟩
  · rw [hmode, hm] at hx
    cases hx
  · rw [extractorOk_iff]
    exact ⟨(hcurOut rfl).trans hout, hmv.extTailZero hat htail, hmv.markerVerified hat hmark,
      hmv.extLenGuarded hguard, hmv.extractorAt hc hr.err hguard hat⟩

end Sys2Proof
end

section
/-! PROOF of O49, O16 and O17 (10_state.md rules R41, R42). The kinds of a step, one by one. -/

namespace Sys2Proof

open Sys2Proof.Machine

/-- However a sequencer step of a run comes out, the block stays in form if every move keeps it so. -/
theorem Machine.Stepped.blockOk {s t : State} {M : Block → Prop} (h : Stepped s t M)
    (hi : BlockOk s.cfg s.blk) (hb : s.blk.busy = true)
    (hmove : ∀ b, M b → BlockOk s.cfg b) : BlockOk s.cfg t.blk := by
  obtain ⟨-, -, ⟨-, hbt⟩ | ⟨-, hq, hbt⟩ | ⟨-, hm⟩⟩ := h
  · exact hbt ▸ hi
  · exact hbt ▸ hi.ioFailed hb hq
  · exact hmove _ hm

/-- A step leaves a transaction unanswered only while BUSY = 1 (20_memory.md rule R80). -/
theorem Machine.Stepped.waiting {s t : State} {M : Block → Prop} (h : Stepped s t M)
    (hp : s.env.pending = none) (hb : s.blk.busy = true) (ht : t.env.pending.isSome = true) :
    t.blk.busy = true := by
  obtain ⟨-, -, ⟨-, hbt⟩ | ⟨hpt, -, -⟩ | ⟨hpt, -⟩⟩ := h
  · exact hbt ▸ hb
  · rw [hpt, hp] at ht; cases ht
  · rw [hpt, hp] at ht; cases ht

/-- A sequencer step of a run keeps the invariant if every move keeps the block in form. -/
theorem Machine.Stepped.inv {s t : State} {M : Block → Prop} (h : Stepped s t M) (hi : Inv s)
    (hp : s.env.pending = none) (hb : s.blk.busy = true)
    (hmove : ∀ b, M b → BlockOk s.cfg b) : Inv t := by
  have hblk := h.blockOk hi.blockOk hb hmove
  have hwait := h.waiting hp hb
  obtain ⟨hcfg, -⟩ := h
  exact BlockOk.inv (hcfg ▸ hblk) (hcfg ▸ hi.cfg) hwait

/-- The invariant says nothing of the host's side. -/
theorem Inv.of_sameMachine {s u : State} (h : Inv s) (hu : SameMachine u s) : Inv u := by
  obtain ⟨hcfg, hblk, henv, -⟩ := hu
  refine BlockOk.inv ?_ (hcfg ▸ h.cfg) ?_
  · rw [hcfg, hblk]; exact h.blockOk
  · rw [henv, hblk]; exact h.waiting

theorem Machine.StepKind.inv {s t : State} (h : StepKind s t) (hi : Inv s) : Inv t := by
  cases h with
  | reset rest _ ht =>
    subst ht
    exact BlockOk.inv_of_none (blockOk_reset s.cfg) hi.cfg rfl
  | quiet _ hc hb hp' =>
    refine BlockOk.inv_of_none ?_ (hc ▸ hi.cfg) hp'
    rw [hc, hb]
    exact hi.blockOk
  | wrote hp u hu off r w _ _ hrd ht =>
    have hiu := hi.of_sameMachine hu
    obtain ⟨-, hblk, henv, -⟩ := hu
    subst ht
    have hok : BlockOk u.cfg (writeReg r w u.blk) :=
      hiu.blockOk.of_sameRun (hblk ▸ hrd) (writeReg_sameRun r w _) (writeReg_files hiu.files r w)
    exact hok.inv_of_none (s := (u.onBlk (writeReg r w)).answer .okWrite) hiu.cfg (henv ▸ hp)
  | command hp u hu i hrd ht =>
    have hiu := hi.of_sameMachine hu
    obtain ⟨-, hblk, henv, -⟩ := hu
    subst ht
    refine BlockOk.inv_of_none ?_ ?_ ?_
    · simpa using hiu.blockOk.effectOf (hblk ▸ hrd) i
    · simpa using hiu.cfg
    · simp [henv, hp]
  | embed hp u hu hb hm ht =>
    have hiu := hi.of_sameMachine hu
    obtain ⟨-, hblk, henv, -⟩ := hu
    rw [← hblk] at hb hm
    exact ht.inv hiu (henv ▸ hp) hb fun _ => EmbedMove.blockOk hiu.cfg hiu.blockOk hb hm
  | extract hp u hu hb hm ht =>
    have hiu := hi.of_sameMachine hu
    obtain ⟨-, hblk, henv, -⟩ := hu
    rw [← hblk] at hb hm
    exact ht.inv hiu (henv ▸ hp) hb fun _ => ExtractMove.blockOk hiu.cfg hiu.blockOk hb hm

/-- Settles O49, by the kinds of a step; the sequencer's moves are taken PHASE by PHASE. -/
theorem everyStepKeepsTheInvariant : Obligations.EveryStepKeepsTheInvariant :=
  fun _ _ hi h => (step_kind h).inv hi

/-- Settles O16: the values that `Block.reset` writes down. -/
theorem resetStateValues : Obligations.ResetStateValues :=
  ⟨⟨rfl, rfl, rfl, rfl⟩, rfl, rfl, rfl, rfl, rfl, rfl, rfl, rfl, rfl, rfl, rfl, rfl, rfl, rfl, rfl,
    fun _ => ⟨rfl, rfl⟩⟩

/-- Settles O17: every legal configuration's reset block is in form, and the installed one is legal. -/
theorem resetStateMeetsTheInvariant : Obligations.ResetStateMeetsTheInvariant :=
  (blockOk_reset Config.installed).inv_of_none (s := State.reset) Config.installed_wf rfl

end Sys2Proof
end

section
/-! PROOF of O51 and O6 (10_state.md rules R27, R42; 41_embedder.md rule R161, 42_extractor.md rule
R184). No fault of the model is reached: a run is never at PHASE 8, and the register files have every
entry that a step or a host read names. -/

namespace Sys2Proof

open Sys2Proof.Machine

/-! ### Every sequencer step of a run answers a next state -/

/-- A read answers a next state if the rest of the step does. -/
theorem readElseFail_answers {p : InPort} {n : Nat} {s : State} {k : List Byte → State → Result}
    (hk : ∀ bytes u, u.cfg = s.cfg → u.blk = s.blk → ∃ t, k bytes u = .next t) :
    ∃ t, readElseFail p n s k = .next t := by
  rcases readElseFail_cases p n s k with ⟨-, -, h⟩ | h | ⟨-, h⟩
  · rw [h]; exact hk _ _ rfl rfl
  · exact ⟨_, h⟩
  · exact ⟨_, h⟩

/-- A write answers a next state if the rest of the step does. -/
theorem writeElseFail_answers {p : OutPort} {bs : List Byte} {s : State} {k : State → Result}
    (hk : ∀ u, ∃ t, k u = .next t) : ∃ t, writeElseFail p bs s k = .next t := by
  rcases writeElseFail_cases p bs s k with ⟨-, h⟩ | ⟨-, h⟩ | ⟨-, h⟩
  · rw [h]; exact hk _
  · exact ⟨_, h⟩
  · exact ⟨_, h⟩

/-- An EXT entry that the file has can be written. -/
theorem writeExt_answers {i : Nat} {v : Byte} {s : State} {k : State → Result}
    (hi : i < s.blk.ext.length) (hk : ∀ u, ∃ t, k u = .next t) :
    ∃ t, writeExt i v s k = .next t := by
  rw [writeExt, if_pos hi]
  exact hk _

theorem embedByte_answers (v : Byte) (s : State) : ∃ t, embedByte v s = .next t :=
  readElseFail_answers fun _ _ _ _ => writeElseFail_answers fun _ => ⟨_, rfl⟩

theorem embedLength_answers (v : Word) (p : Phase) (s : State) : ∃ t, embedLength v p s = .next t :=
  readElseFail_answers fun _ _ _ _ => writeElseFail_answers fun _ => ⟨_, rfl⟩

/-- EXT has the entries below EXT_LEN, so a step of the Embedder finds its byte. -/
theorem embedStep_answers {s : State} (hd : s.blk.phase ≠ .done)
    (hx : s.blk.extLen.toNat < s.blk.ext.length) : ∃ t, embedStep s = .next t := by
  unfold embedStep
  cases hp : s.blk.phase with
  | idle => exact readElseFail_answers fun _ _ _ _ => writeElseFail_answers fun _ => ⟨_, rfl⟩
  | header =>
    simp only [embedMarker]
    split
    · exact embedByte_answers _ s
    · exact ⟨_, rfl⟩
  | marker => exact embedLength_answers _ _ s
  | extLen =>
    simp only [embedExt]
    split
    · rw [List.getElem?_eq_getElem (by omega)]
      exact embedByte_answers _ s
    · exact ⟨_, rfl⟩
  | ext => exact embedLength_answers _ _ s
  | payLen =>
    simp only [embedPayload]
    split
    · exact readElseFail_answers fun _ u _ _ => embedByte_answers _ u
    · exact ⟨_, rfl⟩
  | payload =>
    simp only [embedTail]
    split
    · exact readElseFail_answers fun _ _ _ _ => writeElseFail_answers fun _ => ⟨_, rfl⟩
    · exact ⟨_, rfl⟩
  | output => exact ⟨_, rfl⟩
  | done => exact absurd hp hd

/-- At PHASE 3 EXT has the entries up to EXT_LEN, so a step of the Extractor can write its byte. -/
theorem extractStep_answers {s : State} (hd : s.blk.phase ≠ .done)
    (hx : s.blk.phase = .extLen → s.blk.extLen.toNat < s.blk.ext.length) :
    ∃ t, extractStep s = .next t := by
  unfold extractStep
  cases hp : s.blk.phase with
  | idle => exact readElseFail_answers fun _ _ _ _ => ⟨_, rfl⟩
  | header =>
    simp only [extractMarker, verifyMarker]
    split
    · exact readElseFail_answers fun _ _ _ _ => ⟨_, rfl⟩
    · split <;> exact ⟨_, rfl⟩
  | marker =>
    refine readElseFail_answers fun _ _ _ _ => ?_
    dsimp only
    split <;> exact ⟨_, rfl⟩
  | extLen =>
    have hx := hx hp
    simp only [extractExt]
    split
    · refine readElseFail_answers fun _ u _ hb => ?_
      exact writeExt_answers (by rw [hb]; omega) fun _ => ⟨_, rfl⟩
    · exact writeExt_answers hx fun _ => ⟨_, rfl⟩
  | ext => exact readElseFail_answers fun _ _ _ _ => ⟨_, rfl⟩
  | payLen =>
    simp only [extractPayload]
    split
    · exact ⟨_, rfl⟩
    · split
      · exact readElseFail_answers fun _ _ _ _ => ⟨_, rfl⟩
      · exact ⟨_, rfl⟩
  | payload => exact writeElseFail_answers fun _ => ⟨_, rfl⟩
  | output => exact ⟨_, rfl⟩
  | done => exact absurd hp hd

theorem sequencerTurn_answers {s : State} (hi : Inv s) : ∃ t, sequencerTurn s = .next t := by
  unfold sequencerTurn
  split
  · rename_i hb
    have hd := (hi.blockOk.running hb).phase
    obtain ⟨-, hlen, -⟩ := hi.files
    split
    · rename_i hm
      obtain ⟨-, hstart, -⟩ := (embedderOk_iff _ _).1 (hi.embedder hm)
      exact embedStep_answers hd (hlen ▸ (hstart (.inl hb)).1)
    · rename_i hm
      obtain ⟨-, -, -, hguard, -⟩ := (extractorOk_iff _ _).1 (hi.extractor hm)
      exact extractStep_answers hd fun hp =>
        hlen ▸ hguard (by simp [hp]) (by simp [hp]) (by simp [hp])
  · exact ⟨s, rfl⟩

/-! ### Every host event answers a next state -/

/-- The map names no entry that the register files do not have (20_memory.md rules R61, R63). -/
theorem hostRead_answers {s : State} (hi : Inv s) (size off : Nat) :
    ∃ t, hostRead size off s = .next t := by
  unfold hostRead
  split
  · split
    · exact ⟨_, rfl⟩
    · rename_i r hr
      obtain ⟨hlane, hext, -⟩ := hi.files
      obtain ⟨w, hw⟩ := Option.isSome_iff_exists.1 (readReg_isSome hlane hext (regAt_some hr).1)
      rw [hw]
      exact ⟨_, rfl⟩
  · exact ⟨_, rfl⟩

/-- A command is accepted or `Refused`, in every state. -/
theorem issueCommand_answers (w : Word) (s : State) : ∃ t, issueCommand w s = .next t := by
  unfold issueCommand
  split
  · rename_i i _
    rw [exec_eq]
    rcases whenReady_cases s (effectOf i) with ⟨-, h⟩ | ⟨-, h⟩ <;> exact ⟨_, h⟩
  · exact ⟨_, rfl⟩

theorem hostWrite_answers (size off : Nat) (w : Word) (s : State) :
    ∃ t, hostWrite size off w s = .next t := by
  unfold hostWrite
  split
  · split
    · exact issueCommand_answers w s
    · split <;> exact ⟨_, rfl⟩
    · exact ⟨_, rfl⟩
  · exact ⟨_, rfl⟩

theorem hostEvent_answers {s : State} (hi : Inv s) (e : HostEvent) (rest : List HostEvent) :
    ∃ t, hostEvent e rest s = .next t := by
  have hu : Inv (s.setInputs rest) := hi.of_sameMachine ⟨rfl, rfl, rfl, rfl⟩
  cases e with
  | reset => exact ⟨_, rfl⟩
  | read size off => exact hostRead_answers hu size off
  | write size off w => exact hostWrite_answers size off w _
  | turn => exact sequencerTurn_answers hu
  | poll => exact ⟨_, pollStatus_eq rest s⟩
  | openIn p content => exact ⟨_, rfl⟩
  | openOut p => exact ⟨_, rfl⟩

/-- A reset at the head of the queue is taken in every state, also while a transaction is unanswered
(70_reset_and_hazards.md rule R253). -/
theorem step_reset {s : State} {rest : List HostEvent} (h : s.host.inputs = .reset :: rest) :
    step s = .next (resetBlock (s.setInputs rest)) := by
  unfold step takeStep
  rw [h]
  rfl

/-- Settles O51: the event at the head of the queue, or the sequencer's turn, answers a next state; the
invariant there is O49. -/
theorem noStepStopsUnderTheInvariant : Obligations.NoStepStopsUnderTheInvariant := by
  intro s hi hgo
  have hnext : ∃ t, step s = .next t := by
    rcases hgo with hp | ⟨rest, hin⟩
    · cases hin : s.host.inputs with
      | nil => rw [step_quiet hp hin]; exact sequencerTurn_answers hi
      | cons e rest => rw [step_event hp hin]; exact hostEvent_answers hi e rest
    · exact ⟨_, step_reset hin⟩
  obtain ⟨t, ht⟩ := hnext
  exact ⟨t, ht, everyStepKeepsTheInvariant s t hi ht⟩

/-! ### Every sequencer step of a run changes the state -/

/-- Every move changes PHASE, IDX or CUR_IN. -/
theorem Machine.EmbedMove.ne {c : Config} {b b' : Block} (h : EmbedMove c b b') : b' ≠ b := by
  intro he
  have hphase := congrArg Block.phase he
  have hidx := congrArg Block.idx he
  have hcur := congrArg Block.curIn he
  cases h <;> simp_all

/-- Every move changes PHASE or IDX, or sets FAIL. -/
theorem Machine.ExtractMove.ne {s : State} {b b' : Block} (h : ExtractMove s b b')
    (hf : b.fail = false) : b' ≠ b := by
  intro he
  have hphase := congrArg Block.phase he
  have hidx := congrArg Block.idx he
  have hfail := congrArg Block.fail he
  cases h <;> simp_all

/-- A step that leaves the block alone begins a wait, which the environment shows. -/
theorem Machine.Stepped.ne {s t : State} {M : Block → Prop} (h : Stepped s t M)
    (hp : s.env.pending = none) (hf : s.blk.fail = false) (hmove : ∀ b, M b → b ≠ s.blk) :
    t ≠ s := by
  rintro rfl
  obtain ⟨-, -, ⟨hpt, -⟩ | ⟨-, -, hbt⟩ | ⟨-, hm⟩⟩ := h
  · rw [hp] at hpt; cases hpt
  · rw [hbt] at hf; cases hf
  · exact hmove _ hm rfl

/-- With BUSY = 0 the sequencer's turn changes nothing (rule R27). -/
theorem sequencerTurn_idle {s : State} (hb : s.blk.busy = false) : sequencerTurn s = .next s := by
  simp [sequencerTurn, hb]

/-- Settles O6: outside a run the turn is the identity; in a run a step exists and each of its outcomes
changes the block or begins a wait. -/
theorem sequencerMovesExactlyWhileBusy : Obligations.SequencerMovesExactlyWhileBusy := by
  intro s hi hp
  refine ⟨sequencerTurn_idle, fun hb => ?_⟩
  obtain ⟨t, ht⟩ := sequencerTurn_answers hi
  have hfail := (hi.blockOk.running hb).fail
  refine ⟨t, ht, ?_⟩
  rcases sequencerTurn_cases ht with ⟨hnot, -⟩ | ⟨-, -, hs⟩ | ⟨-, -, hs⟩
  · rw [hb] at hnot; cases hnot
  · exact hs.ne hp hfail fun _ => EmbedMove.ne
  · exact hs.ne hp hfail fun _ hm => hm.ne hfail

end Sys2Proof
end

section
/-! PROOF of O46, O47, O5 and O24 (10_state.md rules R27, R28, R30; 30_encoding.md rules R90, R111;
60_exceptions.md rule R220). -/

namespace Sys2Proof

open Sys2Proof.Machine

/-! ### PHASE -/

/-- PHASE stays or goes on by one milestone (rule R30). -/
abbrev PhaseAdvances (b b' : Block) : Prop :=
  b'.phase = b.phase ∨ b'.phase.code.toNat = b.phase.code.toNat + 1

theorem Machine.EmbedMove.phaseAdvances {c : Config} {b b' : Block} (h : EmbedMove c b b') :
    PhaseAdvances b b' := by
  cases h
  case markerByte | extByte | payByte | tailByte => exact .inl rfl
  all_goals
    right
    simp [*, Phase.code]

theorem Machine.ExtractMove.phaseAdvances {s : State} {b b' : Block} (h : ExtractMove s b b') :
    PhaseAdvances b b' := by
  cases h
  case markerByte | markerBad | extLenBad | extByte | resource | payByte => exact .inl rfl
  all_goals
    right
    simp [*, Phase.code]

/-- No command writes PHASE. -/
theorem effectOf_phase (i : Instr) (s : State) : (effectOf i s).blk.phase = s.blk.phase := by
  cases i
  case embed =>
    rcases startEmbed_cases s with ⟨-, h⟩ | ⟨-, -, h⟩ | ⟨-, -, h⟩ <;> simp [effectOf, h]
  all_goals rfl

/-- Settles O47, by the kinds of a step. -/
theorem phaseAdvancesByOneOrResets : Obligations.PhaseAdvancesByOneOrResets := by
  intro s t h
  rw [← or_assoc]
  cases step_kind h with
  | reset rest hin ht => exact .inr ⟨rest, hin, ht ▸ rfl⟩
  | quiet _ _ hb => exact .inl (.inl (by rw [hb]))
  | wrote _ u hu off r w _ _ _ ht =>
    obtain ⟨-, hb, -⟩ := hu
    rw [ht, ← hb]
    exact .inl (.inl (writeReg_sameRun r w u.blk).phase)
  | command _ u hu i _ ht =>
    obtain ⟨-, hb, -⟩ := hu
    rw [ht, ← hb]
    exact .inl (.inl (effectOf_phase i u))
  | embed _ u hu _ _ ht =>
    obtain ⟨-, hb, -⟩ := hu
    rw [← hb]
    exact .inl (ht.blk_rel (R := PhaseAdvances) (.inl rfl) (.inl rfl)
      fun _ => EmbedMove.phaseAdvances)
  | extract _ u hu _ _ ht =>
    obtain ⟨-, hb, -⟩ := hu
    rw [← hb]
    exact .inl (ht.blk_rel (R := PhaseAdvances) (.inl rfl) (.inl rfl)
      fun _ => ExtractMove.phaseAdvances)

/-! ### Terminal states -/

/-- Settles O24: every command is its effect behind the READY test. -/
theorem commandsAreRefusedOutsideReady : Obligations.CommandsAreRefusedOutsideReady :=
  fun s i h => (exec_eq i s).trans (whenReady_refused h _)

/-- `t` has the block, the configuration and the history of `s`. -/
abbrev RunKept (s t : State) : Prop :=
  t.blk = s.blk ∧ t.cfg = s.cfg ∧ t.env.history = s.env.history

/-- Outside READY a host write is `Refused`, be it of a register or of a command (rule R247). -/
theorem hostWrite_notReady {size off : Nat} {w : Word} {s t : State} (hr : ¬Ready s.blk)
    (h : hostWrite size off w s = .next t) : t = s.answer .refused := by
  rcases hostWrite_cases h with ht | ⟨r, -, -, hrd, -⟩ | ⟨i, -, hi⟩
  · exact ht
  · exact absurd hrd hr
  · rw [commandsAreRefusedOutsideReady s i hr] at hi
    cases hi
    rfl

/-- Outside READY and with BUSY = 0 no host event but a reset reaches the run. -/
theorem hostEvent_runKept {e : HostEvent} {rest : List HostEvent} {s t : State}
    (he : e ≠ .reset) (hr : ¬Ready s.blk) (hb : s.blk.busy = false)
    (h : hostEvent e rest s = .next t) : RunKept s t := by
  cases e with
  | reset => exact absurd rfl he
  | read size off =>
    obtain ⟨a, rfl⟩ := hostRead_next h
    exact ⟨rfl, rfl, rfl⟩
  | write size off w =>
    obtain rfl := hostWrite_notReady (s := s.setInputs rest) hr h
    exact ⟨rfl, rfl, rfl⟩
  | turn =>
    rw [show hostEvent .turn rest s = _ from sequencerTurn_idle (s := s.setInputs rest) hb] at h
    cases h
    exact ⟨rfl, rfl, rfl⟩
  | poll =>
    rw [show hostEvent .poll rest s = _ from pollStatus_eq rest s] at h
    cases h
    exact ⟨rfl, rfl, rfl⟩
  | openIn p content =>
    cases h
    exact ⟨rfl, rfl, Env.setSource_history _ _ _⟩
  | openOut p =>
    cases h
    exact ⟨rfl, rfl, Env.setSink_history _ _ _⟩

/-- A terminal state is neither READY nor running (10_state.md rules R28, R42). -/
theorem BlockOk.terminal {c : Config} {b : Block} (h : BlockOk c b) (ht : Terminal b) :
    ¬Ready b ∧ b.busy = false := by
  have hnot : ¬(b.done = false ∧ b.fail = false) := by
    rintro ⟨hdone, hfail⟩
    simp [Terminal, hdone, hfail] at ht
  obtain ⟨hbusy, -⟩ := h.flags
  exact ⟨fun ⟨_, _, hend⟩ => hnot hend, by_contra fun hb => hnot (hbusy (by simpa using hb))⟩

/-- Settles O46: a reset, or a host event or turn that a terminal state turns away. -/
theorem terminalStatesLeaveOnlyByReset : Obligations.TerminalStatesLeaveOnlyByReset := by
  intro s t hi hterm h
  obtain ⟨hr, hb⟩ := hi.blockOk.terminal hterm
  have hp : s.env.pending = none := by
    by_contra hne
    have := hi.waiting (Option.isSome_iff_ne_none.2 hne)
    rw [hb] at this
    cases this
  cases hin : s.host.inputs with
  | nil =>
    rw [step_quiet hp hin, sequencerTurn_idle hb] at h
    cases h
    exact .inl ⟨rfl, rfl, rfl⟩
  | cons e rest =>
    by_cases he : e = .reset
    · subst he
      rw [step_reset hin] at h
      cases h
      exact .inr ⟨rest, rfl, rfl, rfl, rfl, rfl⟩
    · rw [step_event hp hin] at h
      exact .inl (hostEvent_runKept he hr hb h)

/-! ### The queue of host events -/

/-- Settles O5: the step is the event at the head of the queue, or the sequencer's turn. -/
theorem queueSaysWhoMovesNext : Obligations.QueueSaysWhoMovesNext := by
  intro s rest hp
  refine ⟨step_quiet hp, fun h => step_event hp h, fun h hb => ?_, fun h hb => ?_⟩
  · rw [step_event hp h, hostEvent, pollStatus_eq, if_pos hb]
  · rw [step_event hp h, hostEvent, pollStatus_eq, if_neg (by simp [hb])]

end Sys2Proof
end

section
/-! PROOF of O13, O8 and O12 (20_memory.md rules R61, R64, R67). The map in both directions, and what a
register reads after a write. -/

namespace Sys2Proof.Machine

/-! ### The register at an offset -/

theorem regAt_lane (c : Config) {i : Nat} (hi : i < 32) :
    regAt c (0x100 + 4 * i) = some (.lane i) := by
  unfold regAt
  rw [if_neg (by omega), if_neg (by omega), if_pos (by omega)]
  simp

theorem regAt_ext {c : Config} {i : Nat} (hi : i < 256) (hc : i < c.extBufCap) :
    regAt c (0x400 + 4 * i) = some (.ext i) := by
  unfold regAt
  rw [if_neg (by omega), if_neg (by omega), if_neg (by omega), if_pos (by omega)]
  simp [hc]

theorem regAt_marker {c : Config} {i : Nat} (hi : i < 256) (hc : i < c.markerLen) :
    regAt c (0x800 + 4 * i) = some (.marker i) := by
  unfold regAt
  rw [if_neg (by omega), if_neg (by omega), if_neg (by omega), if_neg (by omega), if_pos (by omega)]
  simp [hc]

/-- Every register of the map stands at its offset; a legal configuration keeps EXT and MARKER within
their 256 words. -/
theorem regAt_offset {c : Config} {r : HostReg} (hc : c.Wf) (h : r.inMap c = true) :
    regAt c r.offset = some r := by
  obtain ⟨-, ⟨-, hmarker⟩, -, ⟨-, hext⟩, -⟩ := hc
  cases r
  case lane i => exact regAt_lane c (of_decide_eq_true h)
  case ext i =>
    have hi : i < c.extBufCap := of_decide_eq_true h
    exact regAt_ext (by omega) hi
  case marker i =>
    have hi : i < c.markerLen := of_decide_eq_true h
    exact regAt_marker (by unfold Config.markerLen at hi; omega) hi
  all_goals rfl

/-- Past the fixed registers and the three files nothing is mapped (rule R61). -/
theorem regAt_unmapped {c : Config} {off : Nat} (hc : c.Wf)
    (h : (0x040 ≤ off ∧ off < 0x100) ∨ (0x180 ≤ off ∧ off < 0x400) ∨
      (0x400 + 4 * c.extBufCap ≤ off ∧ off < 0x800) ∨
      (0x800 + 4 * c.markerLen ≤ off ∧ off < 0xC00) ∨ 0xC00 ≤ off) : regAt c off = none := by
  obtain ⟨-, ⟨-, hmarker⟩, -, ⟨-, hext⟩, -⟩ := hc
  have hmarker : c.markerLen ≤ 256 := hmarker
  refine Option.eq_none_iff_forall_ne_some.2 fun r hr => ?_
  obtain ⟨hin, hoff⟩ := regAt_some hr
  cases r <;> simp only [HostReg.offset] at hoff
  case lane i =>
    have hi : i < 32 := of_decide_eq_true hin
    omega
  case ext i =>
    have hi : i < c.extBufCap := of_decide_eq_true hin
    omega
  case marker i =>
    have hi : i < c.markerLen := of_decide_eq_true hin
    omega
  all_goals omega

/-! ### The two halves of CARRIER_LEN -/

@[simp] theorem loWord_ofHiLo (hi lo : Word) : loWord (ofHiLo hi lo) = lo :=
  BitVec.extractLsb'_append_eq_right

@[simp] theorem hiWord_ofHiLo (hi lo : Word) : hiWord (ofHiLo hi lo) = hi :=
  BitVec.extractLsb'_append_eq_left

/-! ### Reading after a write -/

/-- What of a written word a register holds: LANE and EXT take the low byte (rule R64). -/
def HostReg.kept (r : HostReg) (w : Word) : Word :=
  match r with
  | .lane _ | .ext _ => (w.extractLsb' 0 8).setWidth 32
  | _ => w

theorem readReg_writeReg_self {c : Config} {b : Block} {r : HostReg} {w : Word}
    (hlane : b.lane.length = 32) (hext : b.ext.length = c.extBufCap) (hw : r.writable = true)
    (hin : r.inMap c = true) : readReg c (writeReg r w b) r = some (r.kept w) := by
  cases r
  case carrierLenLo | carrierLenHi => simp [readReg, writeReg, HostReg.kept]
  case extLen | payLen | val => rfl
  case lane i =>
    have hi : i < b.lane.length := hlane ▸ of_decide_eq_true hin
    simp [readReg, writeReg, HostReg.kept, hi]
  case ext i =>
    have hi : i < b.ext.length := hext ▸ of_decide_eq_true hin
    simp [readReg, writeReg, HostReg.kept, hi]
  all_goals cases hw

/-- A write is seen at its own register only. -/
theorem readReg_writeReg_of_ne {c : Config} {b : Block} {r q : HostReg} {w : Word} (h : q ≠ r) :
    readReg c (writeReg r w b) q = readReg c b q := by
  cases r
  case carrierLenLo | carrierLenHi =>
    cases q
    case carrierLenLo | carrierLenHi => simp [readReg, writeReg] at h ⊢
    all_goals rfl
  case extLen | payLen | val =>
    cases q
    any_goals rfl
    exact absurd rfl h
  case lane i =>
    cases q
    case lane j =>
      have hij : i ≠ j := fun he => h (he ▸ rfl)
      simp [readReg, writeReg, hij]
    all_goals rfl
  case ext i =>
    cases q
    case ext j =>
      have hij : i ≠ j := fun he => h (he ▸ rfl)
      simp [readReg, writeReg, hij]
    all_goals rfl
  all_goals rfl

end Sys2Proof.Machine

namespace Sys2Proof

open Sys2Proof.Machine

/-- A parameter below 2^32 is read back in full (00_scope.md rules R8 to R11). -/
theorem toNat_ofNat_word {n : Nat} (h : n < 4294967296) : (BitVec.ofNat 32 n).toNat = n :=
  (BitVec.toNat_ofNat n 32).trans (Nat.mod_eq_of_lt h)

/-- Settles O13, by the two directions of the map. -/
theorem registerOffsetsAreUnique : Obligations.RegisterOffsetsAreUnique := by
  refine fun c r off hc => ⟨regAt_some, ?_⟩
  rintro ⟨hin, rfl⟩
  exact regAt_offset hc hin

/-- Settles O8: each fixed offset by evaluation, the files entry by entry, the rest by exclusion. -/
theorem registerMapContents : Obligations.RegisterMapContents := by
  intro c b hc content writable
  have hparams := hc
  obtain ⟨hheader, ⟨-, hmarker⟩, -, ⟨-, hext⟩, hpay⟩ := hparams
  have hmarker : c.markerLen ≤ 256 := hmarker
  refine ⟨?_, fun i hi => ?_, fun i hi => ?_, fun i hi => ?_, ?_, ?_, fun off => regAt_unmapped hc⟩
  · refine ⟨rfl, rfl, rfl, rfl, rfl, rfl, rfl, rfl, rfl, rfl, rfl, rfl, ?_, ?_, ?_, ?_⟩
    all_goals exact congrArg some (toNat_ofNat_word (by omega))
  · simp only [content, writable, regAt_lane c hi]
    exact ⟨rfl, rfl⟩
  · simp only [content, writable, regAt_ext (by omega) hi]
    exact ⟨rfl, rfl⟩
  · simp only [content, writable, regAt_marker (by omega) hi]
    exact ⟨rfl, rfl⟩
  · simp only [List.forall_mem_cons, List.not_mem_nil]
    exact ⟨rfl, rfl, rfl, rfl, rfl, nofun⟩
  · simp only [List.forall_mem_cons, List.not_mem_nil]
    exact ⟨rfl, rfl, rfl, rfl, rfl, rfl, rfl, rfl, rfl, rfl, nofun⟩

/-- Settles O12: the register itself, and then every other one. -/
theorem writeThenReadBack : Obligations.WriteThenReadBack := by
  intro s r q w hi hw hr hq
  obtain ⟨hlane, hext, -⟩ := hi.files
  split
  · rename_i hqr
    rw [hqr, readReg_writeReg_self hlane hext hw hr]
    cases r <;> rfl
  · rename_i hqr
    exact readReg_writeReg_of_ne hqr

end Sys2Proof
end

section
/-! PROOF of O9, O7 and O11 (20_memory.md rules R62 to R65). What a host access returns, once for each
kind of offset. -/

namespace Sys2Proof.Machine

/-- A mapped offset is a whole aligned word of the window (rules R61, R65). -/
theorem hostAccessWf_of_regAt {c : Config} {off : Nat} {r : HostReg} (h : regAt c off = some r) :
    HostAccessWf 4 off := by
  unfold regAt at h
  split at h
  · cases h
  · rename_i hwhole
    exact ⟨rfl, by omega, by omega⟩

/-! ### Reads -/

theorem hostRead_partial {size off : Nat} (h : ¬HostAccessWf size off) (s : State) :
    hostRead size off s = .next (s.answer .refused) := if_neg h

theorem hostRead_mapped {off : Nat} {s : State} {r : HostReg} {w : Word}
    (hr : regAt s.cfg off = some r) (hw : readReg s.cfg s.blk r = some w) :
    hostRead 4 off s = .next (s.answer (.okRead w)) := by
  unfold hostRead
  simp only [if_pos (hostAccessWf_of_regAt hr), hr, hw]

theorem hostRead_unmapped {off : Nat} {s : State} (size : Nat) (h : regAt s.cfg off = none) :
    hostRead size off s = .next (s.answer .refused) := by
  unfold hostRead
  simp only [h, ite_self]

/-! ### Writes -/

theorem hostWrite_partial {size off : Nat} (h : ¬HostAccessWf size off) (w : Word) (s : State) :
    hostWrite size off w s = .next (s.answer .refused) := if_neg h

theorem hostWrite_unmapped {off : Nat} {s : State} (size : Nat) (w : Word)
    (h : regAt s.cfg off = none) : hostWrite size off w s = .next (s.answer .refused) := by
  unfold hostWrite
  simp only [h, ite_self]

/-- A write to a register other than CTRL (rule R64). -/
theorem hostWrite_mapped {off : Nat} {s : State} {r : HostReg} (w : Word)
    (hr : regAt s.cfg off = some r) (hne : r ≠ .ctrl) :
    hostWrite 4 off w s =
      if Ready s.blk ∧ r.writable = true then .next ((s.onBlk (writeReg r w)).answer .okWrite)
      else .next (s.answer .refused) := by
  unfold hostWrite
  rw [if_pos (hostAccessWf_of_regAt hr), hr]
  cases r
  case ctrl => exact absurd rfl hne
  all_goals rfl

theorem hostWrite_writable {off : Nat} {s : State} {r : HostReg} (w : Word)
    (hr : regAt s.cfg off = some r) (hw : r.writable = true) (hrd : Ready s.blk) :
    hostWrite 4 off w s = .next ((s.onBlk (writeReg r w)).answer .okWrite) := by
  rw [hostWrite_mapped w hr (by rintro rfl; cases hw), if_pos ⟨hrd, hw⟩]

theorem hostWrite_readOnly {off : Nat} {s : State} {r : HostReg} (w : Word)
    (hr : regAt s.cfg off = some r) (hne : r ≠ .ctrl) (hw : r.writable = false) :
    hostWrite 4 off w s = .next (s.answer .refused) := by
  rw [hostWrite_mapped w hr hne, if_neg (by simp [hw])]

theorem hostWrite_refused {s : State} (size off : Nat) (w : Word) (h : ¬Ready s.blk) :
    hostWrite size off w s = .next (s.answer .refused) := by
  obtain ⟨t, ht⟩ := hostWrite_answers size off w s
  rw [ht, hostWrite_notReady h ht]

end Sys2Proof.Machine

namespace Sys2Proof

open Sys2Proof.Machine

/-- Settles O9: the READY test and the map come only after the test of size and offset. -/
theorem partialOrMisalignedAccessIsRefused : Obligations.PartialOrMisalignedAccessIsRefused := by
  intro s size off w rest hp hbad
  have hacc : ¬HostAccessWf size off := by
    rintro ⟨hsize, halign, hwindow⟩
    omega
  refine ⟨fun h => ?_, fun h => ?_⟩
  · rw [step_event hp h]
    exact hostRead_partial hacc _
  · rw [step_event hp h]
    exact hostWrite_partial hacc w _

/-- Settles O7: under the invariant the register files have every entry that the map names. -/
theorem hostReadsHaveNoEffect : Obligations.HostReadsHaveNoEffect := by
  intro s off rest hi hp h _ _
  obtain ⟨hlane, hext, -⟩ := hi.files
  rw [step_event hp h]
  refine ⟨fun r hr => ?_, fun hr => hostRead_unmapped 4 hr, ?_⟩
  · obtain ⟨w, hw⟩ := Option.isSome_iff_exists.1 (readReg_isSome hlane hext (regAt_some hr).1)
    exact ⟨w, hw, hostRead_mapped hr hw⟩
  · rintro rfl
    exact hostRead_mapped (s := s.setInputs rest) (r := .ctrl) rfl rfl

/-- Settles O11: the register that stands at each offset, and then its write. -/
theorem hostWriteRule : Obligations.HostWriteRule := by
  intro s off w rest hp h u wrote isRefused
  have hstep : step s = hostWrite 4 off w u := step_event hp h
  have hwrote : ∀ r, Ready s.blk → r.writable = true → regAt s.cfg off = some r →
      wrote (writeReg r w s.blk) := fun r hrd hw hr =>
    hstep.trans (hostWrite_writable (s := u) w hr hw hrd)
  refine ⟨fun hrd => ⟨?_, ?_, ?_, ?_, ?_, ?_, ?_, ?_, ?_, ?_⟩, fun hnot => ?_⟩
  · rintro rfl
    exact hstep.trans (hostWrite_ctrl w u)
  · rintro rfl
    exact hwrote .carrierLenLo hrd rfl rfl
  · rintro rfl
    exact hwrote .carrierLenHi hrd rfl rfl
  · rintro rfl
    exact hwrote .extLen hrd rfl rfl
  · rintro rfl
    exact hwrote .payLen hrd rfl rfl
  · rintro rfl
    exact hwrote .val hrd rfl rfl
  · rintro i hi rfl
    exact hwrote (.lane i) hrd rfl (regAt_lane s.cfg hi)
  · rintro i hi hcap rfl
    exact hwrote (.ext i) hrd rfl (regAt_ext hi hcap)
  · exact fun r hr hne hw => hstep.trans (hostWrite_readOnly (s := u) w hr hne hw)
  · exact fun hr => hstep.trans (hostWrite_unmapped (s := u) 4 w hr)
  · exact hstep.trans (hostWrite_refused (s := u) 4 off w hnot)

end Sys2Proof
end

section
/-! PROOF of O45 and O48 (20_memory.md rules R70 to R76, R80; 60_exceptions.md rules R211, R216;
70_reset_and_hazards.md rule R253). `Transacts` follows a sequencer step transaction by transaction; what
a step can record and how it can begin to wait are then inductions over it. -/

namespace Sys2Proof.Machine

/-! ### A step as its transactions -/

/-- What a transaction does to the environment when it is answered `Ok` (rules R71, R72). -/
def Request.granted (r : Request) : Env → Env :=
  match r with
  | .read p n => readEnv p n
  | .write p bytes => writeEnv p bytes

/-- What a transaction does to the state when it is answered `Fail` (rules R71, R72). -/
def Request.failed (r : Request) : State → State :=
  match r with
  | .read p n => failedRead p n
  | .write p bytes => failedWrite p bytes

/-- A step leads from `s` to `t` by transactions that are answered `Ok`, and then ends with no further
transaction and no IOError, or with a failed transaction, or in a wait. -/
inductive Transacts : State → State → Prop where
  | ends {s t : State} (henv : t.env = s.env)
      (herr : t.blk.err = some .ioError → s.blk.err = some .ioError) : Transacts s t
  | granted {s t : State} (r : Request) (h : Transacts (s.onEnv r.granted) t) : Transacts s t
  | failed {s : State} (r : Request) : Transacts s (failWith .ioError (r.failed s))
  | waits {s : State} (r : Request) (hn : s.env.nextReply = .never) : Transacts s (waitForever r s)

theorem Transacts.of_next {s t u : State} (h : (Host.Outcome.next u : Result) = .next t)
    (henv : u.env = s.env) (herr : u.blk.err = some .ioError → s.blk.err = some .ioError) :
    Transacts s t := by
  cases h
  exact .ends henv herr

theorem Transacts.of_read {p : InPort} {n : Nat} {s t : State} {k : List Byte → State → Result}
    (h : readElseFail p n s k = .next t) (hk : ∀ bytes u, k bytes u = .next t → Transacts u t) :
    Transacts s t := by
  rcases readElseFail_cases p n s k with ⟨-, -, h1⟩ | h1 | ⟨hn, h1⟩ <;> rw [h1] at h
  · exact .granted (.read p n) (hk _ _ h)
  · cases h
    exact .failed (.read p n)
  · cases h
    exact .waits _ hn

theorem Transacts.of_write {p : OutPort} {bs : List Byte} {s t : State} {k : State → Result}
    (h : writeElseFail p bs s k = .next t) (hk : ∀ u, k u = .next t → Transacts u t) :
    Transacts s t := by
  rcases writeElseFail_cases p bs s k with ⟨-, h1⟩ | ⟨-, h1⟩ | ⟨hn, h1⟩ <;> rw [h1] at h
  · exact .granted (.write p bs) (hk _ h)
  · cases h
    exact .failed (.write p bs)
  · cases h
    exact .waits _ hn

/-- A step whose last part writes an EXT entry and then changes other registers of the block. -/
theorem Transacts.of_writeExt {i : Nat} {v : Byte} {s t : State} {f : State → State}
    (h : writeExt i v s (fun u => .next (f u)) = .next t) (henv : ∀ u, (f u).env = u.env)
    (herr : ∀ u, (f u).blk.err = u.blk.err) : Transacts s t := by
  unfold writeExt at h
  split at h
  · exact .of_next h (henv _) fun he => by rwa [herr] at he
  · cases h

theorem embedByte_transacts {v : Byte} {s t : State} (h : embedByte v s = .next t) :
    Transacts s t :=
  .of_read h fun _ _ h => .of_write h fun _ h => .of_next h rfl id

theorem embedLength_transacts {v : Word} {p : Phase} {s t : State}
    (h : embedLength v p s = .next t) : Transacts s t :=
  .of_read h fun _ _ h => .of_write h fun _ h => .of_next h rfl id

theorem embedStep_transacts {s t : State} (h : embedStep s = .next t) : Transacts s t := by
  unfold embedStep at h
  cases hp : s.blk.phase <;> simp only [hp] at h
  case idle => exact .of_read h fun _ _ h => .of_write h fun _ h => .of_next h rfl id
  case header =>
    unfold embedMarker at h
    split at h
    · exact embedByte_transacts h
    · exact .of_next h rfl id
  case marker => exact embedLength_transacts h
  case extLen =>
    unfold embedExt at h
    split at h
    · split at h
      · exact embedByte_transacts h
      · cases h
    · exact .of_next h rfl id
  case ext => exact embedLength_transacts h
  case payLen =>
    unfold embedPayload at h
    split at h
    · exact .of_read h fun _ _ h => embedByte_transacts h
    · exact .of_next h rfl id
  case payload =>
    unfold embedTail at h
    split at h
    · exact .of_read h fun _ _ h => .of_write h fun _ h => .of_next h rfl id
    · exact .of_next h rfl id
  case output => exact .of_next h rfl id
  case done => cases h

theorem extractStep_transacts {s t : State} (h : extractStep s = .next t) : Transacts s t := by
  unfold extractStep at h
  cases hp : s.blk.phase <;> simp only [hp] at h
  case idle => exact .of_read h fun _ _ h => .of_next h rfl id
  case header =>
    unfold extractMarker at h
    split at h
    · exact .of_read h fun _ _ h => .of_next h rfl id
    · unfold verifyMarker at h
      split at h
      · exact .of_next h rfl id
      · exact .of_next h rfl nofun
  case marker =>
    refine .of_read h fun _ _ h => ?_
    dsimp only at h
    split at h
    · exact .of_next h rfl nofun
    · exact .of_next h rfl id
  case extLen =>
    unfold extractExt at h
    split at h
    · exact .of_read h fun _ _ h => .of_writeExt h (fun _ => rfl) fun _ => rfl
    · exact .of_writeExt h (fun _ => rfl) fun _ => rfl
  case ext => exact .of_read h fun _ _ h => .of_next h rfl id
  case payLen =>
    unfold extractPayload at h
    split at h
    · exact .of_next h rfl nofun
    · split at h
      · exact .of_read h fun _ _ h => .of_next h rfl id
      · exact .of_next h rfl id
  case payload => exact .of_write h fun _ h => .of_next h rfl id
  case output => exact .of_next h rfl id
  case done => cases h

theorem sequencerTurn_transacts {s t : State} (h : sequencerTurn s = .next t) : Transacts s t := by
  unfold sequencerTurn at h
  split at h
  · split at h
    · exact embedStep_transacts h
    · exact extractStep_transacts h
  · exact .of_next h rfl id

/-! ### What a transaction records -/

/-- A transaction answered `Ok` is recorded as such (rule R75). -/
theorem Request.granted_history (r : Request) (e : Env) :
    ∃ x, failedTransaction x = false ∧ (r.granted e).history = e.history ++ [x] := by
  cases r with
  | read p n => exact ⟨_, rfl, readEnv_history p n e⟩
  | write p bytes => exact ⟨_, rfl, writeEnv_history p bytes e⟩

/-- A transaction answered `Fail` is recorded as such (rule R75). -/
theorem Request.failed_history (r : Request) (s : State) :
    ∃ x, failedTransaction x = true ∧ (r.failed s).env.history = s.env.history ++ [x] := by
  cases r with
  | read p n => exact ⟨.readFail p n, rfl, by simp [Request.failed, failedRead]⟩
  | write p bytes => exact ⟨.writeFail p bytes, rfl, by simp [Request.failed, failedWrite]⟩

@[simp] theorem Request.failed_blk (r : Request) (s : State) : (r.failed s).blk = s.blk := by
  cases r <;> rfl

@[simp] theorem Request.failed_pending (r : Request) (s : State) :
    (r.failed s).env.pending = s.env.pending := by
  cases r <;> simp [Request.failed]

@[simp] theorem Request.granted_pending (r : Request) (e : Env) :
    (r.granted e).pending = e.pending := by
  cases r <;> simp [Request.granted]

@[simp] theorem Request.granted_plan (r : Request) (e : Env) :
    (r.granted e).plan = e.plan.tail := by
  cases r <;> simp [Request.granted]

/-- A step's transactions: all of them `Ok` and no IOError, or a failed one behind those answered `Ok` and
failure entry. -/
theorem Transacts.history {s t : State} (h : Transacts s t) :
    ∃ oks, (∀ x ∈ oks, failedTransaction x = false) ∧
      ((t.env.history = s.env.history ++ oks ∧
          (t.blk.err = some .ioError → s.blk.err = some .ioError)) ∨
        ∃ x, failedTransaction x = true ∧ t.env.history = s.env.history ++ (oks ++ [x]) ∧
          t.blk = failedBlock .ioError s.blk) := by
  induction h with
  | ends henv herr => exact ⟨[], nofun, .inl ⟨by simp [henv], herr⟩⟩
  | @granted s t r _ ih =>
    obtain ⟨oks, hoks, hend⟩ := ih
    obtain ⟨y, hy, hhist⟩ := r.granted_history s.env
    refine ⟨y :: oks, List.forall_mem_cons.2 ⟨hy, hoks⟩, ?_⟩
    simpa [hhist] using hend
  | @failed s r =>
    obtain ⟨x, hx, hhist⟩ := r.failed_history s
    exact ⟨[], nofun, .inr ⟨x, hx, by simpa using hhist, by simp⟩⟩
  | waits r _ => exact ⟨[], nofun, .inl ⟨by simp, id⟩⟩

/-! ### How a step begins to wait -/

/-- The environment leaves a transaction unanswered only where it plans to (rules R74, R80). -/
theorem never_mem_of_nextReply {e : Env} (h : e.nextReply = .never) : Reply.never ∈ e.plan := by
  unfold Env.nextReply at h
  cases hp : e.plan with
  | nil => simp [hp] at h
  | cons r rs =>
    obtain rfl : r = .never := by simpa [hp] using h
    exact List.mem_cons_self

/-- A step that begins to wait has changed the environment and the free values alone, and a `never` was
planned. -/
theorem Transacts.waiting {s t : State} (h : Transacts s t) (hp : s.env.pending = none)
    (ht : t.env.pending.isSome = true) : EnvOnly s t ∧ Reply.never ∈ s.env.plan := by
  induction h with
  | ends henv _ =>
    rw [henv, hp] at ht
    cases ht
  | granted r _ ih =>
    obtain ⟨hkept, hnever⟩ := ih (by simpa using hp) ht
    exact ⟨hkept, List.mem_of_mem_tail (by simpa using hnever)⟩
  | failed r =>
    rw [failWith_env, r.failed_pending, hp] at ht
    cases ht
  | waits r hn => exact ⟨⟨rfl, rfl, rfl⟩, never_mem_of_nextReply hn⟩

end Sys2Proof.Machine

namespace Sys2Proof

open Sys2Proof.Machine

/-- Settles O45: the transactions of a step are those that `Transacts.history` lists. -/
theorem failedTransactionIsTheOnlyIOError : Obligations.FailedTransactionIsTheOnlyIOError := by
  intro s t new hi hb hturn hnew
  have herr := (hi.blockOk.running hb).err
  obtain ⟨oks, hoks, ⟨hhist, hkeep⟩ | ⟨x, hx, hhist, hblk⟩⟩ := (sequencerTurn_transacts hturn).history
  · obtain rfl : new = oks := List.append_cancel_left (hnew.symm.trans hhist)
    have hnone : ¬∃ x ∈ new, failedTransaction x = true := by
      rintro ⟨x, hmem, hx⟩
      rw [hoks x hmem] at hx
      cases hx
    have hio : t.blk.err ≠ some .ioError := fun he => nomatch herr.symm.trans (hkeep he)
    exact ⟨iff_of_false hio hnone, fun hex => absurd hex hnone⟩
  · obtain rfl : new = oks ++ [x] := List.append_cancel_left (hnew.symm.trans hhist)
    have hmem : x ∈ oks ++ [x] := List.mem_append_right _ (List.mem_singleton_self x)
    refine ⟨iff_of_true (hblk ▸ rfl) ⟨x, hmem, hx⟩, fun _ => ⟨hblk, ⟨x, ?_, hx⟩, ?_⟩⟩
    · exact List.getLast?_concat
    · rw [List.dropLast_concat]
      exact hoks

/-- While a transaction is unanswered no step but reset has a next state (rule R80). -/
theorem step_unanswered {s : State} (hp : s.env.pending.isSome = true)
    (hin : ∀ rest, s.host.inputs ≠ .reset :: rest) : step s = .fault .transactionUnanswered := by
  unfold step takeStep
  split
  · rename_i rest hr
    exact absurd hr (hin rest)
  · exact if_pos hp

/-- Settles O48: only a step of a run issues transactions, and reset is taken before the wait is looked
at. -/
theorem unansweredTransactionWaitsForReset : Obligations.UnansweredTransactionWaitsForReset := by
  refine ⟨fun s t hp hturn ht => ?_, fun s => step_unanswered, fun s rest hin => ?_⟩
  · obtain ⟨⟨hcfg, hblk, -⟩, hnever⟩ := (sequencerTurn_transacts hturn).waiting hp ht
    have hbusy : s.blk.busy = true := by
      rcases sequencerTurn_cases hturn with ⟨-, rfl⟩ | ⟨hb, -⟩ | ⟨hb, -⟩
      · rw [hp] at ht
        cases ht
      · exact hb
      · exact hb
    exact ⟨hbusy, hblk, hcfg, List.ne_nil_of_mem hnever, hnever⟩
  · exact ⟨_, step_reset hin, rfl, rfl, rfl, rfl, rfl⟩

end Sys2Proof
end

section
/-! PROOF of O2, O3, O1, O4 and O59 (30_encoding.md rules R90 to R94, R110, R111). A word is its
two fields, so a word that decodes to a command has both fields of the command's own word. -/

namespace Sys2Proof

open Sys2Proof.Machine

/-! ### The decoder -/

/-- The facts about a command's own word, for every command. -/
theorem encoding_statement (i : Instr) : Laws.Encoding.Statement i := by
  cases i with
  | nop => exact Laws.Encoding.nop
  | pack8 => exact Laws.Encoding.pack8
  | pack32 => exact Laws.Encoding.pack32
  | unpack8 => exact Laws.Encoding.unpack8
  | unpack32 => exact Laws.Encoding.unpack32
  | embed => exact Laws.Encoding.embed
  | extract => exact Laws.Encoding.extract

@[simp] theorem decode_encode (i : Instr) : decode (encode i) = .ok i := (encoding_statement i).1

/-- The two fields of rule R92 make up the whole word. -/
theorem reservedField_append_opField (w : Word) : reservedField w ++ opField w = w :=
  (BitVec.extractLsb'_append_extractLsb'_eq_extractLsb' rfl).trans BitVec.extractLsb'_eq_self

theorem word_eq_of_fields {v w : Word} (hr : reservedField v = reservedField w)
    (ho : opField v = opField w) : v = w := by
  rw [← reservedField_append_opField v, hr, ho, reservedField_append_opField]

theorem reservedField_of_decode {w : Word} {i : Instr} (h : decode w = .ok i) :
    reservedField w = 0#29 := by
  unfold decode at h
  split at h
  · cases h
  · rename_i hr
    exact not_not.1 hr

/-- The row of rule R91 is chosen by OP alone. -/
theorem opField_of_decode {w : Word} {i : Instr} (h : decode w = .ok i) :
    opField w = opField (encode i) := by
  unfold decode at h
  rw [if_neg (not_not.2 (reservedField_of_decode h))] at h
  refine BitVec.eq_of_toNat_eq ?_
  split at h
  case h_8 => cases h
  all_goals
    cases h
    assumption

theorem decode_eq_ok_iff {w : Word} {i : Instr} : decode w = .ok i ↔ w = encode i := by
  refine ⟨fun h => word_eq_of_fields ?_ (opField_of_decode h), fun h => h ▸ decode_encode i⟩
  rw [reservedField_of_decode h, reservedField_of_decode (decode_encode i)]

/-- Settles O2: a word that decodes to a command has the fields of the command's own word. -/
theorem decodeAndEncodeAgree : Obligations.DecodeAndEncodeAgree := by
  intro w i
  obtain ⟨-, hword, hwf⟩ := encoding_statement i
  exact ⟨decode_eq_ok_iff, hwf, hword⟩

/-- A reserved word (rule R94) decodes to no command. -/
theorem decode_reserved {w : Word} (h : reservedField w ≠ 0#29 ∨ opField w = 7#3) :
    ∃ e, decode w = .error e := by
  cases hd : decode w with
  | error e => exact ⟨e, rfl⟩
  | ok i =>
    rw [decode_eq_ok_iff] at hd
    obtain ⟨-, ⟨hres, hop⟩, -⟩ := encoding_statement i
    subst hd
    rcases h with h | h
    · exact absurd hres h
    · exact absurd h hop

/-! ### A write to CTRL -/

theorem step_writeCtrl {s : State} {w : Word} {rest : List HostEvent} (hp : s.env.pending = none)
    (h : s.host.inputs = .write 4 0x000 w :: rest) : step s = issueCommand w (s.setInputs rest) :=
  (step_event hp h).trans (hostWrite_ctrl w _)

theorem issueCommand_ok {w : Word} {i : Instr} (h : decode w = .ok i) (s : State) :
    issueCommand w s = exec i s := by
  simp only [issueCommand, h]

theorem issueCommand_error {w : Word} {e : DecodeError} (h : decode w = .error e) (s : State) :
    issueCommand w s = .next (s.answer .refused) := by
  simp only [issueCommand, h]

/-- Settles O3: a reserved word decodes to no command, and its issue is then refused. -/
theorem reservedWordsAreRefused : Obligations.ReservedWordsAreRefused := by
  intro s w rest hp hin hres
  obtain ⟨e, he⟩ := decode_reserved hres
  rw [step_writeCtrl hp hin, issueCommand_error he]

/-- Settles O1: the rows of the table are the commands' own words. -/
theorem commandWordsDecodeAsListed : Obligations.CommandWordsDecodeAsListed :=
  ⟨decode_encode .nop, decode_encode .pack8, decode_encode .pack32, decode_encode .unpack8,
    decode_encode .unpack32, decode_encode .embed, decode_encode .extract, by decide, by decide⟩

theorem tableWord_toNat (w : Word) : tableWord 32 w.toNat = w := by
  unfold tableWord
  rw [Nat.mod_eq_of_lt w.isLt, BitVec.ofNat_toNat, BitVec.setWidth_eq]

/-- Settles O4: the event at the head of the queue is the write to CTRL, also where
`withFetchWord` has placed it. -/
theorem stepRunsTheCommandWritten : Obligations.StepRunsTheCommandWritten := by
  intro s w i hp hd
  have hrun : ∀ (u : State) (rest : List HostEvent), u.env.pending = none →
      u.host.inputs = .write 4 0x000 w :: rest → step u = exec i (u.setInputs rest) :=
    fun u rest hu hin => (step_writeCtrl hu hin).trans (issueCommand_ok hd _)
  refine ⟨fun rest => hrun s rest hp, ?_⟩
  unfold State.withFetchWord
  rw [tableWord_toNat]
  exact hrun _ s.host.inputs hp rfl

/-! ### Script lines -/

/-- A write of an RW* register at the head of the queue, while READY (20_memory.md rule R64). -/
theorem step_writeReg {s : State} {r : HostReg} {w : Word} {rest : List HostEvent}
    (hp : s.env.pending = none) (hin : s.host.inputs = .write 4 r.offset w :: rest)
    (hr : regAt s.cfg r.offset = some r) (hw : r.writable = true) (hrd : Ready s.blk) :
    step s = .next (((s.setInputs rest).onBlk (writeReg r w)).answer .okWrite) :=
  (step_event hp hin).trans (hostWrite_writable (s := s.setInputs rest) w hr hw hrd)

/-- The two halves of a 64-bit quantity make up the quantity (10_state.md rule R23). -/
@[simp] theorem ofHiLo_hiWord_loWord (d : DWord) : ofHiLo (hiWord d) (loWord d) = d :=
  (BitVec.extractLsb'_append_extractLsb'_eq_extractLsb' rfl).trans BitVec.extractLsb'_eq_self

/-- After both halves are written, whatever CARRIER_LEN held is gone. -/
theorem writeReg_carrierLen (n : DWord) (b : Block) :
    writeReg .carrierLenHi (hiWord n) (writeReg .carrierLenLo (loWord n) b) =
      { b with carrierLen := n } := by
  simp [writeReg]

/-- Settles O59: the codes and events by evaluation; the two writes of CARRIER_LEN step by step,
READY holding after the first. -/
theorem scriptLinesAreHostWrites : Obligations.ScriptLinesAreHostWrites := by
  refine ⟨fun i => ⟨rfl, rfl⟩, ⟨rfl, rfl⟩, fun s n hrd hp hin => ?_⟩
  have hload : s.loadScript [.wrCarrierLen n] = s.setInputs
      [.write 4 HostReg.carrierLenLo.offset (loWord n),
        .write 4 HostReg.carrierLenHi.offset (hiWord n)] :=
    congrArg (fun rest => s.setInputs (_ :: _ :: rest)) hin
  rw [hload]
  refine Eq.trans (runFor_succ (step_writeReg (r := .carrierLenLo) hp rfl rfl rfl hrd)) ?_
  refine Eq.trans (runFor_succ (step_writeReg (r := .carrierLenHi) hp rfl rfl rfl hrd)) ?_
  refine congrArg (Host.Outcome.next (σ := State)) ?_
  simp [State.onBlk, State.setInputs, State.answer, writeReg_carrierLen, hin]

end Sys2Proof
end

section
/-! PROOF of O27 and O56 (30_encoding.md rules R102, R108; 40_bit_codec.md rules R127, R129;
41_embedder.md rules R163, R164). -/

namespace Sys2Proof

open Sys2Proof.Machine

/-! ### Segments -/

theorem seg_length {l : List Byte} {a b : Nat} (h : b ≤ l.length) : (seg l a b).length = b - a := by
  simp [seg]
  omega

theorem seg_append_seg {l : List Byte} {a b c : Nat} (hab : a ≤ b) (hbc : b ≤ c) :
    seg l a b ++ seg l b c = seg l a c := by
  unfold seg
  rw [show c - a = (b - a) + (c - b) by omega, List.take_add, List.drop_drop,
    show a + (b - a) = b by omega]

theorem take_append_seg {l : List Byte} {a b : Nat} (h : a ≤ b) :
    l.take b = l.take a ++ seg l a b :=
  (seg_append_seg (Nat.zero_le a) h).symm

theorem seg_zero_length (l : List Byte) : seg l 0 l.length = l := by simp [seg]

/-- Byte `i` of `l[a..b)`. -/
theorem seg_getD {l : List Byte} {a b i : Nat} (h : i < b - a) :
    (seg l a b).getD i 0 = l.getD (a + i) 0 := by
  simp [seg, List.getD_eq_getElem?_getD, h]

/-- 32 bytes are four groups of 8. -/
theorem four_segs {l : List Byte} (h : l.length = 32) :
    seg l 0 8 ++ seg l 8 16 ++ seg l 16 24 ++ seg l 24 32 = l := by
  rw [seg_append_seg, seg_append_seg, seg_append_seg, ← h, seg_zero_length] <;> omega

/-! ### The length as four bytes -/

/-- A word is its four bytes, most significant first. -/
theorem word_eq_four_bytes (v : Word) :
    v.extractLsb' 24 8 ++ v.extractLsb' 16 8 ++ v.extractLsb' 8 8 ++ v.extractLsb' 0 8 = v := by
  have hbytes {a b m n : Nat} (h : b = a + n) :
      v.extractLsb' b m ++ v.extractLsb' a n = v.extractLsb' a (m + n) :=
    BitVec.extractLsb'_append_extractLsb'_eq_extractLsb' h
  rw [hbytes (b := 24) rfl, hbytes (b := 16) rfl, hbytes (b := 8) rfl]
  exact BitVec.extractLsb'_eq_self

/-- Lists of bytes are equal when all their bits are. -/
theorem bytes_ext {l m : List Byte} (hlen : l.length = m.length)
    (h : ∀ i < l.length, ∀ j, (l.getD i 0).getLsbD j = (m.getD i 0).getLsbD j) : l = m := by
  refine List.ext_getElem hlen fun i hl hm => BitVec.eq_of_getLsbD_eq fun j _ => ?_
  simpa [List.getD_eq_getElem?_getD, hl, hm] using h i hl j

/-- A group of 8 of the 32 packed lanes is one byte of the value, packed into that group of the
carrier. -/
theorem seg_packU32 (v : Word) (c : List Byte) {a b d : Nat} (hb : a + 8 = b) (hd : d + b = 32) :
    seg (packU32 v c) a b = packByte (v.extractLsb' d 8) (seg c a b) := by
  have hlen : (seg (packU32 v c) a b).length = 8 := by
    rw [seg_length (by rw [packU32_length]; omega)]
    omega
  refine bytes_ext (by rw [hlen, packByte_length]) fun i hi j => ?_
  rw [hlen] at hi
  rw [seg_getD (by omega), packU32_bit v c (by omega), packByte_bit _ _ hi, seg_getD (by omega),
    BitVec.getLsbD_extractLsb', show 31 - (a + i) = d + (7 - i) by omega]
  simp [show 7 - i < 8 by omega]

/-- A byte of the unpacked value is what its group of the carrier unpacks to. -/
theorem extractLsb'_unpackU32 (c : List Byte) {a b d : Nat} (hb : a + 8 = b) (hd : d + b = 32) :
    (unpackU32 c).extractLsb' d 8 = unpackByte (seg c a b) := by
  refine BitVec.eq_of_getLsbD_eq fun j hj => ?_
  obtain ⟨i, hi, rfl⟩ : ∃ i < 8, j = 7 - i := ⟨7 - j, by omega, by omega⟩
  calc ((unpackU32 c).extractLsb' d 8).getLsbD (7 - i)
      = (unpackU32 c).getLsbD (31 - (a + i)) := by
        rw [BitVec.getLsbD_extractLsb', show 31 - (a + i) = d + (7 - i) by omega]
        simp [hj]
    _ = (c.getD (a + i) 0).getLsbD 0 := unpackU32_bit c (by omega)
    _ = ((seg c a b).getD i 0).getLsbD 0 := by rw [seg_getD (by omega)]
    _ = (unpackByte (seg c a b)).getLsbD (7 - i) := (unpackByte_bit _ hi).symm

/-- Settles O27: the 32 lanes and the 32 bits in four groups each. -/
theorem lengthIsFourBytesMostSignificantFirst :
    Obligations.LengthIsFourBytesMostSignificantFirst := by
  refine ⟨fun v c _ => ?_, fun c _ => ?_⟩
  · rw [← four_segs (packU32_length v c), seg_packU32 v c (d := 24) rfl rfl,
      seg_packU32 v c (d := 16) rfl rfl, seg_packU32 v c (d := 8) rfl rfl,
      seg_packU32 v c (d := 0) rfl rfl]
  · rw [← word_eq_four_bytes (unpackU32 c), extractLsb'_unpackU32 c (a := 0) rfl rfl,
      extractLsb'_unpackU32 c (a := 8) rfl rfl, extractLsb'_unpackU32 c (a := 16) rfl rfl,
      extractLsb'_unpackU32 c (a := 24) rfl rfl]

/-! ### Embedding keeps every bit but bit 0 -/

/-- Two bytes that may differ in bit 0 only (30_encoding.md rule R108). -/
abbrev UpperBitsAgree (x y : Byte) : Prop := ∀ j, 1 ≤ j → x.getLsbD j = y.getLsbD j

/-- Streams of one length that may differ in bit 0 of each byte only. -/
abbrev StreamsAgree (l m : List Byte) : Prop := List.Forall₂ UpperBitsAgree l m

theorem StreamsAgree.refl (l : List Byte) : StreamsAgree l l :=
  List.forall₂_same.2 fun _ _ _ _ => rfl

theorem StreamsAgree.append {l m l' m' : List Byte} (h : StreamsAgree l m)
    (h' : StreamsAgree l' m') :
    StreamsAgree (l ++ l') (m ++ m') := List.rel_append h h'

theorem streamsAgree_iff {l m : List Byte} :
    StreamsAgree l m ↔
      l.length = m.length ∧ ∀ i < l.length, UpperBitsAgree (l.getD i 0) (m.getD i 0) := by
  refine List.forall₂_iff_get.trans
    (and_congr_right fun hlen => ⟨fun h i hi => ?_, fun h i hi hi' => ?_⟩)
  · simpa [List.getD_eq_getElem?_getD, hi, hlen ▸ hi] using h i hi (hlen ▸ hi)
  · simpa [List.getD_eq_getElem?_getD, hi, hi'] using h i hi

theorem packByte_streamsAgree (v : Byte) {c : List Byte} (h : c.length = 8) :
    StreamsAgree (packByte v c) c := by
  refine streamsAgree_iff.2 ⟨by rw [packByte_length, h], fun i hi j hj => ?_⟩
  rw [packByte_length] at hi
  rw [packByte_bit v c hi, if_neg (by omega)]

theorem packU32_streamsAgree (v : Word) {c : List Byte} (h : c.length = 32) :
    StreamsAgree (packU32 v c) c := by
  refine streamsAgree_iff.2 ⟨by rw [packU32_length, h], fun i hi j hj => ?_⟩
  rw [packU32_length] at hi
  rw [packU32_bit v c hi, if_neg (by omega)]

theorem packs_streamsAgree (s : List Byte) {c : List Byte} (h : c.length = 8 * s.length) :
    StreamsAgree (packs s c) c := by
  induction s generalizing c with
  | nil =>
    obtain rfl : c = [] := List.length_eq_zero_iff.1 h
    exact .nil
  | cons v r ih =>
    rw [List.length_cons] at h
    have hgroup := packByte_streamsAgree v (c := c.take 8) (by rw [List.length_take]; omega)
    have hrest := ih (c := c.drop 8) (by rw [List.length_drop]; omega)
    simpa [packs] using hgroup.append hrest

/-- A stream that agrees with the first `b` carrier bytes, and then a field packed into the next
group. -/
theorem StreamsAgree.append_packs {l carrier : List Byte} {b : Nat}
    (h : StreamsAgree l (carrier.take b)) (s : List Byte) (hs : b + 8 * s.length ≤ carrier.length) :
    StreamsAgree (l ++ packs s (seg carrier b (b + 8 * s.length)))
      (carrier.take (b + 8 * s.length)) := by
  rw [take_append_seg (Nat.le_add_right b _)]
  exact h.append (packs_streamsAgree s (by rw [seg_length hs]; omega))

/-- The same for a length field (rule R102). -/
theorem StreamsAgree.append_packU32 {l carrier : List Byte} {b : Nat}
    (h : StreamsAgree l (carrier.take b)) (v : Word) (hs : b + 32 ≤ carrier.length) :
    StreamsAgree (l ++ packU32 v (seg carrier b (b + 32))) (carrier.take (b + 32)) := by
  rw [take_append_seg (Nat.le_add_right b _)]
  exact h.append (packU32_streamsAgree v (by rw [seg_length hs]; omega))

/-- The stego stream is a header copy and an embedded region, which agree with the carrier, and
then the carrier's own tail (41_embedder.md rule R163). -/
theorem stegoOf_eq {c : Config} {carrier ext payload : List Byte} {need : Nat}
    (hneed : need = c.headerSize + c.required ext.length payload.length)
    (h : need ≤ carrier.length) :
    ∃ l, stegoOf c carrier ext payload = l ++ carrier.drop need ∧
      carrier.take c.headerSize <+: l ∧ StreamsAgree l (carrier.take need) := by
  unfold Config.required Config.markerLen at hneed
  obtain rfl : need =
      c.headerSize + 8 * c.marker.length + 32 + 8 * ext.length + 32 + 8 * payload.length := by omega
  refine ⟨_, rfl, ?_, ?_⟩
  · simp only [List.append_assoc, List.prefix_append]
  · exact StreamsAgree.refl (carrier.take c.headerSize)
      |>.append_packs c.marker (by omega)
      |>.append_packU32 (BitVec.ofNat 32 ext.length) (by omega)
      |>.append_packs ext (by omega)
      |>.append_packU32 (BitVec.ofNat 32 payload.length) (by omega)
      |>.append_packs payload h

/-- Settles O56: the parts of the stego stream agree with the carrier's, the first and the last
being the carrier's own. -/
theorem embeddingChangesOnlyBitZero : Obligations.EmbeddingChangesOnlyBitZero := by
  intro c carrier ext payload hroom stego
  obtain ⟨l, hstego, hheader, hregion⟩ := stegoOf_eq rfl hroom
  have hhead : c.headerSize ≤ carrier.length := (Nat.le_add_right _ _).trans hroom
  generalize c.headerSize + c.required ext.length payload.length = need at *
  have hstego : stego = l ++ carrier.drop need := hstego
  have hlen : l.length = need := by rw [hregion.length_eq, List.length_take, Nat.min_eq_left hroom]
  have hagree : StreamsAgree stego carrier := by
    have := hregion.append (StreamsAgree.refl (carrier.drop need))
    rwa [List.take_append_drop, ← hstego] at this
  obtain ⟨hsame, hbits⟩ := streamsAgree_iff.1 hagree
  refine ⟨hsame, fun k hk => ?_, fun k j hk => hbits k (hsame ▸ hk) j⟩
  rcases hk with hk | hk
  · obtain ⟨r, hr⟩ : carrier.take c.headerSize <+: stego :=
      hstego ▸ hheader.trans (List.prefix_append l _)
    rw [← hr, List.getElem?_append_left (by rw [List.length_take]; omega),
      List.getElem?_take_of_lt hk]
  · rw [hstego, List.getElem?_append_right (hlen ▸ hk), List.getElem?_drop, hlen,
      Nat.add_sub_cancel' hk]

end Sys2Proof
end

section
/-! PROOF of O60 (30_encoding.md rules R110, R111; 70_reset_and_hazards.md rule R253). Every move
of a run comes closer to its end: to a later PHASE, or further through the field of the same
PHASE. -/

namespace Sys2Proof.Machine

/-! ### Answered transactions -/

@[simp] theorem Request.failed_plan (r : Request) (s : State) :
    (r.failed s).env.plan = s.env.plan.tail := by
  cases r <;> simp [Request.failed, failedRead, failedWrite]

/-- A step uses answers up and plans none. -/
theorem Transacts.plan_subset {s t : State} (h : Transacts s t) :
    t.env.pending.isSome = true ∨ t.env.plan ⊆ s.env.plan := by
  induction h with
  | ends henv _ => exact .inr (henv ▸ List.Subset.refl _)
  | granted r _ ih =>
    rw [State.onEnv_env, r.granted_plan] at ih
    exact ih.imp id fun hsub => List.Subset.trans hsub (List.tail_subset _)
  | @failed s r => exact .inr (by simpa using List.tail_subset s.env.plan)
  | waits r _ => exact .inl rfl

/-- Where every transaction is answered, the sequencer's turn leaves none unanswered, and the
coming ones are answered too. -/
theorem sequencerTurn_alwaysAnswers {s t : State} (ha : AlwaysAnswers s.env)
    (h : sequencerTurn s = .next t) : AlwaysAnswers t.env := by
  obtain ⟨hp, hnever⟩ := ha
  have htr := sequencerTurn_transacts h
  have hpt : t.env.pending = none := by
    by_contra hne
    exact hnever (htr.waiting hp (Option.isSome_iff_ne_none.2 hne)).2
  refine ⟨hpt, fun hmem => ?_⟩
  rcases htr.plan_subset with hwait | hsub
  · rw [hpt] at hwait
    cases hwait
  · exact hnever (hsub hmem)

/-! ### How far a run is from its end -/

/-- What is left of the field that the run is in (41_embedder.md rules R154, R156, R158, R159,
42_extractor.md rules R182, R186, R191). -/
def fieldLeft (c : Config) (b : Block) : Nat :=
  match b.phase with
  | .header => c.markerLen - b.idx.toNat
  | .extLen => b.extLen.toNat - b.idx.toNat
  | .payLen => b.payLen.toNat - b.idx.toNat
  | .payload => b.carrierLen.toNat - b.curIn.toNat
  | .idle | .marker | .ext | .output | .done => 0

/-- What is left of a run: the milestones, and within one of them the field. -/
def runLeft (c : Config) (b : Block) : ℕ ×ₗ ℕ := toLex (16 - b.phase.code.toNat, fieldLeft c b)

/-- A block that is closer to the end of its run, or at it. -/
abbrev RunCloser (c : Config) (b b' : Block) : Prop :=
  b'.busy = false ∨ runLeft c b' < runLeft c b

theorem runLeft_lt_of_phase {c : Config} {b b' : Block}
    (h : b.phase.code.toNat < b'.phase.code.toNat) : runLeft c b' < runLeft c b :=
  Prod.Lex.toLex_lt_toLex.2 (.inl (by have := b'.phase.code.isLt; simp only; omega))

theorem runLeft_lt_of_field {c : Config} {b b' : Block} (hp : b'.phase = b.phase)
    (h : fieldLeft c b' < fieldLeft c b) : runLeft c b' < runLeft c b :=
  Prod.Lex.toLex_lt_toLex.2 (.inr ⟨by rw [hp], h⟩)

/-- One more byte of a field is done (10_state.md rule R31). -/
theorem left_of_idx_succ {i : Word} {n : Nat} (hi : i.toNat < n) (hn : n ≤ 4294967295) :
    n - (i + 1).toNat < n - i.toNat := by
  rw [idx_succ (by omega)]
  omega

/-- One more byte of the tail is done (41_embedder.md rule R159). -/
theorem left_of_cursor_succ {d e : DWord} (h : d.toNat < e.toNat) :
    e.toNat - (d + BitVec.ofNat 64 1).toNat < e.toNat - d.toNat := by
  have he := e.isLt
  rw [cursor_add (by omega)]
  omega

theorem RunCloser.of_field {c : Config} {b b' : Block} (hp : b'.phase = b.phase)
    (h : fieldLeft c b' < fieldLeft c b) : RunCloser c b b' :=
  .inr (runLeft_lt_of_field hp h)

theorem EmbedMove.runCloser {c : Config} {b b' : Block} (hc : c.Wf) (h : EmbedMove c b b') :
    RunCloser c b b' := by
  obtain ⟨-, ⟨-, hmarker⟩, -⟩ := hc
  have hmarker : c.markerLen ≤ 256 := hmarker
  have hext := b.extLen.isLt
  have hpay := b.payLen.isLt
  cases h with
  | markerByte h hi | extByte h hi | payByte h hi =>
    exact .of_field rfl (by simpa [fieldLeft, h] using left_of_idx_succ hi (by omega))
  | tailByte h hi => exact .of_field rfl (by simpa [fieldLeft, h] using left_of_cursor_succ hi)
  | finish h => exact .inl rfl
  | header h | markerEnd h | extLen h | extEnd h | payLen h | payEnd h | tailEnd h =>
    exact .inr (runLeft_lt_of_phase (by simp [h, Phase.code]))

theorem ExtractMove.runCloser {s : State} {b b' : Block} (hc : s.cfg.Wf) (h : ExtractMove s b b') :
    RunCloser s.cfg b b' := by
  obtain ⟨-, ⟨-, hmarker⟩, -⟩ := hc
  have hmarker : s.cfg.markerLen ≤ 256 := hmarker
  have hext := b.extLen.isLt
  have hpay := b.payLen.isLt
  cases h with
  | markerByte v h hi | extByte v h hi | payByte v h _ hi =>
    exact .of_field rfl (by simpa [fieldLeft, h] using left_of_idx_succ hi (by omega))
  | markerBad | extLenBad | resource | finish => exact .inl rfl
  | header h | markerOk h | extLenOk _ h | extEnd h | payLen _ h | payEnd h | output h =>
    exact .inr (runLeft_lt_of_phase (by simp [h, Phase.code]))

/-- A turn that leaves no transaction unanswered brings the run closer to its end. -/
theorem Stepped.runCloser {s t : State} {M : Block → Prop} (h : Stepped s t M)
    (hp : t.env.pending = none) (hmove : ∀ b, M b → RunCloser s.cfg s.blk b) :
    RunCloser s.cfg s.blk t.blk := by
  obtain ⟨-, -, ⟨hwait, -⟩ | ⟨-, -, hb⟩ | ⟨-, hm⟩⟩ := h
  · rw [hp] at hwait
    cases hwait
  · exact .inl (hb ▸ rfl)
  · exact hmove _ hm

theorem sequencerTurn_runCloser {s t : State} (hc : s.cfg.Wf) (ha : AlwaysAnswers s.env)
    (h : sequencerTurn s = .next t) : RunCloser s.cfg s.blk t.blk := by
  obtain ⟨hp, -⟩ := sequencerTurn_alwaysAnswers ha h
  rcases sequencerTurn_cases h with ⟨hb, rfl⟩ | ⟨-, -, hs⟩ | ⟨-, -, hs⟩
  · exact .inl hb
  · exact hs.runCloser hp fun _ hm => hm.runCloser hc
  · exact hs.runCloser hp fun _ hm => hm.runCloser hc

end Sys2Proof.Machine

namespace Sys2Proof

open Sys2Proof.Machine

/-! ### The line `wait` -/

/-- The line `wait` has come from `s` to its end `t`: STATUS was read as each of `earlier`, with
BUSY = 1, and then once more with BUSY = 0 (rule R111). -/
structure WaitEnds (s t : State) (earlier : List Word) : Prop where
  inputs  : t.host.inputs = []
  idle    : t.blk.busy = false
  answers : t.host.answers = s.host.answers ++ earlier.map .okRead ++ [.okRead (statusWord t.blk)]
  busy    : ∀ w ∈ earlier, w.getLsbD 5 = true

/-- The state after one read of STATUS, with the events `es` to come. -/
def statusRead (es : List HostEvent) (s : State) : State :=
  (s.setInputs es).answer (.okRead (statusWord s.blk))

/-- With BUSY = 0 one read ends the wait. -/
theorem run_poll_idle {s : State} (hp : s.env.pending = none) (hin : s.host.inputs = [.poll])
    (hb : s.blk.busy = false) :
    runFor 1 s = .next (statusRead [] s) ∧ WaitEnds s (statusRead [] s) [] := by
  obtain ⟨-, -, -, hidle⟩ := queueSaysWhoMovesNext s [] hp
  exact ⟨runFor_succ (hidle hin hb), rfl, hb, by simp [statusRead], nofun⟩

/-- The sequencer's turn between two reads is a step of the machine (log 23). -/
theorem step_turn_between_reads {s v : State} (hp : s.env.pending = none)
    (hv : sequencerTurn (statusRead [.poll] s) = .next v) :
    step (statusRead [.turn, .poll] s) = .next v := by
  obtain ⟨-, hturn, -⟩ := queueSaysWhoMovesNext (statusRead [.turn, .poll] s) [.poll] hp
  exact (hturn rfl).trans hv

/-- With BUSY = 1 a read of STATUS and the sequencer's turn are two steps (log 23). -/
theorem run_poll_busy {s v : State} (hp : s.env.pending = none) (hin : s.host.inputs = [.poll])
    (hb : s.blk.busy = true) (hv : sequencerTurn (statusRead [.poll] s) = .next v) (n : Nat) :
    runFor (n + 2) s = runFor n v := by
  obtain ⟨-, -, hread, -⟩ := queueSaysWhoMovesNext s [] hp
  exact (runFor_succ (hread hin hb)).trans (runFor_succ (step_turn_between_reads hp hv))

/-- A wait that goes on after a read with BUSY = 1 is a wait with that read in front. -/
theorem WaitEnds.cons {s v t : State} {earlier : List Word} (h : WaitEnds v t earlier)
    (hv : v.host = (statusRead [.poll] s).host) (hb : s.blk.busy = true) :
    WaitEnds s t (statusWord s.blk :: earlier) where
  inputs := h.inputs
  idle := h.idle
  answers := by simp [h.answers, hv, statusRead]
  busy := List.forall_mem_cons.2 ⟨by rw [statusWord_busy, hb], h.busy⟩

/-- From BUSY = 1 the line `wait` ends, by induction on what is left of the run. -/
theorem waitEnds_of_busy {s : State} (hi : Inv s) (ha : AlwaysAnswers s.env)
    (hin : s.host.inputs = [.poll]) (hb : s.blk.busy = true) :
    ∃ n t earlier, runFor n s = .next t ∧ WaitEnds s t earlier ∧ earlier ≠ [] := by
  induction hleft : runLeft s.cfg s.blk using WellFoundedLT.induction generalizing s with
  | ind left ih =>
    subst hleft
    have hp := ha.1
    have hread (es : List HostEvent) : Inv (statusRead es s) :=
      hi.of_sameMachine ⟨rfl, rfl, rfl, rfl⟩
    obtain ⟨v, hv⟩ := sequencerTurn_answers (hread [.poll])
    have hstep := step_turn_between_reads hp hv
    have hhost := sequencerTurn_host hv
    have hin' : v.host.inputs = [.poll] := hhost ▸ rfl
    have ha' := sequencerTurn_alwaysAnswers (s := statusRead [.poll] s) ha hv
    suffices h : ∃ n t earlier, runFor n v = .next t ∧ WaitEnds v t earlier by
      obtain ⟨n, t, earlier, hn, hends⟩ := h
      exact ⟨n + 2, t, _, (run_poll_busy hp hin hb hv n).trans hn, hends.cons hhost hb,
        List.cons_ne_nil _ _⟩
    cases hb' : v.blk.busy with
    | false => exact ⟨1, _, [], run_poll_idle ha'.1 hin' hb'⟩
    | true =>
      have hcfg : v.cfg = s.cfg :=
        configurationAndUnusedRegistersStay.1 (statusRead [.turn, .poll] s) v hstep
      have hcloser : RunCloser s.cfg s.blk v.blk :=
        sequencerTurn_runCloser (s := statusRead [.poll] s) hi.cfg ha hv
      have hlt : runLeft v.cfg v.blk < runLeft s.cfg s.blk :=
        hcfg ▸ hcloser.resolve_left (by simp [hb'])
      obtain ⟨n, t, earlier, hn, hends, -⟩ :=
        ih _ hlt (everyStepKeepsTheInvariant _ _ (hread _) hstep) ha' hin' hb' rfl
      exact ⟨n, t, earlier, hn, hends⟩

/-- Settles O60: one read from BUSY = 0; from BUSY = 1 the reads of `waitEnds_of_busy`. -/
theorem waitReadsStatusUntilIdle : Obligations.WaitReadsStatusUntilIdle := by
  intro s hi hin ha
  have hload : s.loadScript [.wait] = s.setInputs [.poll] :=
    congrArg (fun rest => s.setInputs (_ :: rest)) hin
  have hi' : Inv (s.setInputs [.poll]) := hi.of_sameMachine ⟨rfl, rfl, rfl, rfl⟩
  rw [hload]
  cases hb : s.blk.busy with
  | false =>
    obtain ⟨hrun, hinputs, hidle, hanswers, hbusy⟩ :=
      run_poll_idle (s := s.setInputs [.poll]) ha.1 rfl hb
    exact ⟨1, _, [], hrun, hinputs, hidle, hanswers, by rw [statusWord_busy, hidle], hbusy, nofun,
      fun _ => ⟨rfl, rfl⟩⟩
  | true =>
    obtain ⟨n, t, earlier, hrun, ⟨hinputs, hidle, hanswers, hbusy⟩, hne⟩ :=
      waitEnds_of_busy hi' ha rfl hb
    exact ⟨n, t, earlier, hrun, hinputs, hidle, hanswers, by rw [statusWord_busy, hidle], hbusy,
      fun _ => hne, nofun⟩

end Sys2Proof
end

section
/-! PROOF of O14 (30_encoding.md rule R96): each field of STATUS is the part that stands at its
place. -/

namespace Sys2Proof.Machine

/-- What stands above the low part of a word. -/
theorem extractLsb'_append_above {v w : Nat} (hi : BitVec v) (lo : BitVec w) (start len : Nat) :
    (hi ++ lo).extractLsb' (start + w) len = hi.extractLsb' start len := by
  rw [BitVec.extractLsb'_append_eq_of_le (Nat.le_add_left w start), Nat.add_sub_cancel]

theorem getLsbD_append_above {v w : Nat} (hi : BitVec v) (lo : BitVec w) (i : Nat) :
    (hi ++ lo).getLsbD (i + w) = hi.getLsbD i := by
  rw [BitVec.getLsbD_append, if_neg (by omega), Nat.add_sub_cancel]

/-- The last bit of a word whose last field is one bit. -/
theorem getLsbD_append_last {v : Nat} (hi : BitVec v) (bit : BitVec 1) :
    (hi ++ bit).getLsbD 0 = bit.getLsbD 0 := by
  rw [BitVec.getLsbD_append, if_pos Nat.one_pos]

/-- Bits 3:0 of STATUS. -/
theorem statusWord_phase (b : Block) : (statusWord b).extractLsb' 0 4 = b.phase.code :=
  BitVec.extractLsb'_append_eq_right

/-- STATUS from bit 8 up is ERR with 21 zeros above it. -/
theorem statusWord_above_flags (b : Block) (start len : Nat) :
    (statusWord b).extractLsb' (start + 8) len = (0#21 ++ errCode b.err).extractLsb' start len :=
  (extractLsb'_append_above _ _ (start + 4) len).trans <|
  (extractLsb'_append_above _ _ (start + 3) len).trans <|
  (extractLsb'_append_above _ _ (start + 2) len).trans <|
  (extractLsb'_append_above _ _ (start + 1) len).trans <|
  extractLsb'_append_above _ _ start len

theorem statusWord_err (b : Block) : (statusWord b).extractLsb' 8 3 = errCode b.err :=
  (statusWord_above_flags b 0 3).trans BitVec.extractLsb'_append_eq_right

theorem statusWord_zeros (b : Block) : (statusWord b).extractLsb' 11 21 = 0#21 :=
  (statusWord_above_flags b 3 21).trans <|
  (extractLsb'_append_above _ _ 0 21).trans BitVec.extractLsb'_eq_self

theorem statusWord_mode (b : Block) : (statusWord b).getLsbD 4 = b.mode.code.getLsbD 0 :=
  (getLsbD_append_above _ _ 0).trans (getLsbD_append_last _ _)

theorem statusWord_done (b : Block) : (statusWord b).getLsbD 6 = b.done :=
  (getLsbD_append_above _ _ 2).trans <| (getLsbD_append_above _ _ 1).trans <|
  (getLsbD_append_above _ _ 0).trans <| (getLsbD_append_last _ _).trans (by simp)

theorem statusWord_fail (b : Block) : (statusWord b).getLsbD 7 = b.fail :=
  (getLsbD_append_above _ _ 3).trans <| (getLsbD_append_above _ _ 2).trans <|
  (getLsbD_append_above _ _ 1).trans <| (getLsbD_append_above _ _ 0).trans <|
  (getLsbD_append_last _ _).trans (by simp)

end Sys2Proof.Machine

namespace Sys2Proof

open Sys2Proof.Machine

/-- Settles O14: the parts of the word by their places, the codes kind by kind; under the
invariant a block without FAIL has recorded no kind. -/
theorem statusWordFields : Obligations.StatusWordFields := by
  refine ⟨fun s hi hf => ?_, fun c b => ?_⟩
  · obtain ⟨-, -, -, herr, -⟩ := hi.flags
    rw [statusWord_err, herr.2 hf]
    rfl
  · refine ⟨rfl, rfl, statusWord_zeros b, ?_, statusWord_fail b, statusWord_done b,
      statusWord_busy b, ?_, ?_⟩
    · rw [statusWord_err]
      cases b.err with
      | none => rfl
      | some k => cases k <;> rfl
    · rw [statusWord_mode]
      cases b.mode <;> rfl
    · rw [statusWord_phase]
      cases b.phase <;> rfl

end Sys2Proof
end

section
/-! PROOF of O25, O26 and O28 (40_bit_codec.md rules R125, R126, R128). Rule R129 says what each lane
of both codecs does; the laws follow from it at any width and are proved once. -/

namespace Sys2Proof

open Sys2Proof.Machine

/-! ### One codec of either width -/

/-- What rule R129 says of a codec of `m + 1` lanes, most significant bit first: packing writes
bit 0 of each lane and keeps the rest, unpacking reads bit 0 of each lane. -/
structure LaneCodec (m : Nat) (pack : BitVec (m + 1) → List Byte → List Byte)
    (unpack : List Byte → BitVec (m + 1)) : Prop where
  length : ∀ v c, (pack v c).length = m + 1
  packBit : ∀ v c {i k : Nat}, i < m + 1 →
    ((pack v c).getD i 0).getLsbD k =
      if k = 0 then v.getLsbD (m - i) else (c.getD i 0).getLsbD k
  unpackBit : ∀ c {i : Nat}, i < m + 1 → (unpack c).getLsbD (m - i) = (c.getD i 0).getLsbD 0

/-- The codec of rules R121 and R123. -/
theorem byteCodec : LaneCodec 7 packByte unpackByte :=
  ⟨packByte_length, packByte_bit, unpackByte_bit⟩

/-- The codec of rules R122 and R124. -/
theorem wordCodec : LaneCodec 31 packU32 unpackU32 :=
  ⟨packU32_length, packU32_bit, unpackU32_bit⟩

/-- Values are equal when the bits of all lanes are. -/
theorem eq_of_lane_bits {m : Nat} {v w : BitVec (m + 1)}
    (h : ∀ i < m + 1, v.getLsbD (m - i) = w.getLsbD (m - i)) : v = w :=
  BitVec.eq_of_getLsbD_eq fun j hj => by
    simpa [show m - (m - j) = j by omega] using h (m - j) (by omega)

namespace LaneCodec

variable {m : Nat} {pack : BitVec (m + 1) → List Byte → List Byte}
  {unpack : List Byte → BitVec (m + 1)}

theorem packBit_zero (h : LaneCodec m pack unpack) (v : BitVec (m + 1)) (c : List Byte) {i : Nat}
    (hi : i < m + 1) : ((pack v c).getD i 0).getLsbD 0 = v.getLsbD (m - i) := by
  rw [h.packBit v c hi, if_pos rfl]

theorem pack_upperBits (h : LaneCodec m pack unpack) (v : BitVec (m + 1)) (c : List Byte) {i : Nat}
    (hi : i < m + 1) : UpperBitsAgree ((pack v c).getD i 0) (c.getD i 0) := fun k hk => by
  rw [h.packBit v c hi, if_neg (by omega)]

/-- Rule R125. -/
theorem unpack_pack (h : LaneCodec m pack unpack) (v : BitVec (m + 1)) (c : List Byte) :
    unpack (pack v c) = v :=
  eq_of_lane_bits fun _ hi => (h.unpackBit _ hi).trans (h.packBit_zero v c hi)

/-- A carrier is a packed one when its upper bits are the old carrier's and its bits 0 the
value's. -/
theorem pack_eq (h : LaneCodec m pack unpack) {v : BitVec (m + 1)} {c d : List Byte}
    (hlen : d.length = m + 1)
    (hzero : ∀ i < m + 1, (d.getD i 0).getLsbD 0 = v.getLsbD (m - i))
    (hupper : ∀ i < m + 1, UpperBitsAgree (d.getD i 0) (c.getD i 0)) : pack v c = d := by
  refine bytes_ext ((h.length v c).trans hlen.symm) fun i hi k => ?_
  rw [h.length] at hi
  rw [h.packBit v c hi]
  split
  · next hk => rw [hk, hzero i hi]
  · next hk => exact (hupper i hi k (by omega)).symm

/-- Rule R128 (a). -/
theorem pack_unpack_self (h : LaneCodec m pack unpack) {c : List Byte} (hc : c.length = m + 1) :
    pack (unpack c) c = c :=
  h.pack_eq hc (fun _ hi => (h.unpackBit c hi).symm) fun _ _ _ _ => rfl

/-- Rule R128 (b). -/
theorem pack_pack (h : LaneCodec m pack unpack) (v w : BitVec (m + 1)) (c : List Byte) :
    pack v (pack w c) = pack v c :=
  h.pack_eq (h.length v c) (fun _ hi => h.packBit_zero v c hi) fun _ hi k hk =>
    (h.pack_upperBits v c hi k hk).trans (h.pack_upperBits w c hi k hk).symm

/-- Rule R128 (c). -/
theorem unpack_congr (h : LaneCodec m pack unpack) {c d : List Byte}
    (hcd : ∀ i, i < m + 1 → c.getD i 0 &&& 1#8 = d.getD i 0 &&& 1#8) : unpack c = unpack d :=
  eq_of_lane_bits fun i hi => by
    rw [h.unpackBit c hi, h.unpackBit d hi]
    simpa using congrArg (·.getLsbD 0) (hcd i hi)

/-- Rule R128 (d): by unpacking again. -/
theorem pack_injective (h : LaneCodec m pack unpack) {v w : BitVec (m + 1)} {c : List Byte}
    (hvw : pack v c = pack w c) : v = w := by
  rw [← h.unpack_pack v c, hvw, h.unpack_pack]

end LaneCodec

/-! ### A lane as a number -/

/-- Bit 0 is the parity. -/
theorem toNat_mod_two (x : Byte) : x.toNat % 2 = (x.getLsbD 0).toNat := by
  rw [BitVec.getLsbD, Nat.toNat_testBit, Nat.pow_zero, Nat.div_one]

/-- Bits 7:1 are the half. -/
theorem UpperBitsAgree.toNat_div_two {x y : Byte} (h : UpperBitsAgree x y) :
    x.toNat / 2 = y.toNat / 2 := by
  refine Nat.eq_of_testBit_eq fun j => ?_
  rw [Nat.testBit_div_two, Nat.testBit_div_two]
  exact h (j + 1) (by omega)

/-- A byte that takes a new bit 0 goes up by 1, down by 1, or stays (rule R126). -/
theorem UpperBitsAgree.toNat_eq {x y : Byte} (h : UpperBitsAgree y x) {bit : Bool}
    (hbit : y.getLsbD 0 = bit) :
    y.toNat =
      if x.toNat % 2 = 0 ∧ bit = true then x.toNat + 1
      else if x.toNat % 2 = 1 ∧ bit = false then x.toNat - 1
      else x.toNat := by
  have hhalf := h.toNat_div_two
  have hparity := toNat_mod_two y
  rw [hbit] at hparity
  cases bit with
  | false =>
    have hparity : y.toNat % 2 = 0 := hparity
    simp only [Bool.false_eq_true, and_false, and_true, if_false]
    split <;> omega
  | true =>
    have hparity : y.toNat % 2 = 1 := hparity
    simp only [Bool.true_eq_false, and_false, and_true, if_false]
    split <;> omega

/-! ### The laws -/

/-- Settles O25: `LaneCodec.unpack_pack` at both widths. -/
theorem unpackInvertsPack : Obligations.UnpackInvertsPack :=
  ⟨fun v c _ => byteCodec.unpack_pack v c, fun v c _ => wordCodec.unpack_pack v c⟩

/-- Settles O26: the upper bits are the carrier's, and the number follows from its half and its
parity. -/
theorem packChangesOnlyBitZero : Obligations.PackChangesOnlyBitZero := by
  refine ⟨fun v c _ => ⟨packByte_length v c, fun i hi => ?_⟩,
    fun v c _ => ⟨packU32_length v c, fun i hi => ?_⟩⟩
  · have hupper := byteCodec.pack_upperBits v c hi
    exact ⟨hupper, hupper.toNat_eq (byteCodec.packBit_zero v c hi)⟩
  · have hupper := wordCodec.pack_upperBits v c hi
    exact ⟨hupper, hupper.toNat_eq (wordCodec.packBit_zero v c hi)⟩

/-- Settles O28: the laws of `LaneCodec` at both widths. -/
theorem furtherCodecLaws : Obligations.FurtherCodecLaws :=
  ⟨fun _ hc => byteCodec.pack_unpack_self hc, fun _ hc => wordCodec.pack_unpack_self hc,
    fun v w c _ => byteCodec.pack_pack v w c, fun v w c _ => wordCodec.pack_pack v w c,
    fun _ _ hcd => byteCodec.unpack_congr hcd, fun _ _ hcd => wordCodec.unpack_congr hcd,
    fun _ _ _ _ hvw => byteCodec.pack_injective hvw,
    fun _ _ _ _ hvw => wordCodec.pack_injective hvw⟩

end Sys2Proof
end

section
/-! PROOF of O55 (42_extractor.md rules R195, R196): a field that was embedded at an offset is read
back from there, and every test of rule R195 finds its field in the embedded region. -/

namespace Sys2Proof

open Sys2Proof.Machine

/-! ### Reading a field back -/

/-- The bytes that stand behind `l` in a stream. -/
theorem seg_of_prefix {s l x : List Byte} {a b : Nat} (hs : l ++ x <+: s) (ha : l.length = a)
    (hb : a + x.length = b) : seg s a b = x := by
  obtain ⟨r, rfl⟩ := hs
  subst ha hb
  simp [seg]

/-- A byte that was packed is read back (rule R125). -/
theorem byteAt_of_prefix {s l c : List Byte} {v : Byte} {o : Nat} (hs : l ++ packByte v c <+: s)
    (ho : l.length = o) : byteAt s o = v := by
  rw [byteAt, seg_of_prefix hs ho (by rw [packByte_length]), byteCodec.unpack_pack]

/-- A length that was packed is read back. -/
theorem u32At_of_prefix {s l c : List Byte} {v : Word} {o : Nat} (hs : l ++ packU32 v c <+: s)
    (ho : l.length = o) : u32At s o = v := by
  rw [u32At, seg_of_prefix hs ho (by rw [packU32_length]), wordCodec.unpack_pack]

theorem toNat_u32At_of_prefix {s l c : List Byte} {n o : Nat}
    (hs : l ++ packU32 (BitVec.ofNat 32 n) c <+: s) (ho : l.length = o) (hn : n < 2 ^ 32) :
    (u32At s o).toNat = n := by
  rw [u32At_of_prefix hs ho, BitVec.toNat_ofNat, Nat.mod_eq_of_lt hn]

/-- `bytesAt` is its first byte and the bytes from the next group on. -/
theorem bytesAt_succ (s : List Byte) (o n : Nat) :
    bytesAt s o (n + 1) = byteAt s o :: bytesAt s (o + 8) n := by
  simp only [bytesAt, List.range_succ_eq_map, List.map_cons, List.map_map, Nat.mul_zero,
    Nat.add_zero]
  refine congrArg _ (List.map_congr_left fun j _ => congrArg (byteAt s) ?_)
  omega

/-- Bytes that were packed are read back. -/
theorem bytesAt_of_prefix {s l x c : List Byte} {o : Nat} (hs : l ++ packs x c <+: s)
    (ho : l.length = o) : bytesAt s o x.length = x := by
  induction x generalizing l c o with
  | nil => rfl
  | cons v r ih =>
    rw [packs, ← List.append_assoc] at hs
    have hfirst : byteAt s o = v := byteAt_of_prefix ((List.prefix_append _ _).trans hs) ho
    have hrest : bytesAt s (o + 8) r.length = r := ih hs (by simp [ho])
    rw [List.length_cons, bytesAt_succ, hfirst, hrest]

/-! ### The nine tests -/

/-- The tests of rule R195 all pass on a stream that is long enough, whose marker is the block's and
whose lengths are within the buffers. -/
theorem extractEnd_success {c : Config} {s ext payload : List Byte}
    (hlen : c.headerSize + c.required ext.length payload.length ≤ s.length)
    (hmarker : bytesAt s c.headerSize c.markerLen = c.marker)
    (hextLen : (u32At s (c.headerSize + 8 * c.markerLen)).toNat = ext.length)
    (hextCap : ext.length < c.extBufCap)
    (hext : bytesAt s (c.headerSize + 8 * c.markerLen + 32) ext.length = ext)
    (hpayLen : (u32At s (c.headerSize + 8 * c.markerLen + 32 + 8 * ext.length)).toNat =
      payload.length)
    (hpayCap : payload.length ≤ c.payBufCap)
    (hpay : bytesAt s (c.headerSize + 8 * c.markerLen + 64 + 8 * ext.length) payload.length =
      payload) :
    extractEnd c s = .success ext payload := by
  unfold Config.required at hlen
  simp only [extractEnd, hmarker, hextLen, hpayLen, hext, hpay]
  rw [if_neg (by omega), if_neg (by omega), if_neg (by simp), if_neg (by omega), if_neg (by omega),
    if_neg (by omega), if_neg (by omega), if_neg (by omega), if_neg (by omega)]

/-! ### The embedded region -/

/-- The stego stream of rule R163 up to the end of the embedded region. -/
def embeddedOf (c : Config) (carrier ext payload : List Byte) : List Byte :=
  let a := c.headerSize
  let b := a + 8 * c.markerLen
  let d := b + 32
  let e := d + 8 * ext.length
  let f := e + 32
  let g := f + 8 * payload.length
  carrier.take a ++ packs c.marker (seg carrier a b)
    ++ packU32 (BitVec.ofNat 32 ext.length) (seg carrier b d)
    ++ packs ext (seg carrier d e)
    ++ packU32 (BitVec.ofNat 32 payload.length) (seg carrier e f)
    ++ packs payload (seg carrier f g)

/-- The rest of the stego stream is the carrier's own. -/
theorem stegoOf_eq_embeddedOf (c : Config) (carrier ext payload : List Byte) :
    ∃ tail, stegoOf c carrier ext payload = embeddedOf c carrier ext payload ++ tail := ⟨_, rfl⟩

theorem embeddedOf_length {c : Config} {carrier : List Byte} (ext payload : List Byte)
    (h : c.headerSize ≤ carrier.length) :
    (embeddedOf c carrier ext payload).length =
      c.headerSize + c.required ext.length payload.length := by
  simp only [embeddedOf, Config.required, List.length_append, List.length_take, packs_length,
    packU32_length, Nat.min_eq_left h, Config.markerLen]
  omega

/-- The tests of rule R195 read only the embedded region, and there each field as it was
embedded. -/
theorem extractEnd_of_embeddedOf_prefix {c : Config} {carrier ext payload s : List Byte} (hc : c.Wf)
    (hext : ext.length < c.extBufCap) (hpay : payload.length ≤ c.payBufCap)
    (hhead : c.headerSize ≤ carrier.length) (hs : embeddedOf c carrier ext payload <+: s) :
    extractEnd c s = .success ext payload := by
  obtain ⟨-, -, -, ⟨-, hextCap⟩, hpayCap⟩ := hc
  have hlen := embeddedOf_length ext payload hhead ▸ hs.length_le
  simp only [embeddedOf] at hs
  have hpayLen := (List.prefix_append _ _).trans hs
  have hextBytes := (List.prefix_append _ _).trans hpayLen
  have hextLen := (List.prefix_append _ _).trans hextBytes
  have hmarker := (List.prefix_append _ _).trans hextLen
  refine extractEnd_success hlen (bytesAt_of_prefix hmarker ?_)
    (toNat_u32At_of_prefix hextLen ?_ (by omega)) hext (bytesAt_of_prefix hextBytes ?_)
    (toNat_u32At_of_prefix hpayLen ?_ (by omega)) hpay (bytesAt_of_prefix hs ?_)
  all_goals
    simp only [List.length_append, List.length_take, packs_length, packU32_length,
      Nat.min_eq_left hhead, Config.markerLen]
  omega

/-- Settles O55: the stego stream, and its embedded region with any tail, begin with the embedded
region. -/
theorem extractInvertsEmbed : Obligations.ExtractInvertsEmbed := by
  intro c carrier ext payload hc hext hpay hroom
  have hhead : c.headerSize ≤ carrier.length := (Nat.le_add_right _ _).trans hroom
  obtain ⟨rest, hstego⟩ := stegoOf_eq_embeddedOf c carrier ext payload
  have hregion : (stegoOf c carrier ext payload).take
      (c.headerSize + c.required ext.length payload.length) = embeddedOf c carrier ext payload := by
    rw [hstego, List.take_left' (embeddedOf_length ext payload hhead)]
  refine ⟨extractEnd_of_embeddedOf_prefix hc hext hpay hhead ?_, fun tail =>
    extractEnd_of_embeddedOf_prefix hc hext hpay hhead ?_⟩
  · exact hstego ▸ List.prefix_append _ rest
  · exact hregion ▸ List.prefix_append _ tail

end Sys2Proof
end

section
/-! PROOF of O18 to O23 (40_bit_codec.md rules R130 to R135). A command is its effect behind the
READY test; the effect of a leaf command is a new LANE or a new VAL, whose bits `LaneCodec` gives. -/

namespace Sys2Proof

open Sys2Proof.Machine

/-! ### Accepted commands -/

theorem exec_ready {s : State} (h : Ready s.blk) (i : Instr) :
    exec i s = .next ((effectOf i s).answer .okWrite) :=
  (exec_eq i s).trans (whenReady_ready h _)

/-! ### LANE after packing, VAL after unpacking -/

theorem take_getD {l : List Byte} {n i : Nat} (h : i < n) : (l.take n).getD i 0 = l.getD i 0 := by
  simp [List.getD_eq_getElem?_getD, h]

/-- The lanes after a pack of the first `bs.length` of them. -/
theorem setLanes_getD_lt {bs : List Byte} {i : Nat} (h : i < bs.length) (b : Block) :
    (setLanes bs b).lane.getD i 0 = bs.getD i 0 :=
  List.getD_append _ _ _ _ h

theorem setLanes_getElem?_ge {bs : List Byte} {i : Nat} (h : bs.length ≤ i) (b : Block) :
    (setLanes bs b).lane[i]? = b.lane[i]? := by
  simp [setLanes, List.getElem?_append_right h, Nat.add_sub_cancel' h]

theorem setLanes_length {bs : List Byte} {b : Block} (h : bs.length ≤ b.lane.length) :
    (setLanes bs b).lane.length = b.lane.length := by
  simp [setLanes, Nat.add_sub_cancel' h]

section

variable {m : Nat} {pack : BitVec (m + 1) → List Byte → List Byte}
  {unpack : List Byte → BitVec (m + 1)}

/-- Packing the first `m + 1` lanes in place puts the value into their bits 0 and keeps their bits
7:1. -/
theorem LaneCodec.setLanes_pack (h : LaneCodec m pack unpack) (v : BitVec (m + 1)) (b : Block)
    {i : Nat} (hi : i < m + 1) :
    ((setLanes (pack v (b.lane.take (m + 1))) b).lane.getD i 0).getLsbD 0 = v.getLsbD (m - i) ∧
    UpperBitsAgree ((setLanes (pack v (b.lane.take (m + 1))) b).lane.getD i 0)
      (b.lane.getD i 0) := by
  rw [setLanes_getD_lt (by rwa [h.length]), ← take_getD (l := b.lane) hi]
  exact ⟨h.packBit_zero v _ hi, h.pack_upperBits v _ hi⟩

theorem LaneCodec.unpack_take (h : LaneCodec m pack unpack) (l : List Byte) {i : Nat}
    (hi : i < m + 1) : (unpack (l.take (m + 1))).getLsbD (m - i) = (l.getD i 0).getLsbD 0 := by
  rw [h.unpackBit _ hi, take_getD hi]

end

/-- Bits 7:0 of VAL. -/
theorem valByte_getLsbD (b : Block) {j : Nat} (h : j < 8) :
    (valByte b).getLsbD j = b.val.getLsbD j := by
  simp [valByte, h]

/-! ### The leaf commands -/

/-- NOP and the leaf commands (rules R130 to R134). -/
def leafCommands : List Instr := [.nop, .pack8, .pack32, .unpack8, .unpack32]

/-- A leaf command changes LANE and VAL at most; NOP and the packs keep VAL, NOP and the unpacks
keep LANE (rule R135). -/
theorem effectOf_leaf {i : Instr} (h : i ∈ leafCommands) (s : State) :
    effectOf i s =
      { s with blk :=
        { s.blk with lane := (effectOf i s).blk.lane, val := (effectOf i s).blk.val } } ∧
    (i ∈ [Instr.nop, .pack8, .pack32] → (effectOf i s).blk.val = s.blk.val) ∧
    (i ∈ [Instr.nop, .unpack8, .unpack32] → (effectOf i s).blk.lane = s.blk.lane) := by
  cases i with
  | nop => exact ⟨rfl, fun _ => rfl, fun _ => rfl⟩
  | pack8 | pack32 => exact ⟨rfl, fun _ => rfl, fun hx => absurd hx (by decide)⟩
  | unpack8 | unpack32 => exact ⟨rfl, fun hx => absurd hx (by decide), fun _ => rfl⟩
  | embed | extract => exact absurd h (by decide)

/-- Settles O18: NOP is the empty effect behind the READY test. -/
theorem nopChangesNothing : Obligations.NopChangesNothing :=
  ⟨rfl, fun s => ⟨fun h => exec_ready h .nop, commandsAreRefusedOutsideReady s .nop⟩⟩

/-- Settles O19: the lanes of `packByte`, and the lanes behind them. -/
theorem pack8WritesValIntoLaneLsbs : Obligations.Pack8WritesValIntoLaneLsbs := by
  refine ⟨rfl, fun s hr hlane => ⟨(setLanes (packByte (valByte s.blk) (lane8 s.blk)) s.blk).lane,
    exec_ready hr .pack8, ?_, fun i hi => ?_, fun i hi => ?_⟩⟩
  · exact (setLanes_length (by rw [packByte_length, hlane]; decide)).trans hlane
  · obtain ⟨hzero, hupper⟩ := byteCodec.setLanes_pack (valByte s.blk) s.blk hi
    exact ⟨hzero.trans (valByte_getLsbD s.blk (by omega)), hupper⟩
  · exact setLanes_getElem?_ge (by rwa [packByte_length]) s.blk

/-- Settles O20: the lanes of `packU32`. -/
theorem pack32WritesValIntoLaneLsbs : Obligations.Pack32WritesValIntoLaneLsbs := by
  refine ⟨rfl, fun s hr hlane => ⟨(setLanes (packU32 s.blk.val (lane32 s.blk)) s.blk).lane,
    exec_ready hr .pack32, ?_, fun i hi => ?_⟩⟩
  · exact (setLanes_length (by rw [packU32_length, hlane])).trans hlane
  · exact wordCodec.setLanes_pack s.blk.val s.blk hi

/-- Settles O21: bits 7:0 are those of `unpackByte`, and the zero extension gives the others. -/
theorem unpack8ReadsLaneLsbs : Obligations.Unpack8ReadsLaneLsbs := by
  refine ⟨rfl, fun s hr => ⟨(unpackByte (lane8 s.blk)).setWidth 32, exec_ready hr .unpack8,
    fun i hi => ?_, fun k hk => ?_⟩⟩
  · rw [BitVec.getLsbD_setWidth, decide_eq_true (by omega), Bool.true_and]
    exact byteCodec.unpack_take s.blk.lane hi
  · rw [BitVec.getLsbD_setWidth, BitVec.getLsbD_of_ge _ _ hk, Bool.and_false]

/-- Settles O22: the bits of `unpackU32`. -/
theorem unpack32ReadsLaneLsbs : Obligations.Unpack32ReadsLaneLsbs :=
  ⟨rfl, fun s hr => ⟨unpackU32 (lane32 s.blk), exec_ready hr .unpack32, fun _ hi =>
    wordCodec.unpack_take s.blk.lane hi⟩⟩

/-- Settles O23: the refusal is that of every command, and the rest is `effectOf_leaf`. -/
theorem leafCommandsCompleteAndKeepTheRest : Obligations.LeafCommandsCompleteAndKeepTheRest := by
  refine fun s i hi => ⟨commandsAreRefusedOutsideReady s i, fun hr => ?_⟩
  obtain ⟨hframe, hval, hlane⟩ := effectOf_leaf hi s
  refine ⟨_, exec_ready hr i, congrArg (State.answer .okWrite) hframe, ?_, hval, hlane⟩
  rw [State.answer_blk, hframe]
  exact hr

end Sys2Proof
end

section
/-! PROOF of O29, O31 to O37 and O50 (41_embedder.md rules R150 to R162; 42_extractor.md rule
R194). Every step of the Embedder that touches the carrier ends in one `copyGroup`. What that does
on each pair of answers is said once, for every state to which the step's earlier reads can have
led. -/

namespace Sys2Proof.Machine

/-! ### One group of carrier bytes -/

/-- The shape that rules R153 to R159 share: read `n` carrier bytes, write `f` of them, then go on
to `g`. -/
def copyGroup (n : Nat) (f : List Byte → List Byte) (g : State → State) (s : State) : Result :=
  readElseFail .cin n s fun c u => writeElseFail .sout (f c) u fun v => .next (g v)

/-- One field byte is in the stream: the cursors and IDX move. -/
def byteDone (s : State) : State := nextIdx (movedBoth 8 s)

theorem byteDone_eq {s : State} {b : Block} (h : s.blk = b) :
    byteDone s = { s with blk := (b.movedBoth 8).nextIdx } := h ▸ rfl

theorem embedByte_eq (v : Byte) (s : State) :
    embedByte v s = copyGroup 8 (packByte v) byteDone s := rfl

/-- A read is answered `Fail` when the environment says so or the bytes are not all there
(20_memory.md rules R70, R71, R74). -/
theorem readElseFail_refused {p : InPort} {n : Nat} {s : State} {k : List Byte → State → Result}
    (h : s.env.plan.getD 0 .ok = .fail ∨
      (s.env.plan.getD 0 .ok = .ok ∧ (s.env.source p).content.length < (s.env.source p).pos + n)) :
    readElseFail p n s k = .next (failWith .ioError (failedRead p n s)) := by
  rw [← nextReply_eq] at h
  rcases h with h | ⟨h, hshort⟩
  · exact readElseFail_fail h
  · exact readElseFail_short h hshort.not_ge

section

variable {n : Nat} {f : List Byte → List Byte} {g : State → State} {s : State}

theorem copyGroup_readFails (h : CinReadFails s n) :
    copyGroup n f g s = .next (failWith .ioError (failedRead .cin n s)) :=
  readElseFail_refused h

theorem copyGroup_read (hroom : CinHas s n) (hread : s.env.plan.getD 0 .ok = .ok) :
    copyGroup n f g s =
      writeElseFail .sout (f (seg s.env.cin.content s.env.cin.pos (s.env.cin.pos + n)))
        (s.onEnv (readEnv .cin n)) fun v => .next (g v) := by
  rw [copyGroup, readElseFail_ok ((nextReply_eq _).trans hread) hroom, seg, Nat.add_sub_cancel_left]
  rfl

theorem copyGroup_writeFails (hroom : CinHas s n) (hread : s.env.plan.getD 0 .ok = .ok)
    (hwrite : s.env.plan.getD 1 .ok = .fail) :
    copyGroup n f g s =
      .next (failWith .ioError
        (failedWrite .sout (f (seg s.env.cin.content s.env.cin.pos (s.env.cin.pos + n)))
          (s.onEnv (readEnv .cin n)))) := by
  rw [copyGroup_read hroom hread, writeElseFail_fail]
  simpa [nextReply_eq] using hwrite

theorem copyGroup_ok {b : Block} (hroom : CinHas s n) (hread : s.env.plan.getD 0 .ok = .ok)
    (hwrite : s.env.plan.getD 1 .ok = .ok)
    (hg : ∀ v, v.cfg = s.cfg → v.blk = s.blk → g v = { v with blk := b }) :
    let c := seg s.env.cin.content s.env.cin.pos (s.env.cin.pos + n)
    copyGroup n f g s = .next
      { s with
        blk := b
        env := { s.env with
          cin := { s.env.cin with pos := s.env.cin.pos + n }
          sout := s.env.sout ++ f c
          plan := s.env.plan.drop 2
          history := s.env.history ++ [.readOk .cin n c, .writeOk .sout (f c)] } } := by
  have hplan : s.env.plan.tail.tail = s.env.plan.drop 2 := by
    simp only [← List.drop_one, List.drop_drop]
  intro c
  rw [copyGroup_read hroom hread, writeElseFail_ok (by simpa [nextReply_eq] using hwrite),
    hg _ (by rfl) (by rfl)]
  simp [State.onEnv, readEnv, writeEnv, Env.record, Env.setSource, Env.setSink, Env.popReply,
    Env.source, Env.sink, seg, hplan, c]

end

end Sys2Proof.Machine

namespace Sys2Proof

open Sys2Proof.Machine

/-! ### How a step fails -/

/-- `u` is reached within the sequencer's turn at `s` by the reads `done`, all answered `Ok`: nothing
but the inputs, the plan and the history has changed. -/
structure AfterReads (s : State) (done : List Transaction) (u : State) : Prop where
  cfg     : u.cfg = s.cfg
  blk     : u.blk = s.blk
  host    : u.host = s.host
  pending : u.env.pending = s.env.pending
  history : u.env.history = s.env.history ++ done
  sink    : ∀ p, u.env.sink p = s.env.sink p

theorem AfterReads.refl (s : State) : AfterReads s [] s :=
  ⟨rfl, rfl, rfl, rfl, (List.append_nil _).symm, fun _ => rfl⟩

theorem AfterReads.read {s u : State} {done : List Transaction} (h : AfterReads s done u)
    (p : InPort) (n : Nat) :
    AfterReads s
      (done ++ [.readOk p n (((u.env.source p).content.drop (u.env.source p).pos).take n)])
      (u.onEnv (readEnv p n)) :=
  ⟨h.cfg, h.blk, h.host, by simp [h.pending], by simp [h.history], by simp [h.sink]⟩

/-- The turn ends with a failed read (60_exceptions.md rules R211, R216). -/
theorem AfterReads.failsInRead {s u : State} {done : List Transaction} (h : AfterReads s done u)
    {p : InPort} {n : Nat}
    (hturn : sequencerTurn s = .next (failWith .ioError (failedRead p n u))) :
    FailsWithIOError s (done ++ [.readFail p n]) True True :=
  ⟨_, hturn, by simp [h.blk], h.cfg, h.host, by simp [h.pending], by simp [failedRead, h.history],
    fun _ => (failedRead_sink p n u .sout).trans (h.sink .sout),
    fun _ => (failedRead_sink p n u .pout).trans (h.sink .pout)⟩

/-- The turn ends with a failed write to SOUT. -/
theorem AfterReads.failsInWrite {s u : State} {done : List Transaction} (h : AfterReads s done u)
    {bs : List Byte}
    (hturn : sequencerTurn s = .next (failWith .ioError (failedWrite .sout bs u))) :
    FailsWithIOError s (done ++ [.writeFail .sout bs]) False True :=
  ⟨_, hturn, by simp [h.blk], h.cfg, h.host, by simp [h.pending], by simp [failedWrite, h.history],
    nofun, fun _ => h.sink .pout⟩

/-- A turn that is one group of carrier bytes (rules R153 to R157, R159). -/
theorem copiesGroup_of_turn {n : Nat} {f : List Byte → List Byte} {g : State → State} {s : State}
    {b : Block} (hturn : sequencerTurn s = copyGroup n f g s)
    (hg : ∀ v, v.cfg = s.cfg → v.blk = s.blk → g v = { v with blk := b }) :
    CopiesGroup s n f b := by
  refine ⟨fun hroom hread hwrite => ?_, fun hfail => ?_, fun hroom hread hwrite => ?_⟩
  · rw [hturn, copyGroup_ok hroom hread hwrite hg]
  · exact (AfterReads.refl s).failsInRead (hturn.trans (copyGroup_readFails hfail))
  · have := ((AfterReads.refl s).read .cin n).failsInWrite
      (hturn.trans (copyGroup_writeFails hroom hread hwrite))
    simpa [seg, Env.source] using this

/-! ### The steps -/

theorem sequencerTurn_embedder {s : State} (hb : s.blk.busy = true) (hm : s.blk.mode = .embedder) :
    sequencerTurn s = embedStep s := by
  simp [sequencerTurn, hb, hm]

theorem sequencerTurn_extractor {s : State} (hb : s.blk.busy = true)
    (hm : s.blk.mode = .extractor) :
    sequencerTurn s = extractStep s := by
  simp [sequencerTurn, hb, hm]

/-- Settles O31: the header is one group of HEADER_SIZE bytes. -/
theorem headerCopyStep : Obligations.HeaderCopyStep := by
  intro s ⟨hb, hm, hp⟩ n
  have hturn : sequencerTurn s = embedHeader s := by
    rw [sequencerTurn_embedder hb hm, embedStep, hp]
  exact copiesGroup_of_turn hturn fun v hc hb => by
    rw [show n = v.cfg.headerSize from hc ▸ rfl, ← hb]; rfl

/-- A field byte is one group of 8 bytes (rules R154, R156). -/
theorem copiesGroup_of_embedByte {v : Byte} {s : State} (hturn : sequencerTurn s = embedByte v s) :
    CopiesGroup s 8 (packByte v) (s.blk.movedBoth 8).nextIdx :=
  copiesGroup_of_turn hturn fun _ _ => byteDone_eq

/-- A marker byte that is there is the next group (rule R154). -/
theorem copiesGroup_markerByte {s : State} {v : Byte} (h : RunningAt .embedder .header s)
    (hv : s.cfg.marker[s.blk.idx.toNat]? = some v) :
    CopiesGroup s 8 (packByte v) (s.blk.movedBoth 8).nextIdx := by
  obtain ⟨hb, hm, hp⟩ := h
  apply copiesGroup_of_embedByte
  rw [sequencerTurn_embedder hb hm, embedStep, hp, embedMarker, hv]

/-- Settles O32: one group, or the advance. -/
theorem markerEmbeddingStep : Obligations.MarkerEmbeddingStep := by
  intro s h
  refine ⟨fun hi => copiesGroup_markerByte h (List.getElem?_eq_getElem hi), fun hi => ?_⟩
  obtain ⟨hb, hm, hp⟩ := h
  rw [sequencerTurn_embedder hb hm, embedStep, hp, embedMarker, List.getElem?_eq_none hi.ge]
  rfl

/-- A length field is one group of 32 bytes and the advance (rules R155, R157). -/
theorem copiesGroup_of_embedLength {v : Word} {p : Phase} {s : State}
    (hturn : sequencerTurn s = embedLength v p s) :
    CopiesGroup s 32 (packU32 v) ((s.blk.movedBoth 32).at p) :=
  copiesGroup_of_turn hturn fun _ _ hb => hb ▸ rfl

/-- Settles O33: both length fields are groups of 32 bytes. -/
theorem lengthEmbeddingSteps : Obligations.LengthEmbeddingSteps := by
  refine fun s => ⟨fun ⟨hb, hm, hp⟩ => copiesGroup_of_embedLength ?_,
    fun ⟨hb, hm, hp⟩ => copiesGroup_of_embedLength ?_⟩
  · rw [sequencerTurn_embedder hb hm, embedStep, hp, embedExtLen]
  · rw [sequencerTurn_embedder hb hm, embedStep, hp, embedPayLen]

/-- An extension byte that is there is the next group (rule R156). -/
theorem copiesGroup_extByte {s : State} {v : Byte} (h : RunningAt .embedder .extLen s)
    (hi : s.blk.idx.toNat < s.blk.extLen.toNat) (hv : s.blk.ext[s.blk.idx.toNat]? = some v) :
    CopiesGroup s 8 (packByte v) (s.blk.movedBoth 8).nextIdx := by
  obtain ⟨hb, hm, hp⟩ := h
  apply copiesGroup_of_embedByte
  rw [sequencerTurn_embedder hb hm, embedStep, hp, embedExt, if_pos hi, hv]

/-- Behind the last extension byte comes the advance (rule R156). -/
theorem sequencerTurn_extEnd {s : State} (h : RunningAt .embedder .extLen s)
    (hi : s.blk.idx.toNat = s.blk.extLen.toNat) : sequencerTurn s = .next (advanceTo .ext s) := by
  obtain ⟨hb, hm, hp⟩ := h
  rw [sequencerTurn_embedder hb hm, embedStep, hp, embedExt, if_neg hi.not_lt]

/-- Settles O34: under the invariant E is below the length of EXT, so that EXT[IDX] exists. -/
theorem extensionEmbeddingStep : Obligations.ExtensionEmbeddingStep := by
  intro s hinv h
  refine ⟨fun hi => ?_, sequencerTurn_extEnd h⟩
  obtain ⟨hb, hm, hp⟩ := h
  obtain ⟨-, hstart, -⟩ := hinv.embedder hm
  obtain ⟨-, hlen, -⟩ := hinv.files
  obtain ⟨hcap, -⟩ := hstart (.inl hb)
  have hv := List.getElem?_eq_getElem (show s.blk.idx.toNat < s.blk.ext.length by omega)
  exact ⟨_, hv, copiesGroup_extByte ⟨hb, hm, hp⟩ hi hv⟩

/-- The payload byte `v` has been read from PIN (rule R158). -/
def afterPinRead (v : Byte) (s : State) : State :=
  { s with
    env := { s.env with
      pin := { s.env.pin with pos := s.env.pin.pos + 1 }
      plan := s.env.plan.drop 1
      history := s.env.history ++ [.readOk .pin 1 [v]] } }

theorem afterReads_afterPinRead (v : Byte) (s : State) :
    AfterReads s [.readOk .pin 1 [v]] (afterPinRead v s) :=
  ⟨rfl, rfl, rfl, rfl, rfl, fun p => by cases p <;> rfl⟩

theorem onEnv_readEnv_pin {s : State} {v : Byte}
    (hv : s.env.pin.content[s.env.pin.pos]? = some v) :
    s.onEnv (readEnv .pin 1) = afterPinRead v s := by
  simp [State.onEnv, readEnv, Env.record, Env.setSource, Env.popReply, Env.source, afterPinRead,
    List.take_one, hv]

/-- Once the payload byte has been read, the step is one group of carrier bytes. -/
theorem embedPayload_eq {s : State} {v : Byte} (hi : s.blk.idx.toNat < s.blk.payLen.toNat)
    (hv : s.env.pin.content[s.env.pin.pos]? = some v) (hok : s.env.plan.getD 0 .ok = .ok) :
    embedPayload s =
      copyGroup 8 (packByte v) byteDone (afterPinRead v s) := by
  obtain ⟨hlt, -⟩ := List.getElem?_eq_some_iff.1 hv
  have hbyte : (s.env.pin.content.drop s.env.pin.pos).take 1 = [v] := by simp [List.take_one, hv]
  rw [embedPayload, if_pos hi, readElseFail_ok ((nextReply_eq _).trans hok) hlt,
    onEnv_readEnv_pin hv, ← embedByte_eq]
  simp only [Env.source, hbyte, List.headD_cons]

/-- Settles O35: the PIN read, and then the group of carrier bytes from the state it has led to. -/
theorem payloadEmbeddingStep : Obligations.PayloadEmbeddingStep := by
  intro s ⟨hb, hm, hp⟩ c
  have hturn : sequencerTurn s = embedPayload s := by
    rw [sequencerTurn_embedder hb hm, embedStep, hp]
  have hplan : ∀ i, (s.env.plan.drop 1).getD i .ok = s.env.plan.getD (i + 1) .ok := fun i => by
    simp
  refine ⟨fun v hi hv hroom h0 h1 h2 => ?_, fun hi hfail => ?_, fun v hi hv h0 hfail => ?_,
    fun v hi hv hroom h0 h1 h2 => ?_, fun hi => ?_⟩
  · have hok := copyGroup_ok (f := packByte v) (s := afterPinRead v s) hroom
      ((hplan 0).trans h1) ((hplan 1).trans h2) fun _ _ => byteDone_eq
    rw [hturn, embedPayload_eq hi hv h0, hok]
    simp [afterPinRead, c]
  · exact (AfterReads.refl s).failsInRead
      (hturn.trans ((if_pos hi).trans (readElseFail_refused hfail)))
  · refine (afterReads_afterPinRead v s).failsInRead
      ((hturn.trans (embedPayload_eq hi hv h0)).trans (copyGroup_readFails ?_))
    simpa only [CinReadFails, afterPinRead, hplan, CinHas, Nat.not_le] using hfail
  · have hfails := copyGroup_writeFails (f := packByte v) (g := byteDone)
      (s := afterPinRead v s) hroom ((hplan 0).trans h1) ((hplan 1).trans h2)
    have := ((afterReads_afterPinRead v s).read .cin 8).failsInWrite
      ((hturn.trans (embedPayload_eq hi hv h0)).trans hfails)
    simpa [seg, Env.source, afterPinRead, c] using this
  · rw [hturn, embedPayload, if_neg hi.not_lt]
    rfl

/-- Settles O36: one byte, or the advance. -/
theorem tailCopyStep : Obligations.TailCopyStep := by
  intro s ⟨hb, hm, hp⟩
  have hturn : sequencerTurn s = embedTail s := by
    rw [sequencerTurn_embedder hb hm, embedStep, hp]
  refine ⟨fun hi => copiesGroup_of_turn (hturn.trans (if_pos hi)) fun v _ hb => hb ▸ rfl,
    fun hinv => ?_, fun hi => ?_⟩
  · obtain ⟨-, -, hat⟩ := (embedderOk_iff _ _).1 (hinv.embedder hm)
    rw [hp] at hat
    obtain ⟨-, -, hle⟩ := hat
    exact hle
  · rw [hturn, embedTail, if_neg (by simp [hi])]
    rfl

/-- Settles O37: the step of PHASE 7 is the same for both runs, and leaves BUSY at 0. -/
theorem finalStepSetsDone : Obligations.FinalStepSetsDone := by
  intro s m ⟨hb, hm, hp⟩
  refine ⟨finishRun s, ?_, rfl, .inl rfl, sequencerTurn_idle rfl⟩
  cases m with
  | embedder => rw [sequencerTurn_embedder hb hm, embedStep, hp, embedFinish]
  | extractor => rw [sequencerTurn_extractor hb hm, extractStep, hp, extractFinish]

/-! ### EMBED -/

/-- EMBED issues no transaction (rule R150). -/
theorem startEmbed_env (s : State) : (startEmbed s).env = { s.env with history := [] } := by
  obtain ⟨-, h⟩ | ⟨-, -, h⟩ | ⟨-, -, h⟩ := startEmbed_cases s <;> rw [h] <;> rfl

/-- Settles O29: the refusal is that of every command, and the three starts are those of
`startEmbed_cases`. -/
theorem embedChecksThenStarts : Obligations.EmbedChecksThenStarts := by
  refine ⟨rfl, fun s => commandsAreRefusedOutsideReady s .embed, ?_⟩
  intro s hr e p need
  refine ⟨_, exec_ready hr .embed, effectOf_cfg .embed s, effectOf_free .embed s, ?_, ?_, ?_⟩
  · rw [State.answer_host, effectOf_host]
  · rw [State.answer_env, effectOf, startEmbed_env]
  · rw [State.answer_blk, effectOf]
    obtain ⟨hcap, h⟩ | ⟨hcap, (hroom : s.blk.carrierLen.toNat < need), h⟩ |
      ⟨hcap, (hroom : need ≤ s.blk.carrierLen.toNat), h⟩ := startEmbed_cases s
    · rw [if_pos hcap, h]
      rfl
    · rw [if_neg hcap.not_ge, if_pos hroom, h]
      rfl
    · rw [if_neg hcap.not_ge, if_neg hroom.not_gt, h]
      rfl

/-! ### Cursor synchrony -/

/-- One amount is added to both cursors (rule R162). -/
def CursorsMoveTogether (b b' : Block) : Prop :=
  ∃ n : DWord, b'.curIn = b.curIn + n ∧ b'.curOut = b.curOut + n

theorem CursorsMoveTogether.of_eq {b b' : Block} (hin : b'.curIn = b.curIn)
    (hout : b'.curOut = b.curOut) : CursorsMoveTogether b b' :=
  ⟨0, hin.trans (BitVec.add_zero _).symm, hout.trans (BitVec.add_zero _).symm⟩

theorem Machine.EmbedMove.cursorsMoveTogether {c : Config} {b b' : Block} (h : EmbedMove c b b') :
    CursorsMoveTogether b b' := by
  cases h with
  | header | markerByte | extLen | extByte | payLen | payByte | tailByte => exact ⟨_, rfl, rfl⟩
  | markerEnd | extEnd | payEnd | tailEnd | finish => exact .of_eq rfl rfl

/-- Settles O50: the moves of a step, and the synchrony that the invariant holds. -/
theorem embedderCursorsStaySynchronised : Obligations.EmbedderCursorsStaySynchronised := by
  refine ⟨fun s t hb hm hturn => ?_, fun s t hi hstep hm => ?_⟩
  · rw [sequencerTurn_embedder hb hm] at hturn
    exact (embedStep_stepped hturn).blk_rel (R := CursorsMoveTogether)
      (CursorsMoveTogether.of_eq rfl rfl) (CursorsMoveTogether.of_eq rfl rfl)
      fun _ => EmbedMove.cursorsMoveTogether
  · obtain ⟨hsync, -⟩ := (everyStepKeepsTheInvariant s t hi hstep).embedder hm
    exact hsync

end Sys2Proof
end

section
/-! PROOF of O53 (41_embedder.md rules R163, R169). In the well-behaved environment a state of an
Embedder run is fixed by a `RunPoint` and by the environment's plan and history. Each step leads
from one point to the next, and each field of the stego stream is an induction over its bytes. -/

namespace Sys2Proof

open Sys2Proof.Machine

/-! ### The points of a run -/

/-- How far an Embedder run has come: PHASE and IDX, the carrier bytes and payload bytes behind it,
and what SOUT holds. -/
structure RunPoint where
  phase : Phase
  idx   : Nat
  pos   : Nat
  pin   : Nat
  out   : List Byte

/-- The block at a point of the run that starts from `b`; the cursors are synchronous (rule R162). -/
def RunPoint.block (x : RunPoint) (b : Block) : Block :=
  { b with
    phase := x.phase, idx := BitVec.ofNat 32 x.idx
    curIn := BitVec.ofNat 64 x.pos, curOut := BitVec.ofNat 64 x.pos }

/-- The state at a point of the run that starts from `s`. -/
def RunPoint.state (x : RunPoint) (s : State) (plan : List Reply) (history : List Transaction) :
    State :=
  { s with
    blk := x.block s.blk
    env := { s.env with
      cin := { s.env.cin with pos := x.pos }
      pin := { s.env.pin with pos := x.pin }
      sout := x.out, plan := plan, history := history } }

/-- `n` more carrier bytes have been read, and `bytes` written for them. -/
def RunPoint.wrote (x : RunPoint) (p : Phase) (i n : Nat) (bytes : List Byte) : RunPoint :=
  { x with phase := p, idx := i, pos := x.pos + n, out := x.out ++ bytes }

/-- `t` is at point `x` of the run that starts from `s`, and every coming answer is `Ok`. -/
def AtPoint (s : State) (x : RunPoint) (t : State) : Prop :=
  ∃ plan history, (∀ r ∈ plan, r = Reply.ok) ∧ t = x.state s plan history

theorem AtPoint.of_blk {s t : State} {x : RunPoint} {plan : List Reply}
    {history : List Transaction} (hblk : t.blk = x.block s.blk)
    (hplan : ∀ r ∈ plan, r = Reply.ok)
    (ht : t = { x.state s plan history with blk := t.blk }) : AtPoint s x t := by
  refine ⟨plan, history, hplan, ?_⟩
  rw [ht, hblk]
  rfl

/-- The run from `s` is at point `x` after `k` steps. -/
def Reaches (s : State) (k : Nat) (x : RunPoint) : Prop :=
  ∃ t, runFor k s = .next t ∧ AtPoint s x t

/-- One sequencer step leads from point `x` to point `y`. -/
def Advances (s : State) (x y : RunPoint) : Prop :=
  ∀ t, AtPoint s x t → ∃ u, sequencerTurn t = .next u ∧ AtPoint s y u

/-- An Embedder run with no host event and no unanswered transaction. -/
structure QuietEmbedder (s : State) : Prop where
  busy    : s.blk.busy = true
  mode    : s.blk.mode = .embedder
  inputs  : s.host.inputs = []
  pending : s.env.pending = none

theorem plan_getD_ok {plan : List Reply} (h : ∀ r ∈ plan, r = Reply.ok) (i : Nat) :
    plan.getD i .ok = .ok := by
  rw [List.getD_eq_getElem?_getD]
  cases hi : plan[i]? with
  | none => rfl
  | some r => exact h r (List.mem_of_getElem? hi)

theorem plan_drop_ok {plan : List Reply} (h : ∀ r ∈ plan, r = Reply.ok) (i : Nat) :
    ∀ r ∈ plan.drop i, r = Reply.ok :=
  fun r hr => h r (List.mem_of_mem_drop hr)

/-- With an empty queue the sequencer's step is a step of the machine (log 3). -/
theorem Reaches.advance {s : State} {k : Nat} {x y : RunPoint} (hs : QuietEmbedder s)
    (h : Reaches s k x) (hxy : Advances s x y) : Reaches s (k + 1) y := by
  obtain ⟨t, hrun, ht⟩ := h
  obtain ⟨u, hturn, hu⟩ := hxy t ht
  obtain ⟨plan, history, -, rfl⟩ := ht
  have hstep := (step_quiet (s := x.state s plan history) hs.pending hs.inputs).trans hturn
  exact ⟨u, (runFor_add hrun).trans (runFor_succ hstep), hu⟩

/-- A step that copies one group. -/
theorem Advances.of_copiesGroup {s : State} {x : RunPoint} {p : Phase} {i n : Nat}
    {f : List Byte → List Byte} {b : Block} (hroom : x.pos + n ≤ s.env.cin.content.length)
    (h : ∀ plan history, CopiesGroup (x.state s plan history) n f b)
    (hb : b = (x.wrote p i n []).block s.blk) :
    Advances s x (x.wrote p i n (f (seg s.env.cin.content x.pos (x.pos + n)))) := by
  rintro _ ⟨plan, history, hplan, rfl⟩
  obtain ⟨hok, -⟩ := h plan history
  exact ⟨_, hok hroom (plan_getD_ok hplan 0) (plan_getD_ok hplan 1),
    .of_blk hb (plan_drop_ok hplan 2) rfl⟩

/-- A step that reaches a milestone and issues no transaction. -/
theorem Advances.of_advanceTo {s : State} {p : Phase} {x : RunPoint}
    (h : ∀ plan history, sequencerTurn (x.state s plan history) =
      .next (advanceTo p (x.state s plan history))) :
    Advances s x { x with phase := p, idx := 0 } := by
  rintro _ ⟨plan, history, hplan, rfl⟩
  exact ⟨_, h plan history, plan, history, hplan, rfl⟩

/-! ### The steps between points -/

theorem eq_ofNat_of_toNat {w n : Nat} {v : BitVec w} (h : v.toNat = n) : v = BitVec.ofNat w n := by
  rw [← h, BitVec.ofNat_toNat, BitVec.setWidth_eq]

theorem RunPoint.block_movedBoth (x : RunPoint) (n : Nat) (b : Block) :
    (x.block b).movedBoth n = (x.wrote x.phase x.idx n []).block b := by
  simp [RunPoint.block, RunPoint.wrote, BitVec.ofNat_add]

theorem RunPoint.block_movedBoth_nextIdx (x : RunPoint) (n : Nat) (b : Block) :
    ((x.block b).movedBoth n).nextIdx = (x.wrote x.phase (x.idx + 1) n []).block b := by
  simp [RunPoint.block, RunPoint.wrote, BitVec.ofNat_add]

theorem RunPoint.state_idx {s : State} {plan : List Reply} {history : List Transaction}
    (x : RunPoint) (h : x.idx < 4294967296) : (x.state s plan history).blk.idx.toNat = x.idx :=
  Nat.mod_eq_of_lt h

theorem RunPoint.state_curIn {s : State} {plan : List Reply} {history : List Transaction}
    (x : RunPoint) (h : x.pos < 18446744073709551616) :
    (x.state s plan history).blk.curIn.toNat = x.pos :=
  Nat.mod_eq_of_lt h

theorem QuietEmbedder.runningAt {s : State} (hs : QuietEmbedder s) (x : RunPoint)
    (plan : List Reply) (history : List Transaction) :
    RunningAt .embedder x.phase (x.state s plan history) := ⟨hs.busy, hs.mode, rfl⟩

section

variable {s : State} {n m : Nat} {out : List Byte}

theorem advances_header (hs : QuietEmbedder s)
    (hroom : n + s.cfg.headerSize ≤ s.env.cin.content.length) :
    Advances s ⟨.idle, 0, n, m, out⟩ ⟨.header, 0, n + s.cfg.headerSize, m,
      out ++ seg s.env.cin.content n (n + s.cfg.headerSize)⟩ :=
  .of_copiesGroup (f := fun c => c) hroom (fun _ _ => headerCopyStep _ (hs.runningAt _ _ _))
    (congrArg (Block.at .header) (RunPoint.block_movedBoth _ _ _))

theorem advances_extLen (hs : QuietEmbedder s) (hroom : n + 32 ≤ s.env.cin.content.length) :
    Advances s ⟨.marker, 0, n, m, out⟩ ⟨.extLen, 0, n + 32, m,
      out ++ packU32 s.blk.extLen (seg s.env.cin.content n (n + 32))⟩ :=
  .of_copiesGroup hroom (fun _ _ => (lengthEmbeddingSteps _).1 (hs.runningAt _ _ _))
    (congrArg (Block.at .extLen) (RunPoint.block_movedBoth _ _ _))

theorem advances_payLen (hs : QuietEmbedder s) (hroom : n + 32 ≤ s.env.cin.content.length) :
    Advances s ⟨.ext, 0, n, m, out⟩ ⟨.payLen, 0, n + 32, m,
      out ++ packU32 s.blk.payLen (seg s.env.cin.content n (n + 32))⟩ :=
  .of_copiesGroup hroom (fun _ _ => (lengthEmbeddingSteps _).2 (hs.runningAt _ _ _))
    (congrArg (Block.at .payLen) (RunPoint.block_movedBoth _ _ _))

theorem advances_markerByte (hs : QuietEmbedder s) {j : Nat} {v : Byte} (hj : j < 4294967296)
    (hv : s.cfg.marker[j]? = some v) (hroom : n + 8 ≤ s.env.cin.content.length) :
    Advances s ⟨.header, j, n, m, out⟩ ⟨.header, j + 1, n + 8, m,
      out ++ packByte v (seg s.env.cin.content n (n + 8))⟩ :=
  .of_copiesGroup hroom
    (fun _ _ => copiesGroup_markerByte (hs.runningAt _ _ _) (by rwa [RunPoint.state_idx _ hj]))
    (RunPoint.block_movedBoth_nextIdx _ _ _)

theorem advances_markerEnd (hs : QuietEmbedder s) (hj : s.cfg.markerLen < 4294967296) :
    Advances s ⟨.header, s.cfg.markerLen, n, m, out⟩ ⟨.marker, 0, n, m, out⟩ :=
  .of_advanceTo fun _ _ =>
    (markerEmbeddingStep _ (hs.runningAt _ _ _)).2 (RunPoint.state_idx _ hj)

theorem advances_extByte (hs : QuietEmbedder s) {j : Nat} {v : Byte} (hj : j < s.blk.extLen.toNat)
    (hv : s.blk.ext[j]? = some v) (hroom : n + 8 ≤ s.env.cin.content.length) :
    Advances s ⟨.extLen, j, n, m, out⟩ ⟨.extLen, j + 1, n + 8, m,
      out ++ packByte v (seg s.env.cin.content n (n + 8))⟩ :=
  have hidx := hj.trans s.blk.extLen.isLt
  .of_copiesGroup hroom
    (fun _ _ => copiesGroup_extByte (hs.runningAt _ _ _) (by rwa [RunPoint.state_idx _ hidx])
      (by rwa [RunPoint.state_idx _ hidx]))
    (RunPoint.block_movedBoth_nextIdx _ _ _)

theorem advances_extEnd (hs : QuietEmbedder s) :
    Advances s ⟨.extLen, s.blk.extLen.toNat, n, m, out⟩ ⟨.ext, 0, n, m, out⟩ :=
  .of_advanceTo fun _ _ =>
    sequencerTurn_extEnd (hs.runningAt _ _ _) (RunPoint.state_idx _ s.blk.extLen.isLt)

theorem advances_payByte (hs : QuietEmbedder s) {j : Nat} {v : Byte} (hj : j < s.blk.payLen.toNat)
    (hv : s.env.pin.content[m]? = some v) (hroom : n + 8 ≤ s.env.cin.content.length) :
    Advances s ⟨.payLen, j, n, m, out⟩ ⟨.payLen, j + 1, n + 8, m + 1,
      out ++ packByte v (seg s.env.cin.content n (n + 8))⟩ := by
  rintro _ ⟨plan, history, hplan, rfl⟩
  have hidx := hj.trans s.blk.payLen.isLt
  have hblk := RunPoint.block_movedBoth_nextIdx ⟨.payLen, j, n, m, out⟩ 8 s.blk
  obtain ⟨hok, -⟩ := payloadEmbeddingStep _ (hs.runningAt ⟨.payLen, j, n, m, out⟩ plan history)
  have hturn := hok v (by rwa [RunPoint.state_idx _ hidx]) hv hroom (plan_getD_ok hplan 0)
    (plan_getD_ok hplan 1) (plan_getD_ok hplan 2)
  exact ⟨_, hturn, .of_blk hblk (plan_drop_ok hplan 3) rfl⟩

theorem advances_payEnd (hs : QuietEmbedder s) :
    Advances s ⟨.payLen, s.blk.payLen.toNat, n, m, out⟩ ⟨.payload, 0, n, m, out⟩ :=
  .of_advanceTo fun plan history => by
    obtain ⟨-, -, -, -, hend⟩ :=
      payloadEmbeddingStep _ (hs.runningAt ⟨.payLen, s.blk.payLen.toNat, n, m, out⟩ plan history)
    exact hend (RunPoint.state_idx _ s.blk.payLen.isLt)

theorem advances_tailByte (hs : QuietEmbedder s)
    (hlen : s.blk.carrierLen.toNat = s.env.cin.content.length)
    (hroom : n + 1 ≤ s.env.cin.content.length) :
    Advances s ⟨.payload, 0, n, m, out⟩ ⟨.payload, 0, n + 1, m,
      out ++ seg s.env.cin.content n (n + 1)⟩ :=
  have hlt : n < s.blk.carrierLen.toNat := hlen ▸ hroom
  have hcur := hlt.trans s.blk.carrierLen.isLt
  .of_copiesGroup (f := fun c => c) hroom
    (fun _ _ => (tailCopyStep _ (hs.runningAt _ _ _)).1 (by rwa [RunPoint.state_curIn _ hcur]))
    (RunPoint.block_movedBoth _ _ _)

theorem advances_tailEnd (hs : QuietEmbedder s)
    (hlen : s.blk.carrierLen.toNat = s.env.cin.content.length) :
    Advances s ⟨.payload, 0, s.env.cin.content.length, m, out⟩
      ⟨.output, 0, s.env.cin.content.length, m, out⟩ :=
  .of_advanceTo fun plan history => by
    obtain ⟨-, -, hend⟩ :=
      tailCopyStep _ (hs.runningAt ⟨.payload, 0, s.env.cin.content.length, m, out⟩ plan history)
    exact hend (eq_ofNat_of_toNat hlen).symm

end

/-! ### The fields -/

theorem take_seg {l : List Byte} {a b n : Nat} (h : a + n ≤ b) :
    (seg l a b).take n = seg l a (a + n) := by
  rw [seg, seg, List.take_take, Nat.add_sub_cancel_left, Nat.min_eq_left (by omega)]

theorem drop_seg (l : List Byte) (a b n : Nat) : (seg l a b).drop n = seg l (a + n) b := by
  rw [seg, seg, List.drop_take, List.drop_drop, Nat.sub_sub]

/-- The first group of a field, and the groups behind it. -/
theorem packs_cons_seg (v : Byte) (r l : List Byte) (n : Nat) :
    packs (v :: r) (seg l n (n + 8 + 8 * r.length)) =
      packByte v (seg l n (n + 8)) ++ packs r (seg l (n + 8) (n + 8 + 8 * r.length)) := by
  rw [packs, take_seg (by omega), drop_seg]

/-- At PHASE `p` with IDX = `j` the next byte that is embedded is `v`; `pin` says how many payload
bytes have been read by then. -/
def EmbedsByte (s : State) (p : Phase) (pin : Nat → Nat) (j : Nat) (v : Byte) : Prop :=
  ∀ n out, n + 8 ≤ s.env.cin.content.length →
    Advances s ⟨p, j, n, pin j, out⟩
      ⟨p, j + 1, n + 8, pin (j + 1), out ++ packByte v (seg s.env.cin.content n (n + 8))⟩

/-- The bytes of a field from IDX = `j` on are embedded one by one (rules R154, R156, R158). -/
theorem Reaches.field_from {s : State} (hs : QuietEmbedder s) {p : Phase} {pin : Nat → Nat}
    {vs out : List Byte} {j k n : Nat}
    (hbyte : ∀ i (hi : i < vs.length), EmbedsByte s p pin (j + i) vs[i])
    (hroom : n + 8 * vs.length ≤ s.env.cin.content.length)
    (h : Reaches s k ⟨p, j, n, pin j, out⟩) :
    Reaches s (k + vs.length) ⟨p, j + vs.length, n + 8 * vs.length, pin (j + vs.length),
      out ++ packs vs (seg s.env.cin.content n (n + 8 * vs.length))⟩ := by
  induction vs generalizing j k n out with
  | nil => simpa [packs] using h
  | cons v r ih =>
    rw [List.length_cons] at hroom ⊢
    have hfirst := h.advance hs (hbyte 0 (Nat.succ_pos _) n out (by omega))
    have hrest := ih (j := j + 1) (fun i hi => by
      rw [Nat.add_right_comm]
      exact hbyte (i + 1) (Nat.succ_lt_succ hi)) (by omega) hfirst
    rw [List.append_assoc, ← packs_cons_seg] at hrest
    rw [show k + (r.length + 1) = k + 1 + r.length by omega,
      show j + (r.length + 1) = j + 1 + r.length by omega,
      show n + 8 * (r.length + 1) = n + 8 + 8 * r.length by omega]
    exact hrest

/-- A whole field, and then the advance to PHASE `q`. -/
theorem Reaches.field {s : State} (hs : QuietEmbedder s) {p q : Phase} (pin : Nat → Nat)
    {vs out : List Byte} {k n : Nat} (h : Reaches s k ⟨p, 0, n, pin 0, out⟩)
    (hbyte : ∀ j (hj : j < vs.length), EmbedsByte s p pin j vs[j])
    (hend : ∀ n out, Advances s ⟨p, vs.length, n, pin vs.length, out⟩
      ⟨q, 0, n, pin vs.length, out⟩)
    (hroom : n + 8 * vs.length ≤ s.env.cin.content.length) :
    Reaches s (k + vs.length + 1) ⟨q, 0, n + 8 * vs.length, pin vs.length,
      out ++ packs vs (seg s.env.cin.content n (n + 8 * vs.length))⟩ := by
  have hall := Reaches.field_from (j := 0) hs (by simpa only [Nat.zero_add] using hbyte) hroom h
  rw [Nat.zero_add] at hall
  exact hall.advance hs (hend _ _)

/-- The tail is copied byte by byte (rule R159). -/
theorem Reaches.tail {s : State} (hs : QuietEmbedder s)
    (hlen : s.blk.carrierLen.toNat = s.env.cin.content.length) {k n m r : Nat} {out : List Byte}
    (hroom : n + r ≤ s.env.cin.content.length) (h : Reaches s k ⟨.payload, 0, n, m, out⟩) :
    Reaches s (k + r) ⟨.payload, 0, n + r, m, out ++ seg s.env.cin.content n (n + r)⟩ := by
  induction r with
  | zero => simpa [seg] using h
  | succ r ih =>
    have hnext := (ih (by omega)).advance hs (advances_tailByte hs hlen hroom)
    rwa [List.append_assoc, seg_append_seg (by omega) (by omega)] at hnext

/-! ### The whole run -/

/-- An accepted EMBED of a carrier with room, in the well-behaved environment (rule R163). -/
structure EmbedStart (s : State) (ext payload : List Byte) : Prop where
  quiet      : QuietEmbedder s
  start      : AtPoint s ⟨.idle, 0, 0, 0, []⟩ s
  markerLen  : s.cfg.markerLen ≤ 256
  extLen     : s.blk.extLen.toNat = ext.length
  extBytes   : ext <+: s.blk.ext
  payLen     : s.blk.payLen.toNat = payload.length
  payBytes   : payload <+: s.env.pin.content
  carrierLen : s.blk.carrierLen.toNat = s.env.cin.content.length
  room       :
    s.cfg.headerSize + s.cfg.required ext.length payload.length ≤ s.env.cin.content.length

theorem seg_to_end (l : List Byte) (a : Nat) : seg l a l.length = l.drop a := by
  rw [seg, ← List.length_drop, List.take_length]

namespace EmbedStart

variable {s : State} {ext payload out : List Byte} {k n : Nat}

theorem marker_field (h : EmbedStart s ext payload) (hk : Reaches s k ⟨.header, 0, n, 0, out⟩)
    (hroom : n + 8 * s.cfg.marker.length ≤ s.env.cin.content.length) :
    Reaches s (k + s.cfg.marker.length + 1) ⟨.marker, 0, n + 8 * s.cfg.marker.length, 0,
      out ++ packs s.cfg.marker (seg s.env.cin.content n (n + 8 * s.cfg.marker.length))⟩ := by
  have hlen : s.cfg.marker.length < 4294967296 := h.markerLen.trans_lt (by decide)
  exact hk.field h.quiet (fun _ => 0)
    (fun j hj _ _ =>
      advances_markerByte h.quiet (hj.trans hlen) (List.getElem?_eq_getElem hj))
    (fun _ _ => advances_markerEnd h.quiet hlen) hroom

theorem ext_field (h : EmbedStart s ext payload) (hk : Reaches s k ⟨.extLen, 0, n, 0, out⟩)
    (hroom : n + 8 * ext.length ≤ s.env.cin.content.length) :
    Reaches s (k + ext.length + 1) ⟨.ext, 0, n + 8 * ext.length, 0,
      out ++ packs ext (seg s.env.cin.content n (n + 8 * ext.length))⟩ :=
  hk.field h.quiet (fun _ => 0)
    (fun j hj _ _ => advances_extByte h.quiet (h.extLen ▸ hj)
      (List.prefix_iff_getElem?.1 h.extBytes j hj))
    (fun _ _ => h.extLen ▸ advances_extEnd h.quiet) hroom

theorem payload_field (h : EmbedStart s ext payload) (hk : Reaches s k ⟨.payLen, 0, n, 0, out⟩)
    (hroom : n + 8 * payload.length ≤ s.env.cin.content.length) :
    Reaches s (k + payload.length + 1) ⟨.payload, 0, n + 8 * payload.length, payload.length,
      out ++ packs payload (seg s.env.cin.content n (n + 8 * payload.length))⟩ :=
  hk.field h.quiet id
    (fun j hj _ _ => advances_payByte h.quiet (h.payLen ▸ hj)
      (List.prefix_iff_getElem?.1 h.payBytes j hj))
    (fun _ _ => h.payLen ▸ advances_payEnd h.quiet) hroom

/-- After all steps but the last, SOUT holds the stego stream (rule R163). -/
theorem reaches_output (h : EmbedStart s ext payload) :
    Reaches s (7 + s.cfg.markerLen + ext.length + payload.length + (s.env.cin.content.length -
        (s.cfg.headerSize + s.cfg.required ext.length payload.length)))
      ⟨.output, 0, s.env.cin.content.length, payload.length,
        stegoOf s.cfg s.env.cin.content ext payload⟩ := by
  have hroom := h.room
  simp only [Config.required, Config.markerLen] at hroom ⊢
  obtain ⟨r, hr⟩ : ∃ r, s.env.cin.content.length = s.cfg.headerSize + 8 * s.cfg.marker.length +
      32 + 8 * ext.length + 32 + 8 * payload.length + r := Nat.exists_eq_add_of_le (by omega)
  have hheader := Reaches.advance (k := 0) h.quiet ⟨s, rfl, h.start⟩
    (advances_header h.quiet (by omega))
  rw [Nat.zero_add, Nat.zero_add, List.nil_append] at hheader
  have hmarker := h.marker_field hheader (by omega)
  have hextLen := hmarker.advance h.quiet (advances_extLen h.quiet (by omega))
  have hext := h.ext_field hextLen (by omega)
  have hpayLen := hext.advance h.quiet (advances_payLen h.quiet (by omega))
  have hpayload := h.payload_field hpayLen (by omega)
  have htail := hpayload.tail h.quiet h.carrierLen hr.ge
  rw [← hr, seg_to_end] at htail
  have hend := htail.advance h.quiet (advances_tailEnd h.quiet h.carrierLen)
  rw [eq_ofNat_of_toNat h.extLen, eq_ofNat_of_toNat h.payLen] at hend
  convert hend using 1
  · omega
  · rfl

end EmbedStart

/-- The state after an accepted EMBED that was the last host event (rule R150). -/
def embedAccepted (s : State) : State :=
  { s with
    blk := { s.blk with mode := .embedder, busy := true, idx := 0, curIn := 0, curOut := 0 }
    env := { s.env with history := [] }
    host := { inputs := [], answers := s.host.answers ++ [.okWrite] } }

/-- The run that EMBED starts is at its first point. -/
theorem atPoint_embedAccepted {s : State} (hr : Ready s.blk) (hcin : s.env.cin.pos = 0)
    (hpin : s.env.pin.pos = 0) (hsout : s.env.sout = []) (hok : WellBehaved s.env) :
    AtPoint (embedAccepted s) ⟨.idle, 0, 0, 0, []⟩ (embedAccepted s) := by
  obtain ⟨hp, -⟩ := hr
  refine ⟨s.env.plan, [], hok, ?_⟩
  simp only [embedAccepted, RunPoint.state, RunPoint.block, ← hp, ← hsout]
  rw [show s.env.cin = { s.env.cin with pos := 0 } from hcin ▸ rfl]
  rw [show s.env.pin = { s.env.pin with pos := 0 } from hpin ▸ rfl]
  rfl

theorem step_embedAccepted {s : State} (hr : Ready s.blk) (hp : s.env.pending = none)
    (hin : s.host.inputs = [.write 4 0x000 (encode .embed)])
    (hcap : s.blk.extLen.toNat < s.cfg.extBufCap)
    (hroom : s.cfg.headerSize + s.cfg.required s.blk.extLen.toNat s.blk.payLen.toNat ≤
      s.blk.carrierLen.toNat) : step s = .next (embedAccepted s) := by
  obtain ⟨hstep, -⟩ := stepRunsTheCommandWritten s (encode .embed) .embed hp (decode_encode .embed)
  rw [hstep [] hin, exec_ready (s := s.setInputs []) hr, effectOf]
  obtain ⟨hlong, -⟩ | ⟨-, hsmall, -⟩ | ⟨-, -, h⟩ := startEmbed_cases (s.setInputs [])
  · exact absurd hlong hcap.not_ge
  · exact absurd hsmall hroom.not_gt
  · rw [h]
    rfl

/-- The finishing step is the run's last (rule R160). -/
theorem Reaches.finish {s : State} {k n m : Nat} {out : List Byte} (hs : QuietEmbedder s)
    (h : Reaches s k ⟨.output, 0, n, m, out⟩) :
    ∃ t, runFor (k + 1) s = .next t ∧
      t.blk = ((RunPoint.mk .output 0 n m out).block s.blk).finished ∧
      t.env.sout = out ∧ t.env.pin.pos = m ∧ t.env.pout = s.env.pout := by
  obtain ⟨_, hrun, plan, history, -, rfl⟩ := h
  have hat := hs.runningAt ⟨.output, 0, n, m, out⟩ plan history
  obtain ⟨_, hturn, rfl, -⟩ := finalStepSetsDone _ .embedder hat
  have hstep := (step_quiet (by exact hs.pending) (by exact hs.inputs)).trans hturn
  exact ⟨_, (runFor_add hrun).trans (runFor_succ hstep), rfl, rfl, rfl, rfl⟩

/-- Settles O53: the step that accepts EMBED, the run of `EmbedStart.reaches_output`, and the last
step. -/
theorem embedRunProducesTheStegoStream : Obligations.EmbedRunProducesTheStegoStream := by
  intro s hinv hr hp hin hok hcin hpin hsout hlen hpay e p need hcap hroom
  have ⟨_, _, _, hfail⟩ := hr
  obtain ⟨-, ⟨-, hmarker⟩, -⟩ := hinv.cfg
  obtain ⟨-, hextLen, -⟩ := hinv.files
  have hE : (s.blk.ext.take e).length = e := List.length_take_of_le (hextLen ▸ hcap.le)
  have hP : (s.env.pin.content.take p).length = p := List.length_take_of_le hpay
  have hstart : EmbedStart (embedAccepted s) (s.blk.ext.take e) (s.env.pin.content.take p) := {
    quiet := ⟨rfl, rfl, rfl, hp⟩
    start := atPoint_embedAccepted hr hcin hpin hsout hok
    markerLen := hmarker
    extLen := hE.symm
    extBytes := List.take_prefix _ _
    payLen := hP.symm
    payBytes := List.take_prefix _ _
    carrierLen := hlen
    room := by rwa [hE, hP] }
  have hout := hstart.reaches_output
  rw [hE, hP] at hout
  obtain ⟨t, hrun, hblk, hsent, hread, hpout⟩ := hout.finish hstart.quiet
  have hcursor := (eq_ofNat_of_toNat hlen).symm
  have hstep := step_embedAccepted hr hp hin hcap (hlen ▸ hroom)
  obtain ⟨hsame, -⟩ := embeddingChangesOnlyBitZero s.cfg s.env.cin.content (s.blk.ext.take e)
    (s.env.pin.content.take p) (by rwa [hE, hP])
  refine ⟨t, ?_, hblk ▸ rfl, hblk ▸ hfail, hblk ▸ rfl, hblk ▸ rfl, hsent,
    (congrArg List.length hsent).trans hsame, hread, hblk ▸ hcursor, hblk ▸ hcursor, hpout⟩
  rw [show 1 + (8 + s.cfg.markerLen + e + p + (s.env.cin.content.length - need)) =
    7 + s.cfg.markerLen + e + p + (s.env.cin.content.length - need) + 1 + 1 by omega,
    runFor_succ hstep]
  exact hrun

end Sys2Proof
end

section
/-! PROOF of O30 and O38 to O44 (42_extractor.md rules R180 to R193). A step of the Extractor that
reads carrier bytes is one read and then a new block. What that does on each answer is said once;
the steps that issue no transaction are their branches. -/

namespace Sys2Proof

open Sys2Proof.Machine

/-! ### EXTRACT -/

/-- Settles O30: EXTRACT has no start check, so its effect is one and the same in every READY
state. -/
theorem extractClearsThenStarts : Obligations.ExtractClearsThenStarts :=
  ⟨rfl, fun s => commandsAreRefusedOutsideReady s .extract,
    fun _ hr => ⟨_, exec_ready hr .extract, rfl, rfl, rfl, rfl, rfl⟩⟩

/-! ### One group of carrier bytes -/

/-- A turn that reads `n` carrier bytes and then leaves the block `g` of them (rules R181, R182,
R185, R186, R189, R191). -/
theorem readsGroup_of_turn {s : State} {n : Nat} {k : List Byte → State → Result}
    {g : List Byte → Block} (hturn : sequencerTurn s = readElseFail .cin n s k)
    (hk : ∀ c u, u.cfg = s.cfg → u.blk = s.blk → k c u = .next { u with blk := g c }) :
    ReadsGroup s n g := by
  refine ⟨fun hroom hread => ?_, fun hfail => ?_⟩
  · rw [hturn, readElseFail_ok ((nextReply_eq _).trans hread) hroom, hk _ _ (by rfl) (by rfl)]
    simp [State.onEnv, readEnv, Env.record, Env.setSource, Env.popReply, Env.source, seg]
  · exact (AfterReads.refl s).failsInRead (hturn.trans (readElseFail_refused hfail))

/-- Settles O38: the header is one group of HEADER_SIZE bytes. -/
theorem headerSkipStep : Obligations.HeaderSkipStep := by
  intro s ⟨hb, hm, hp⟩
  have hturn : sequencerTurn s = extractHeader s := by
    rw [sequencerTurn_extractor hb hm, extractStep, hp]
  refine readsGroup_of_turn hturn fun _ u hc hb => ?_
  rw [← hc, ← hb]
  rfl

/-- Settles O40: the guard compares what the 32 bytes unpacked to. -/
theorem extensionLengthGuard : Obligations.ExtensionLengthGuard := by
  intro s ⟨hb, hm, hp⟩
  have hturn : sequencerTurn s = extractExtLen s := by
    rw [sequencerTurn_extractor hb hm, extractStep, hp]
  refine readsGroup_of_turn hturn fun c u hc hb => ?_
  rw [← hc, ← hb]
  by_cases hcap : u.cfg.extBufCap ≤ (unpackU32 c).toNat
  · rw [if_pos hcap]
    exact if_pos hcap
  · rw [if_neg hcap]
    exact if_neg hcap

/-- Settles O42: the payload length is one group of 32 bytes. -/
theorem payloadLengthDecode : Obligations.PayloadLengthDecode := by
  intro s ⟨hb, hm, hp⟩
  have hturn : sequencerTurn s = extractPayLen s := by
    rw [sequencerTurn_extractor hb hm, extractStep, hp]
  refine readsGroup_of_turn hturn fun _ u _ hb => ?_
  rw [← hb]
  rfl

/-! ### The hidden buffers -/

/-- An entry of a buffer that has been written is read as it stands (10_state.md rules R37, R38). -/
theorem getElem?_map_getD {f : Nat → Option Byte} {free : Nat → Byte} {n j : Nat} (hj : j < n)
    (hw : (f j).isSome = true) : ((List.range n).map fun i => (f i).getD (free i))[j]? = f j := by
  obtain ⟨v, hv⟩ := Option.isSome_iff_exists.1 hw
  simp [hj, hv]

theorem mbufPrefix_length (s : State) (n : Nat) : (mbufPrefix s n).length = n := by
  simp [mbufPrefix]

theorem pbufPrefix_length (s : State) (n : Nat) : (pbufPrefix s n).length = n := by
  simp [pbufPrefix]

/-- Lists of `n` bytes are equal when their entries below `n` are. -/
theorem eq_of_getElem?_lt {l m : List Byte} {n : Nat} (hl : l.length = n) (hm : m.length = n)
    (h : ∀ j < n, l[j]? = m[j]?) : l = m :=
  List.ext_getElem? fun j => by
    by_cases hj : j < n
    · exact h j hj
    · rw [List.getElem?_eq_none (by omega), List.getElem?_eq_none (by omega)]

/-- The comparison of rule R183, where every entry of MBUF is written. -/
theorem mbufPrefix_eq_iff {s : State} {l : List Byte}
    (hw : ∀ j < l.length, (bufGet s.blk.mbuf j).isSome = true) :
    mbufPrefix s l.length = l ↔ ∀ j < l.length, bufGet s.blk.mbuf j = l[j]? :=
  ⟨fun h j hj => bufGet_of_mbufPrefix_eq h hj (hw j hj), fun h =>
    eq_of_getElem?_lt (mbufPrefix_length s _) rfl fun j hj =>
      (getElem?_map_getD hj (hw j hj)).trans (h j hj)⟩

/-! ### The fields -/

/-- Settles O39: one group, or the comparison of MBUF, whose entries the invariant says are
written. -/
theorem markerDecodeThenVerify : Obligations.MarkerDecodeThenVerify := by
  intro s ⟨hb, hm, hp⟩
  have hturn : sequencerTurn s = extractMarker s := by
    rw [sequencerTurn_extractor hb hm, extractStep, hp]
  refine ⟨fun hi => readsGroup_of_turn (hturn.trans (if_pos hi)) fun _ u _ hb => ?_,
    fun hinv hi => ?_⟩
  · rw [← hb]
    rfl
  · obtain ⟨-, -, -, -, hat⟩ := (extractorOk_iff _ _).1 (hinv.extractor hm)
    rw [hp] at hat
    obtain ⟨-, hcur, -, -, hwritten, -⟩ := hat
    have hiff := mbufPrefix_eq_iff (hi ▸ hwritten)
    rw [hturn, extractMarker, if_neg hi.not_lt, verifyMarker]
    refine ⟨hi ▸ hcur, fun hsame => if_pos (hiff.2 hsame), fun ⟨j, hj, hne⟩ => ?_⟩
    exact if_neg fun heq => hne (hiff.1 heq j hj)

/-- Once the extension length has passed the guard, EXT has an entry for the terminator (rules R185,
R187). -/
theorem extLen_lt_length {s : State} (hinv : Inv s) (hm : s.blk.mode = .extractor)
    (hp : s.blk.phase ∉ [Phase.idle, .header, .marker]) :
    s.blk.extLen.toNat < s.blk.ext.length := by
  obtain ⟨-, -, -, hguard, -⟩ := (extractorOk_iff _ _).1 (hinv.extractor hm)
  obtain ⟨-, hlen, -⟩ := hinv.files
  simp only [List.mem_cons, List.not_mem_nil, or_false, not_or] at hp
  obtain ⟨hidle, hheader, hmarker⟩ := hp
  exact hlen ▸ hguard hidle hheader hmarker

/-- Settles O41: one group, or the terminator; under the invariant EXT has both entries. -/
theorem extensionDecodeThenTerminate : Obligations.ExtensionDecodeThenTerminate := by
  intro s hinv ⟨hb, hm, hp⟩
  have hturn : sequencerTurn s = extractExt s := by
    rw [sequencerTurn_extractor hb hm, extractStep, hp]
  have hcap := extLen_lt_length hinv hm (by simp [hp])
  refine ⟨fun hi => readsGroup_of_turn (hturn.trans (if_pos hi)) fun _ u _ hb => ?_, fun hi => ?_⟩
  · rw [← hb] at hi hcap ⊢
    exact if_pos (hi.trans hcap)
  · rw [hturn, extractExt, if_neg hi.not_lt]
    exact if_pos hcap

/-- Settles O43: the resource check, one group, or the advance. -/
theorem resourceCheckThenPayloadDecode : Obligations.ResourceCheckThenPayloadDecode := by
  intro s ⟨hb, hm, hp⟩
  have hturn : sequencerTurn s = extractPayload s := by
    rw [sequencerTurn_extractor hb hm, extractStep, hp]
  refine ⟨fun hcap => ⟨hturn.trans (if_pos hcap), fun hinv => ?_⟩, fun hcap hi => ?_,
    fun hcap hi => ?_⟩
  · obtain ⟨-, -, -, -, hat⟩ := (extractorOk_iff _ _).1 (hinv.extractor hm)
    rw [hp] at hat
    obtain ⟨-, hfits, -⟩ := hat
    exact Nat.eq_zero_of_not_pos fun hpos => (hfits hpos).not_gt hcap
  · refine readsGroup_of_turn (hturn.trans ((if_neg hcap.not_gt).trans (if_pos hi)))
      fun _ u _ hb => ?_
    rw [← hb]
    rfl
  · rw [hturn, extractPayload, if_neg hcap.not_gt, if_neg hi.not_lt]
    rfl

/-- Settles O44: one write of PBUF[0..P), whose entries the invariant says are written. -/
theorem outputWriteIsOneTransaction : Obligations.OutputWriteIsOneTransaction := by
  intro s hinv ⟨hb, hm, hp⟩
  have hturn : sequencerTurn s = extractOutput s := by
    rw [sequencerTurn_extractor hb hm, extractStep, hp]
  obtain ⟨-, -, -, -, hat⟩ := (extractorOk_iff _ _).1 (hinv.extractor hm)
  rw [hp] at hat
  obtain ⟨-, -, hwritten, -⟩ := hat
  refine ⟨pbufPrefix s s.blk.payLen.toNat, pbufPrefix_length s _,
    fun j hj => getElem?_map_getD hj (hwritten j hj), fun hok => ?_, fun hfail => ?_⟩
  · rw [hturn, extractOutput, writeElseFail_ok ((nextReply_eq _).trans hok)]
    simp [State.onEnv, State.onBlk, writeEnv, Env.record, Env.setSink, Env.popReply, Env.sink]
  · have hfails := hturn.trans (writeElseFail_fail ((nextReply_eq _).trans hfail))
    exact ⟨_, hfails, rfl, rfl, rfl, rfl, rfl, fun _ => rfl, nofun⟩

end Sys2Proof
end

section
/-! PROOF of O57 (42_extractor.md rules R195, R197): carrier bytes whose LSBs are 0 unpack to 0,
which is no marker byte. -/

namespace Sys2Proof

open Sys2Proof.Machine

/-- Where all LSBs are 0 every group of 8 bytes unpacks to 0. -/
theorem byteAt_eq_zero {s : List Byte} (h : ∀ b ∈ s, b &&& 1#8 = 0#8) (o : Nat) :
    byteAt s o = 0#8 := by
  have hlsb : ∀ b ∈ s, b.getLsbD 0 = false := fun b hb => by
    simpa using congrArg (fun v : Byte => v.getLsbD 0) (h b hb)
  refine eq_of_lane_bits fun i hi => ?_
  rw [byteAt, byteCodec.unpackBit _ hi, seg_getD (by omega), List.getD_eq_getElem?_getD,
    BitVec.getLsbD_zero]
  cases hget : s[o + i]? with
  | none => rfl
  | some b => exact hlsb b (List.mem_of_getElem? hget)

/-- No marker consists of bytes 0x00 (00_scope.md rule R9). -/
theorem bytesAt_ne_marker {c : Config} {s : List Byte} (hc : c.Wf)
    (h : ∀ b ∈ s, b &&& 1#8 = 0#8) (o : Nat) : bytesAt s o c.markerLen ≠ c.marker := by
  obtain ⟨-, ⟨hlen, -⟩, hbyte, -⟩ := hc
  obtain ⟨v, r, hm⟩ := List.exists_cons_of_length_pos hlen
  intro heq
  have hv : 0#8 = v := by
    rw [Config.markerLen, hm, List.length_cons, bytesAt_succ, byteAt_eq_zero h] at heq
    exact (List.cons.inj heq).1
  obtain ⟨hpos, -⟩ := hbyte v (hm ▸ List.mem_cons_self)
  rw [← hv] at hpos
  exact absurd hpos (by decide)

/-- Settles O57: the stream is long enough for the first two tests, and the third fails. -/
theorem allZeroLsbsFailWithFormatError : Obligations.AllZeroLsbsFailWithFormatError := by
  intro c s hc hlen hzero
  simp only [extractEnd]
  rw [if_neg (by omega), if_neg (by omega), if_pos (bytesAt_ne_marker hc hzero _)]

end Sys2Proof
end

section
/-! PROOF of O54 (42_extractor.md rule R195). In the well-behaved environment a run of the Extractor
keeps one invariant: what it has decoded so far is what stands in the stream, and the tests of rule
R195 that are still to come give the end of the run. Each step keeps it or ends the run so. -/

namespace Sys2Proof

open Sys2Proof.Machine

/-! ### The fields of a stream, and the tests that remain at each PHASE -/

/-- The extension length that stands in the stream. -/
abbrev extLenAt (c : Config) (s : List Byte) : Word := u32At s (c.headerSize + 8 * c.markerLen)

/-- The payload length that stands in the stream. -/
abbrev payLenAt (c : Config) (s : List Byte) : Word :=
  u32At s (c.headerSize + 8 * c.markerLen + 32 + 8 * (extLenAt c s).toNat)

/-- Byte `j` of the extension that stands in the stream. -/
abbrev extByteAt (c : Config) (s : List Byte) (j : Nat) : Byte :=
  byteAt s (c.headerSize + 8 * c.markerLen + 32 + 8 * j)

/-- Byte `j` of the payload that stands in the stream. -/
abbrev payByteAt (c : Config) (s : List Byte) (j : Nat) : Byte :=
  byteAt s (c.headerSize + 8 * c.markerLen + 64 + 8 * (extLenAt c s).toNat + 8 * j)

/-- The payload that stands in the stream. -/
abbrev payloadAt (c : Config) (s : List Byte) : List Byte :=
  bytesAt s (c.headerSize + 8 * c.markerLen + 64 + 8 * (extLenAt c s).toNat) (payLenAt c s).toNat

/-- The end of a run that passes every test. -/
def successEnd (c : Config) (s : List Byte) : ExtractEnd :=
  .success (bytesAt s (c.headerSize + 8 * c.markerLen + 32) (extLenAt c s).toNat) (payloadAt c s)

/-- The eighth and the ninth test. -/
def payLenTests (c : Config) (s : List Byte) : ExtractEnd :=
  if c.payBufCap < (payLenAt c s).toNat then .failure .resourceError .payLen
  else if s.length < c.headerSize + 8 * c.markerLen + 64 + 8 * (extLenAt c s).toNat
      + 8 * (payLenAt c s).toNat then .failure .ioError .payLen
  else successEnd c s

/-- The tests from the seventh on. -/
def extTests (c : Config) (s : List Byte) : ExtractEnd :=
  if s.length < c.headerSize + 8 * c.markerLen + 64 + 8 * (extLenAt c s).toNat then
    .failure .ioError .ext
  else payLenTests c s

/-- The tests from the sixth on. -/
def extLenTests (c : Config) (s : List Byte) : ExtractEnd :=
  if s.length < c.headerSize + 8 * c.markerLen + 32 + 8 * (extLenAt c s).toNat then
    .failure .ioError .extLen
  else extTests c s

/-- The tests from the fourth on. -/
def markerTests (c : Config) (s : List Byte) : ExtractEnd :=
  if s.length < c.headerSize + 8 * c.markerLen + 32 then .failure .ioError .marker
  else if c.extBufCap ≤ (extLenAt c s).toNat then .failure .bufferOverflowError .marker
  else extLenTests c s

/-- The tests from the second on. -/
def headerTests (c : Config) (s : List Byte) : ExtractEnd :=
  if s.length < c.headerSize + 8 * c.markerLen then .failure .ioError .header
  else if bytesAt s c.headerSize c.markerLen ≠ c.marker then .failure .formatError .header
  else markerTests c s

theorem extractEnd_eq_headerTests (c : Config) (s : List Byte) :
    extractEnd c s =
      if s.length < c.headerSize then .failure .ioError .idle else headerTests c s := rfl

/-- What the tests of rule R195 that a run at PHASE `p` has not yet passed give. -/
def testsFrom (c : Config) (s : List Byte) (p : Phase) : ExtractEnd :=
  match p with
  | .idle => extractEnd c s
  | .header => headerTests c s
  | .marker => markerTests c s
  | .extLen => extLenTests c s
  | .ext => extTests c s
  | .payLen => payLenTests c s
  | .payload | .output | .done => successEnd c s

/-! ### What a run has decoded at each PHASE -/

/-- The extension length and the first `n` bytes of the extension are those of the stream (rules
R185, R186). -/
structure ExtDecoded (c : Config) (s : List Byte) (extLen : Word) (ext : List Byte) (n : Nat) :
    Prop where
  extLen : extLen = extLenAt c s
  ext    : ∀ j < n, ext[j]? = some (extByteAt c s j)

/-- The extension is decoded, and PAY_LEN and the first `n` entries of PBUF are those of the stream
(rules R189, R191). -/
structure PayloadDecoded (c : Config) (s : List Byte) (b : Block) (n : Nat) : Prop where
  ext    : ExtDecoded c s b.extLen b.ext b.extLen.toNat
  payLen : b.payLen = payLenAt c s
  pbuf   : ∀ j < n, bufGet b.pbuf j = some (payByteAt c s j)

/-- What a run at PHASE `p` has decoded and still needs. -/
def DecodedAt (c : Config) (s : List Byte) (b : Block) (p : Phase) : Prop :=
  match p with
  | .idle | .marker => True
  | .header => ∀ j < b.idx.toNat, bufGet b.mbuf j = some (byteAt s (c.headerSize + 8 * j))
  | .extLen => ExtDecoded c s b.extLen b.ext b.idx.toNat
  | .ext => ExtDecoded c s b.extLen b.ext b.extLen.toNat
  | .payLen => PayloadDecoded c s b b.idx.toNat
  | .payload | .output | .done => PayloadDecoded c s b b.payLen.toNat

/-- The next entry of a buffer continues what it holds. -/
theorem bufPut_holds {b : Buf} {f : Nat → Byte} {n : Nat} (h : ∀ j < n, bufGet b j = some (f j)) :
    ∀ j < n + 1, bufGet (bufPut b n (f n)) j = some (f j) := by
  intro j hj
  by_cases hjn : j = n
  · rw [hjn, bufGet_bufPut_self]
  · rw [bufGet_bufPut_of_ne b _ hjn]
    exact h j (by omega)

/-- The next entry of a register file continues what it holds. -/
theorem set_holds {l : List Byte} {f : Nat → Byte} {n : Nat} (hn : n < l.length)
    (h : ∀ j < n, l[j]? = some (f j)) : ∀ j < n + 1, (l.set n (f n))[j]? = some (f j) := by
  intro j hj
  by_cases hjn : n = j
  · rw [← hjn, List.getElem?_set_self hn]
  · rw [List.getElem?_set_ne hjn]
    exact h j (by omega)

theorem bytesAt_getElem? (s : List Byte) (o : Nat) {n j : Nat} (hj : j < n) :
    (bytesAt s o n)[j]? = some (byteAt s (o + 8 * j)) := by
  simp [bytesAt, hj]

/-! ### The invariant of a run -/

/-- The cursor at PHASE `p` of a run (10_state.md rule R43). -/
def cursorAt (c : Config) (b : Block) (p : Phase) : Nat :=
  match p with
  | .idle => 0
  | .header => c.headerSize + 8 * b.idx.toNat
  | .marker => c.headerSize + 8 * c.markerLen
  | .extLen => c.headerSize + 8 * c.markerLen + 32 + 8 * b.idx.toNat
  | .ext => c.headerSize + 8 * c.markerLen + 32 + 8 * b.extLen.toNat
  | .payLen => c.headerSize + 8 * c.markerLen + 64 + 8 * b.extLen.toNat + 8 * b.idx.toNat
  | .payload | .output | .done =>
    c.headerSize + 8 * c.markerLen + 64 + 8 * b.extLen.toNat + 8 * b.payLen.toNat

/-- A run of the Extractor, with no host event and in the well-behaved environment, that will end as
`e` says. -/
structure Extracting (e : ExtractEnd) (t : State) : Prop where
  inv     : Inv t
  busy    : t.blk.busy = true
  mode    : t.blk.mode = .extractor
  inputs  : t.host.inputs = []
  pending : t.env.pending = none
  answers : WellBehaved t.env
  pos     : t.env.cin.pos = t.blk.curIn.toNat
  room    : t.env.cin.pos ≤ t.env.cin.content.length
  decoded : DecodedAt t.cfg t.env.cin.content t.blk t.blk.phase
  tests   : e = testsFrom t.cfg t.env.cin.content t.blk.phase
  pout    : t.env.pout = if t.blk.phase = .output then payloadAt t.cfg t.env.cin.content else []

/-- A run under the configuration `c` has ended as `e` says (rule R195). -/
def EndedAs (c : Config) (e : ExtractEnd) (t : State) : Prop :=
  t.blk.busy = false ∧ t.blk.mode = .extractor ∧
    match e with
    | .success ext payload =>
      t.blk.done = true ∧ t.blk.fail = false ∧ t.blk.phase = .done ∧
      t.blk.extLen.toNat = ext.length ∧
      t.blk.ext = ext ++ List.replicate (c.extBufCap - ext.length) 0x00#8 ∧
      t.blk.payLen.toNat = payload.length ∧ t.env.pout = payload
    | .failure k p =>
      t.blk.done = false ∧ t.blk.fail = true ∧ t.blk.err = some k ∧ t.blk.phase = p ∧
      t.env.pout = []

/-- The sequencer's turn goes on with the run, or ends it. -/
def Proceeds (e : ExtractEnd) (t : State) : Prop :=
  ∃ u, sequencerTurn t = .next u ∧ (Extracting e u ∨ EndedAs t.cfg e u)

/-- The block `b` continues the run, `n` carrier bytes further. -/
structure Continues (e : ExtractEnd) (t : State) (n : Nat) (b : Block) : Prop where
  busy    : b.busy = t.blk.busy
  curIn   : b.curIn = t.blk.curIn + BitVec.ofNat 64 n
  phase   : b.phase ≠ .output
  decoded : DecodedAt t.cfg t.env.cin.content b b.phase
  tests   : e = testsFrom t.cfg t.env.cin.content b.phase

namespace Extracting

variable {e : ExtractEnd} {t : State} {n : Nat}

theorem running (h : Extracting e t) : Running t.blk := h.inv.blockOk.running h.busy

theorem extractorAt (h : Extracting e t) : ExtractorAt t.cfg t.blk t.blk.phase := by
  obtain ⟨-, -, -, -, hat⟩ := (extractorOk_iff _ _).1 (h.inv.extractor h.mode)
  exact hat

theorem pos_at (h : Extracting e t) {p : Phase} (hp : t.blk.phase = p) :
    t.env.cin.pos = cursorAt t.cfg t.blk p := by
  have hat := h.extractorAt
  have herr := h.running.err
  rw [h.pos]
  cases p <;>
    simp only [hp, ExtractorAt, cursorAt, herr, Config.required, ne_eq, reduceCtorEq,
      not_false_eq_true, forall_const] at hat ⊢ <;> omega

/-- The cursor does not wrap (10_state.md rule R32). -/
theorem curIn_add (h : Extracting e t) (hn : n < 4294967296) :
    (t.blk.curIn + BitVec.ofNat 64 n).toNat = t.env.cin.pos + n := by
  obtain ⟨hhead, ⟨-, hmarker⟩, -⟩ := h.inv.cfg
  have hmarker : t.cfg.markerLen ≤ 256 := hmarker
  have hidx := t.blk.idx.isLt
  have hext := t.blk.extLen.isLt
  have hpay := t.blk.payLen.isLt
  have hpos := h.pos_at rfl
  have hlt : t.env.cin.pos < 2 ^ 40 := by
    rw [hpos]
    unfold cursorAt
    split <;> omega
  rw [h.pos] at hlt ⊢
  exact cursor_add (by omega)

theorem step_eq (h : Extracting e t) : step t = sequencerTurn t := step_quiet h.pending h.inputs

theorem inv_next (h : Extracting e t) {u : State} (hturn : sequencerTurn t = .next u) : Inv u :=
  everyStepKeepsTheInvariant _ _ h.inv (h.step_eq.trans hturn)

/-- POUT receives nothing before the output write (42_extractor.md rule R193). -/
theorem pout_nil (h : Extracting e t) (hout : t.blk.phase ≠ .output) : t.env.pout = [] :=
  h.pout.trans (if_neg hout)

/-! ### How a step goes on with a run or ends it -/

/-- Failure entry ends the run at its PHASE (60_exceptions.md rule R216). -/
theorem endedAs_failure (h : Extracting e t) {k : FailKind} {b : Block} {u : State}
    (hblk : u.blk = failedBlock k b) (hdone : b.done = t.blk.done) (hmode : b.mode = t.blk.mode)
    (hphase : b.phase = t.blk.phase) (hout : t.blk.phase ≠ .output)
    (hpout : u.env.pout = t.env.pout) (he : e = .failure k t.blk.phase) : EndedAs t.cfg e u := by
  subst he
  rw [EndedAs, hblk]
  exact ⟨rfl, hmode.trans h.mode, hdone.trans h.running.done, rfl, rfl, hphase,
    hpout.trans (h.pout_nil hout)⟩

/-- A step that issues no transaction. -/
theorem proceeds_of_block (h : Extracting e t) {b : Block}
    (hturn : sequencerTurn t = .next { t with blk := b }) (hout : t.blk.phase ≠ .output)
    (hb : Continues e t 0 b) : Proceeds e t := by
  obtain ⟨-, -, -, hmode, -⟩ := sequencerTurn_regsKept hturn
  refine ⟨_, hturn, .inl ⟨h.inv_next hturn, hb.busy.trans h.busy, hmode.trans h.mode, h.inputs,
    h.pending, h.answers, ?_, h.room, hb.decoded, hb.tests,
    (h.pout_nil hout).trans (if_neg hb.phase).symm⟩⟩
  exact h.pos.trans (congrArg BitVec.toNat (hb.curIn.trans (BitVec.add_zero _))).symm

/-- A step that reads carrier bytes which are there. -/
theorem proceeds_of_room (h : Extracting e t) {g : List Byte → Block} (hg : ReadsGroup t n g)
    (hout : t.blk.phase ≠ .output) (hn : n < 4294967296)
    (hroom : t.env.cin.pos + n ≤ t.env.cin.content.length)
    (hb : Continues e t n (g (seg t.env.cin.content t.env.cin.pos (t.env.cin.pos + n)))) :
    Proceeds e t := by
  have hturn := hg.1 hroom (plan_getD_ok h.answers 0)
  obtain ⟨-, -, -, hmode, -⟩ := sequencerTurn_regsKept hturn
  refine ⟨_, hturn, .inl ⟨h.inv_next hturn, hb.busy.trans h.busy, hmode.trans h.mode, h.inputs,
    h.pending, plan_drop_ok h.answers 1, ?_, hroom, hb.decoded, hb.tests,
    (h.pout_nil hout).trans (if_neg hb.phase).symm⟩⟩
  exact (h.curIn_add hn).symm.trans (congrArg BitVec.toNat hb.curIn).symm

/-- A step that reads carrier bytes of which some are missing (20_memory.md rule R74). -/
theorem proceeds_of_short (h : Extracting e t) {g : List Byte → Block} (hg : ReadsGroup t n g)
    (hout : t.blk.phase ≠ .output) (hshort : t.env.cin.content.length < t.env.cin.pos + n)
    (he : e = .failure .ioError t.blk.phase) : Proceeds e t := by
  obtain ⟨u, hturn, hblk, -, -, -, -, -, hpout⟩ := hg.2 (.inr ⟨plan_getD_ok h.answers 0, hshort⟩)
  exact ⟨u, hturn, .inr (h.endedAs_failure hblk rfl rfl rfl hout (hpout trivial) he)⟩

/-- A step that reads carrier bytes. -/
theorem proceeds_of_read (h : Extracting e t) {g : List Byte → Block} (hg : ReadsGroup t n g)
    (hout : t.blk.phase ≠ .output) (hn : n < 4294967296)
    (hshort : t.env.cin.content.length < t.env.cin.pos + n → e = .failure .ioError t.blk.phase)
    (hb : t.env.cin.pos + n ≤ t.env.cin.content.length →
      Continues e t n (g (seg t.env.cin.content t.env.cin.pos (t.env.cin.pos + n)))) :
    Proceeds e t := by
  rcases Nat.lt_or_ge t.env.cin.content.length (t.env.cin.pos + n) with hlt | hroom
  · exact h.proceeds_of_short hg hout hlt (hshort hlt)
  · exact h.proceeds_of_room hg hout hn hroom (hb hroom)

/-! ### The steps -/

/-- What the invariant of the run says at PHASE `p`. -/
theorem at_phase (h : Extracting e t) {p : Phase} (hp : t.blk.phase = p) :
    RunningAt .extractor p t ∧ ExtractorAt t.cfg t.blk p ∧
      DecodedAt t.cfg t.env.cin.content t.blk p ∧ e = testsFrom t.cfg t.env.cin.content p := by
  subst hp
  exact ⟨⟨h.busy, h.mode, rfl⟩, h.extractorAt, h.decoded, h.tests⟩

/-- The first test: the header is there (rule R181). -/
theorem proceeds_idle (h : Extracting e t) (hp : t.blk.phase = .idle) : Proceeds e t := by
  obtain ⟨hat, -, -, htests⟩ := h.at_phase hp
  have hpos : t.env.cin.pos = 0 := h.pos_at hp
  obtain ⟨hhead, -⟩ := h.inv.cfg
  rw [testsFrom, extractEnd_eq_headerTests] at htests
  refine h.proceeds_of_read (headerSkipStep t hat) (by simp [hp]) hhead (fun hshort => ?_)
    fun hroom => ⟨rfl, rfl, nofun, nofun, ?_⟩
  · rw [htests, if_pos (by omega), hp]
  · rw [htests, if_neg (by omega)]
    rfl

/-- The second and the third test: the marker is there, and is the block's (rules R182, R183). -/
theorem proceeds_header (h : Extracting e t) (hp : t.blk.phase = .header) : Proceeds e t := by
  obtain ⟨hat, ⟨hle, -⟩, hmbuf, htests⟩ := h.at_phase hp
  obtain ⟨-, ⟨-, (hmarker : t.cfg.markerLen ≤ 256)⟩, -⟩ := h.inv.cfg
  obtain ⟨hbyte, hend⟩ := markerDecodeThenVerify t hat
  have hpos : t.env.cin.pos = t.cfg.headerSize + 8 * t.blk.idx.toNat :=
    h.pos_at hp
  rw [testsFrom, headerTests] at htests
  rcases hle.lt_or_eq with hi | hi
  · refine h.proceeds_of_read (hbyte hi) (by simp [hp]) (by decide) (fun hshort => ?_)
      fun hroom => ⟨rfl, rfl, by simp [hp], ?_, by rw [h.tests]⟩
    · rw [htests, if_pos (by omega), hp]
    · have hidx : (t.blk.idx + 1).toNat = t.blk.idx.toNat + 1 := idx_succ (by omega)
      simp only [hp, DecodedAt, hidx, hpos]
      exact bufPut_holds (f := fun j => byteAt t.env.cin.content (t.cfg.headerSize + 8 * j)) hmbuf
  · obtain ⟨-, hsame, hdiff⟩ := hend h.inv hi
    have hroom := h.room
    have hentry : ∀ j < t.cfg.markerLen, bufGet t.blk.mbuf j =
        (bytesAt t.env.cin.content t.cfg.headerSize t.cfg.markerLen)[j]? := fun j hj =>
      (hmbuf j (hi ▸ hj)).trans (bytesAt_getElem? _ _ hj).symm
    rw [if_neg (by omega)] at htests
    by_cases hm : bytesAt t.env.cin.content t.cfg.headerSize t.cfg.markerLen = t.cfg.marker
    · rw [if_neg (not_not.2 hm)] at htests
      exact h.proceeds_of_block
        (hsame fun j hj => (hentry j hj).trans (congrArg (·[j]?) hm)) (by simp [hp])
        ⟨rfl, (BitVec.add_zero _).symm, nofun, trivial, htests⟩
    · rw [if_pos hm] at htests
      have hturn := hdiff (by
        by_contra hall
        push Not at hall
        exact hm (eq_of_getElem?_lt (bytesAt_length _ _ _) rfl fun j hj =>
          (hentry j hj).symm.trans (hall j hj)))
      exact ⟨_, hturn, .inr (h.endedAs_failure rfl rfl rfl rfl (by simp [hp]) rfl (hp ▸ htests))⟩

/-- The fourth and the fifth test: the extension length is there, and below EXT_BUF_CAP (rule
R185). -/
theorem proceeds_marker (h : Extracting e t) (hp : t.blk.phase = .marker) : Proceeds e t := by
  obtain ⟨hat, -, -, htests⟩ := h.at_phase hp
  have hread := extensionLengthGuard t hat
  have hout : t.blk.phase ≠ .output := by simp [hp]
  have hpos : t.env.cin.pos = t.cfg.headerSize + 8 * t.cfg.markerLen :=
    h.pos_at hp
  rw [testsFrom, markerTests] at htests
  rcases Nat.lt_or_ge t.env.cin.content.length (t.env.cin.pos + 32) with hlt | hroom
  · exact h.proceeds_of_short hread hout hlt (by rw [htests, if_pos (by omega), hp])
  · rw [if_neg (by omega)] at htests
    by_cases hcap : t.cfg.extBufCap ≤ (extLenAt t.cfg t.env.cin.content).toNat
    · rw [if_pos hcap] at htests
      have hturn := hread.1 hroom (plan_getD_ok h.answers 0)
      rw [hpos] at hturn
      exact ⟨_, hturn, .inr (h.endedAs_failure (if_pos hcap) rfl rfl rfl hout rfl (hp ▸ htests))⟩
    · rw [if_neg hcap] at htests
      refine h.proceeds_of_room hread hout (by decide) hroom ?_
      rw [hpos]
      dsimp only
      rw [if_neg (by exact hcap)]
      exact ⟨rfl, rfl, nofun, ⟨rfl, nofun⟩, htests⟩

/-- The sixth test: the extension is there (rules R186, R187). -/
theorem proceeds_extLen (h : Extracting e t) (hp : t.blk.phase = .extLen) : Proceeds e t := by
  obtain ⟨hat, ⟨hle, -⟩, ⟨hextLen, hext⟩, htests⟩ := h.at_phase hp
  obtain ⟨hbyte, hend⟩ := extensionDecodeThenTerminate t h.inv hat
  have hlt := extLen_lt_length h.inv h.mode (by simp [hp])
  have hE := congrArg BitVec.toNat hextLen
  have hpos : t.env.cin.pos = t.cfg.headerSize + 8 * t.cfg.markerLen + 32 + 8 * t.blk.idx.toNat :=
    h.pos_at hp
  have hsize := t.blk.extLen.isLt
  rw [testsFrom, extLenTests, ← hE] at htests
  rcases hle.lt_or_eq with hi | hi
  · refine h.proceeds_of_read (hbyte hi) (by simp [hp]) (by decide) (fun hshort => ?_)
      fun hroom => ⟨rfl, rfl, by simp [hp], ?_, by rw [h.tests]⟩
    · rw [htests, if_pos (by omega), hp]
    · have hidx : (t.blk.idx + 1).toNat = t.blk.idx.toNat + 1 := idx_succ (by omega)
      simp only [hp, DecodedAt, hidx, hpos]
      exact ⟨hextLen, set_holds (f := extByteAt t.cfg t.env.cin.content) (hi.trans hlt) hext⟩
  · have hroom := h.room
    rw [if_neg (by omega)] at htests
    refine h.proceeds_of_block (hend hi) (by simp [hp])
      ⟨rfl, (BitVec.add_zero _).symm, nofun, ⟨hextLen, fun j hj => ?_⟩, htests⟩
    have hj : j < t.blk.extLen.toNat := hj
    simp only [List.getElem?_set_ne hj.ne']
    exact hext j (hi ▸ hj)

/-- The seventh test: the payload length is there (rule R189). -/
theorem proceeds_ext (h : Extracting e t) (hp : t.blk.phase = .ext) : Proceeds e t := by
  obtain ⟨hat, -, hext, htests⟩ := h.at_phase hp
  have hE := congrArg BitVec.toNat hext.extLen
  have hpos : t.env.cin.pos =
      t.cfg.headerSize + 8 * t.cfg.markerLen + 32 + 8 * (extLenAt t.cfg t.env.cin.content).toNat :=
    hE ▸ h.pos_at hp
  rw [testsFrom, extTests] at htests
  refine h.proceeds_of_read (payloadLengthDecode t hat) (by simp [hp]) (by decide)
    (fun hshort => ?_) fun hroom => ⟨rfl, rfl, nofun, ⟨hext, ?_, nofun⟩, ?_⟩
  · rw [htests, if_pos (by omega), hp]
  · rw [hpos]
    rfl
  · rw [htests, if_neg (by omega)]
    rfl

/-- The eighth and the ninth test: the payload fits into PBUF, and is there (rules R190 to R192). -/
theorem proceeds_payLen (h : Extracting e t) (hp : t.blk.phase = .payLen) : Proceeds e t := by
  obtain ⟨hat, ⟨hle, -⟩, ⟨hext, hpayLen, hpbuf⟩, htests⟩ := h.at_phase hp
  obtain ⟨hresource, hbyte, hend⟩ := resourceCheckThenPayloadDecode t hat
  have hE := congrArg BitVec.toNat hext.extLen
  have hP := congrArg BitVec.toNat hpayLen
  have hpos : t.env.cin.pos = t.cfg.headerSize + 8 * t.cfg.markerLen + 64 +
      8 * (extLenAt t.cfg t.env.cin.content).toNat + 8 * t.blk.idx.toNat := hE ▸ h.pos_at hp
  have hsize := t.blk.payLen.isLt
  rw [testsFrom, payLenTests, ← hP] at htests
  rcases Nat.lt_or_ge t.cfg.payBufCap t.blk.payLen.toNat with hcap | hcap
  · rw [if_pos hcap] at htests
    obtain ⟨hturn, -⟩ := hresource hcap
    exact ⟨_, hturn, .inr (h.endedAs_failure rfl rfl rfl rfl (by simp [hp]) rfl (hp ▸ htests))⟩
  rw [if_neg hcap.not_gt] at htests
  rcases hle.lt_or_eq with hi | hi
  · refine h.proceeds_of_read (hbyte hcap hi) (by simp [hp]) (by decide) (fun hshort => ?_)
      fun hroom => ⟨rfl, rfl, by simp [hp], ?_, by rw [h.tests]⟩
    · rw [htests, if_pos (by omega), hp]
    · have hidx : (t.blk.idx + 1).toNat = t.blk.idx.toNat + 1 := idx_succ (by omega)
      simp only [hp, DecodedAt, hidx, hpos]
      exact ⟨hext, hpayLen, bufPut_holds (f := payByteAt t.cfg t.env.cin.content) hpbuf⟩
  · have hroom := h.room
    rw [if_neg (by omega)] at htests
    exact h.proceeds_of_block (hend hcap hi) (by simp [hp])
      ⟨rfl, (BitVec.add_zero _).symm, nofun,
        ⟨hext, hpayLen, fun j hj => hpbuf j (hi ▸ hj)⟩, htests⟩

/-- All tests are passed, and POUT receives the payload (rule R193). -/
theorem proceeds_payload (h : Extracting e t) (hp : t.blk.phase = .payload) : Proceeds e t := by
  obtain ⟨hat, -, hdecoded, htests⟩ := h.at_phase hp
  obtain ⟨bytes, hlen, hbytes, hok, -⟩ := outputWriteIsOneTransaction t h.inv hat
  have hturn := hok (plan_getD_ok h.answers 0)
  have hP := congrArg BitVec.toNat hdecoded.payLen
  have hpayload : bytes = payloadAt t.cfg t.env.cin.content :=
    eq_of_getElem?_lt (hlen.trans hP) (bytesAt_length _ _ _) fun j hj =>
      (hbytes j (hP ▸ hj)).trans
        ((hdecoded.pbuf j (hP ▸ hj)).trans (bytesAt_getElem? _ _ hj).symm)
  refine ⟨_, hturn, .inl ⟨h.inv_next hturn, h.busy, h.mode, h.inputs, h.pending,
    plan_drop_ok h.answers 1, h.pos, h.room, ⟨hdecoded.ext, hdecoded.payLen, hdecoded.pbuf⟩,
    htests, ?_⟩⟩
  simp only [h.pout_nil (by simp [hp]), hpayload, List.nil_append, if_true]

/-- EXT holds the extension, and zeros behind it (rule R187, 93 U13). -/
theorem ext_eq (h : Extracting e t) (hp : t.blk.phase = .output) :
    t.blk.ext = bytesAt t.env.cin.content (t.cfg.headerSize + 8 * t.cfg.markerLen + 32)
        t.blk.extLen.toNat ++
      List.replicate (t.cfg.extBufCap - t.blk.extLen.toNat) 0x00#8 := by
  obtain ⟨-, -, ⟨⟨-, hext⟩, -⟩, -⟩ := h.at_phase hp
  obtain ⟨-, hzero, -⟩ := (extractorOk_iff _ _).1 (h.inv.extractor h.mode)
  obtain ⟨-, hlen, -⟩ := h.inv.files
  have hcap := extLen_lt_length h.inv h.mode (by simp [hp])
  simp only [extFilled, hp] at hzero
  refine eq_of_getElem?_lt hlen (by simp; omega) fun j hj => ?_
  rcases Nat.lt_or_ge j t.blk.extLen.toNat with hlt | hge
  · rw [List.getElem?_append_left (by simpa using hlt), bytesAt_getElem? _ _ hlt]
    exact hext j hlt
  · rw [List.getElem?_append_right (by simpa using hge), bytesAt_length,
      List.getElem?_replicate_of_lt (by omega)]
    exact hzero j hge (hlen ▸ hj)

/-- The last step of a run that has passed all tests (rule R194). -/
theorem proceeds_output (h : Extracting e t) (hp : t.blk.phase = .output) : Proceeds e t := by
  obtain ⟨hat, -, hdecoded, rfl⟩ := h.at_phase hp
  obtain ⟨_, hturn, rfl, -⟩ := finalStepSetsDone t .extractor hat
  have hE := congrArg BitVec.toNat hdecoded.ext.extLen
  have hP := congrArg BitVec.toNat hdecoded.payLen
  have hext := h.ext_eq hp
  have hsent := h.pout
  rw [if_pos hp] at hsent
  refine ⟨_, hturn, .inr ⟨rfl, h.mode, rfl, h.running.fail, rfl, ?_, ?_, ?_, hsent⟩⟩
  · rw [bytesAt_length]
    exact hE
  · rw [bytesAt_length, ← hE]
    exact hext
  · rw [bytesAt_length]
    exact hP

/-- Every step keeps the invariant of the run, or ends the run as the tests say. -/
theorem proceeds (h : Extracting e t) : Proceeds e t := by
  cases hp : t.blk.phase with
  | idle => exact h.proceeds_idle hp
  | header => exact h.proceeds_header hp
  | marker => exact h.proceeds_marker hp
  | extLen => exact h.proceeds_extLen hp
  | ext => exact h.proceeds_ext hp
  | payLen => exact h.proceeds_payLen hp
  | payload => exact h.proceeds_payload hp
  | output => exact h.proceeds_output hp
  | done => exact absurd hp h.running.phase

/-! ### The whole run -/

theorem alwaysAnswers (h : Extracting e t) : AlwaysAnswers t.env :=
  ⟨h.pending, fun hn => nomatch h.answers _ hn⟩

/-- The run ends as the tests say, by induction on what is left of it (70_reset_and_hazards.md rule
R253). -/
theorem ends (h : Extracting e t) : ∃ n v, runFor n t = .next v ∧ EndedAs t.cfg e v := by
  induction hleft : runLeft t.cfg t.blk using WellFoundedLT.induction generalizing t with
  | ind left ih =>
    subst hleft
    obtain ⟨u, hturn, hu⟩ := h.proceeds
    have hstep := h.step_eq.trans hturn
    rcases hu with hu | hu
    · have hcfg := configurationAndUnusedRegistersStay.1 t u hstep
      have hcloser := sequencerTurn_runCloser h.inv.cfg h.alwaysAnswers hturn
      have hlt : runLeft u.cfg u.blk < runLeft t.cfg t.blk :=
        hcfg ▸ hcloser.resolve_left (by simp [hu.busy])
      obtain ⟨n, v, hrun, hv⟩ := ih _ hlt hu rfl
      exact ⟨n + 1, v, (runFor_succ hstep).trans hrun, hcfg ▸ hv⟩
    · exact ⟨1, u, runFor_succ hstep, hu⟩

end Extracting

/-- The state after an accepted EXTRACT that was the last host event (rule R180). -/
def extractAccepted (s : State) : State := (startExtract (s.setInputs [])).answer .okWrite

theorem step_extractAccepted {s : State} (hr : Ready s.blk) (hp : s.env.pending = none)
    (hin : s.host.inputs = [.write 4 0x000 (encode .extract)]) :
    step s = .next (extractAccepted s) := by
  obtain ⟨hstep, -⟩ :=
    stepRunsTheCommandWritten s (encode .extract) .extract hp (decode_encode .extract)
  rw [hstep [] hin, exec_ready (s := s.setInputs []) hr]
  rfl

/-- Settles O54: the step that accepts EXTRACT, and the run that `Extracting.ends` follows from
there. -/
theorem extractRunEndsAsTheTestsSay : Obligations.ExtractRunEndsAsTheTestsSay := by
  intro s hinv hr hp hin hok hcin hpout
  have hstep := step_extractAccepted hr hp hin
  have hidle : s.blk.phase = .idle := hr.1
  have hstart : Extracting (extractEnd s.cfg s.env.cin.content) (extractAccepted s) := {
    inv := everyStepKeepsTheInvariant _ _ hinv hstep
    busy := rfl
    mode := rfl
    inputs := rfl
    pending := hp
    answers := hok
    pos := hcin
    room := hcin.trans_le (Nat.zero_le _)
    decoded := hidle ▸ trivial
    tests := hidle ▸ rfl
    pout := hpout.trans (if_neg (hidle ▸ nofun)).symm }
  obtain ⟨n, t, hrun, hend⟩ := hstart.ends
  exact ⟨n + 1, t, (runFor_succ hstep).trans hrun, hend⟩

end Sys2Proof
end

section
/-! PROOF of O10 and O15 (70_reset_and_hazards.md rules R240, R241, R247). The host write outside
READY and the reset, each as the step that its event takes. -/

namespace Sys2Proof

open Sys2Proof.Machine

/-- READY excludes a run and both terminal states (10_state.md rule R28). -/
theorem not_ready_of_flag {b : Block} (h : b.busy = true ∨ b.done = true ∨ b.fail = true) :
    ¬Ready b := by
  rintro ⟨-, hbusy, hdone, hfail⟩
  simp [hbusy, hdone, hfail] at h

/-- Settles O10: outside READY a write of any size, offset and word is `Refused`. -/
theorem writesOutsideReadyAreLost : Obligations.WritesOutsideReadyAreLost := by
  intro s size off w rest hp hflag hin
  rw [step_event hp hin]
  exact hostWrite_refused (s := s.setInputs rest) size off w (not_ready_of_flag hflag)

/-- Settles O15: the reset step leaves the block that `Block.reset` writes down. -/
theorem resetEventSetsEveryRegister : Obligations.ResetEventSetsEveryRegister := by
  intro s rest hin
  exact ⟨_, step_reset hin, rfl, rfl, rfl, ⟨rfl, rfl, rfl, rfl⟩, rfl, rfl, rfl, rfl, rfl, rfl, rfl,
    rfl, rfl, rfl, rfl, rfl, rfl, rfl, fun _ => List.eq_of_mem_replicate, List.length_replicate,
    fun _ => List.eq_of_mem_replicate, fun _ => ⟨rfl, rfl⟩⟩

end Sys2Proof
end

section
/-! PROOF of O58 (70_reset_and_hazards.md rules R253, R256; 41_embedder.md rule R161,
42_extractor.md rule R184). The block of a run says how many turns the run has taken, since PHASE,
IDX and CUR_IN grow with each turn. So the length of a run is read off the block that it ends in. -/

namespace Sys2Proof

open Sys2Proof.Machine

/-! ### The turns that a run has taken -/

/-- How many bytes of the tail have been copied (41_embedder.md rule R159): the carrier bytes that
CUR_IN has passed beyond the two fields. An Extractor run copies none. -/
def tailDone (c : Config) (b : Block) : Nat :=
  b.curIn.toNat - (c.headerSize + c.required b.extLen.toNat b.payLen.toNat)

/-- The turns from the start of a run to the block `b`: one for each milestone, one for each byte
of a field, and one for the turn that failed. -/
def turnsTaken (c : Config) (b : Block) : Nat :=
  b.fail.toNat +
    match b.phase with
    | .idle => 0
    | .header => 1 + b.idx.toNat
    | .marker => 2 + c.markerLen
    | .extLen => 3 + c.markerLen + b.idx.toNat
    | .ext => 4 + c.markerLen + b.extLen.toNat
    | .payLen => 5 + c.markerLen + b.extLen.toNat + b.idx.toNat
    | .payload => 6 + c.markerLen + b.extLen.toNat + b.payLen.toNat + tailDone c b
    | .output => 7 + c.markerLen + b.extLen.toNat + b.payLen.toNat + tailDone c b
    | .done => 8 + c.markerLen + b.extLen.toNat + b.payLen.toNat + tailDone c b

theorem BlockOk.embedderAt {c : Config} {b : Block} (h : BlockOk c b) (hm : b.mode = .embedder) :
    EmbedderAt c b b.phase := by
  obtain ⟨-, -, hat⟩ := (embedderOk_iff c b).1 (h.embedder hm)
  exact hat

theorem BlockOk.extractorAt {c : Config} {b : Block} (h : BlockOk c b)
    (hm : b.mode = .extractor) : ExtractorAt c b b.phase := by
  obtain ⟨-, -, -, -, hat⟩ := (extractorOk_iff c b).1 (h.extractor hm)
  exact hat

/-- Failure entry is one turn (60_exceptions.md rule R216). -/
theorem turnsTaken_failed {c : Config} {b : Block} (hf : b.fail = false) (k : FailKind) :
    turnsTaken c (b.failed k) = turnsTaken c b + 1 := by
  simp only [turnsTaken, tailDone, hf, Bool.toNat_true, Bool.toNat_false]
  omega

theorem Machine.EmbedMove.turnsTaken_succ {c : Config} {b b' : Block} (hc : c.Wf)
    (hat : EmbedderAt c b b.phase) (h : EmbedMove c b b') :
    turnsTaken c b' = turnsTaken c b + 1 := by
  obtain ⟨-, ⟨-, hmark⟩, -⟩ := hc
  have hmark : c.markerLen ≤ 256 := hmark
  have hext := b.extLen.isLt
  have hpay := b.payLen.isLt
  have hlen := b.carrierLen.isLt
  cases h with
  | markerByte hp hi | extByte hp hi | payByte hp hi =>
    simp only [turnsTaken, hp]
    rw [idx_succ (by omega)]
    omega
  | tailByte hp hi =>
    simp only [hp, EmbedderAt] at hat
    simp only [turnsTaken, tailDone, hp]
    rw [cursor_add (by omega)]
    omega
  | header hp => simp [turnsTaken, hp]
  | markerEnd hp hi | extLen hp | extEnd hp hi | payLen hp | payEnd hp hi
  | tailEnd hp hi | finish hp =>
    simp only [hp, EmbedderAt] at hat
    simp only [turnsTaken, tailDone, hp, Config.required, BitVec.ofNat_eq_ofNat,
      BitVec.toNat_zero] at hat ⊢
    omega

theorem Machine.ExtractMove.turnsTaken_succ {s : State} {b b' : Block} (hc : s.cfg.Wf)
    (hfail : b.fail = false) (hat : ExtractorAt s.cfg b b.phase) (h : ExtractMove s b b') :
    turnsTaken s.cfg b' = turnsTaken s.cfg b + 1 := by
  obtain ⟨-, ⟨-, hmark⟩, -⟩ := hc
  have hmark : s.cfg.markerLen ≤ 256 := hmark
  have hext := b.extLen.isLt
  have hpay := b.payLen.isLt
  cases h with
  | markerByte v hp hi | extByte v hp hi | payByte v hp _ hi =>
    simp only [turnsTaken, hp]
    rw [idx_succ (by omega)]
    omega
  | markerBad | resource => exact turnsTaken_failed hfail _
  | extLenBad w hp =>
    simp only [turnsTaken, hp, hfail, Bool.toNat_true, Bool.toNat_false]
    omega
  | header hp => simp [turnsTaken, hp]
  | markerOk hp hi | extLenOk w hp | extEnd hp hi | payLen w hp | payEnd hp hr hi
  | output hp | finish hp =>
    simp only [hp, ExtractorAt] at hat
    simp only [turnsTaken, tailDone, hp, Config.required, BitVec.ofNat_eq_ofNat,
      BitVec.toNat_zero] at hat ⊢
    omega

theorem Machine.Stepped.turnsTaken_succ {s t : State} {M : Block → Prop} (h : Stepped s t M)
    (hp : t.env.pending = none) (hf : s.blk.fail = false)
    (hmove : ∀ b, M b → turnsTaken s.cfg b = turnsTaken s.cfg s.blk + 1) :
    turnsTaken t.cfg t.blk = turnsTaken s.cfg s.blk + 1 := by
  obtain ⟨hcfg, -, ⟨hwait, -⟩ | ⟨-, -, hb⟩ | ⟨-, hm⟩⟩ := h <;> rw [hcfg]
  · rw [hp] at hwait
    cases hwait
  · rw [hb]
    exact turnsTaken_failed hf _
  · exact hmove _ hm

/-- With every transaction answered a turn of the sequencer is counted once, however it comes out. -/
theorem sequencerTurn_turnsTaken_succ {s t : State} (hi : Inv s) (ha : AlwaysAnswers s.env)
    (hb : s.blk.busy = true) (h : sequencerTurn s = .next t) :
    turnsTaken t.cfg t.blk = turnsTaken s.cfg s.blk + 1 := by
  obtain ⟨hp, -⟩ := sequencerTurn_alwaysAnswers ha h
  have hf := (hi.blockOk.running hb).fail
  rcases sequencerTurn_cases h with ⟨hidle, -⟩ | ⟨-, hm, hs⟩ | ⟨-, hm, hs⟩
  · rw [hb] at hidle
    cases hidle
  · have hat := hi.blockOk.embedderAt hm
    exact hs.turnsTaken_succ hp hf fun _ => EmbedMove.turnsTaken_succ hi.cfg hat
  · have hat := hi.blockOk.extractorAt hm
    exact hs.turnsTaken_succ hp hf fun _ => ExtractMove.turnsTaken_succ hi.cfg hf hat

/-! ### How many turns a run can take -/

/-- PHASE 8 is no failed stage (10_state.md rule R42, 60_exceptions.md rule R227). -/
theorem BlockOk.fail_of_done {c : Config} {b : Block} (h : BlockOk c b) (hp : b.phase = .done) :
    b.fail = false := by
  obtain ⟨-, hexcl, hphase, -⟩ := h.flags
  exact hexcl (hphase.2 hp)

/-- IDX stays within its field and CUR_IN within the carrier (rule R161). -/
theorem BlockOk.turnsTaken_le_embedder {c : Config} {b : Block} (h : BlockOk c b)
    (hm : b.mode = .embedder) :
    turnsTaken c b ≤ 8 + c.markerLen + b.extLen.toNat + b.payLen.toNat +
      (b.carrierLen.toNat - (c.headerSize + c.required b.extLen.toNat b.payLen.toNat)) := by
  have hat := h.embedderAt hm
  have hfail := b.fail.toNat_le
  unfold turnsTaken tailDone
  cases hp : b.phase <;> simp only [hp, EmbedderAt] at hat ⊢
  case output => rw [hat.2]; omega
  case done => rw [hat.2, h.fail_of_done hp, Bool.toNat_false]; omega
  all_goals omega

/-- IDX stays within its field, and CUR_IN at the end of the decoded fields (rule R184). -/
theorem BlockOk.turnsTaken_le_extractor {c : Config} {b : Block} (h : BlockOk c b)
    (hm : b.mode = .extractor) :
    turnsTaken c b ≤ 8 + c.markerLen + b.extLen.toNat + b.payLen.toNat := by
  have hat := h.extractorAt hm
  have hfail := b.fail.toNat_le
  unfold turnsTaken tailDone
  cases hp : b.phase <;> simp only [hp, ExtractorAt] at hat ⊢
  case done => rw [h.fail_of_done hp, Bool.toNat_false]; omega
  all_goals omega

/-- A run that has taken a turn and is over has ended in exactly one way (rule R256): a block with
neither flag is the one before any run. -/
theorem BlockOk.done_iff_of_turnsTaken {c : Config} {b : Block} (h : BlockOk c b)
    (hb : b.busy = false) (hpos : 0 < turnsTaken c b) : b.done = true ↔ b.fail = false := by
  obtain ⟨-, hexcl, -, -, -, hnone⟩ := h.flags
  refine ⟨hexcl, fun hfail => by_contra fun hdone => ?_⟩
  obtain ⟨hidle, -⟩ := hnone hb (by simpa using hdone) hfail
  simp [turnsTaken, hidle, hfail] at hpos

/-! ### The whole run -/

theorem Machine.RegsKept.trans {m : Mode} {b b' b'' : Block} (h : RegsKept m b b')
    (h' : RegsKept m b' b'') : RegsKept m b b'' := by
  obtain ⟨hval, hlane, hcarrier, hmode, hemb, hext⟩ := h
  obtain ⟨hval', hlane', hcarrier', hmode', hemb', hext'⟩ := h'
  refine ⟨hval'.trans hval, hlane'.trans hlane, hcarrier'.trans hcarrier, hmode'.trans hmode,
    fun hm => ?_, fun hm => (hext' hm).trans (hext hm)⟩
  obtain ⟨he, hp, hx, hmb, hpb⟩ := hemb hm
  obtain ⟨he', hp', hx', hmb', hpb'⟩ := hemb' hm
  exact ⟨he'.trans he, hp'.trans hp, hx'.trans hx, hmb'.trans hmb, hpb'.trans hpb⟩

/-- `n` turns of the sequencer lead from `s` to `t`. -/
structure TurnsTo (s : State) (n : Nat) (t : State) : Prop where
  run   : runFor n s = .next t
  inv   : Inv t
  cfg   : t.cfg = s.cfg
  regs  : RegsKept s.blk.mode s.blk t.blk
  turns : turnsTaken t.cfg t.blk = turnsTaken s.cfg s.blk + n

theorem TurnsTo.refl {s : State} (hi : Inv s) : TurnsTo s 0 s :=
  ⟨rfl, hi, rfl, .refl _ _, rfl⟩

/-- One turn in front of others. -/
theorem TurnsTo.cons {s u t : State} {n : Nat} (hi : Inv s) (ha : AlwaysAnswers s.env)
    (hin : s.host.inputs = []) (hb : s.blk.busy = true) (hturn : sequencerTurn s = .next u)
    (h : TurnsTo u n t) : TurnsTo s (n + 1) t := by
  have hstep : step s = .next u := (step_quiet ha.1 hin).trans hturn
  have hregs := sequencerTurn_regsKept hturn
  have hmode : u.blk.mode = s.blk.mode := by
    obtain ⟨-, -, -, hmode, -⟩ := hregs
    exact hmode
  have hcount := sequencerTurn_turnsTaken_succ hi ha hb hturn
  exact {
    run := (runFor_succ hstep).trans h.run
    inv := h.inv
    cfg := h.cfg.trans (configurationAndUnusedRegistersStay.1 s u hstep)
    regs := hregs.trans (hmode ▸ h.regs)
    turns := by rw [h.turns, hcount]; omega }

/-- From BUSY = 1 a run comes to BUSY = 0, by induction on what is left of it (rule R253). -/
theorem turnsTo_end {s : State} (hi : Inv s) (ha : AlwaysAnswers s.env)
    (hin : s.host.inputs = []) (hb : s.blk.busy = true) :
    ∃ n t, TurnsTo s (n + 1) t ∧ t.blk.busy = false := by
  induction hleft : runLeft s.cfg s.blk using WellFoundedLT.induction generalizing s with
  | ind left ih =>
    subst hleft
    obtain ⟨u, hturn⟩ := sequencerTurn_answers hi
    have hstep : step s = .next u := (step_quiet ha.1 hin).trans hturn
    have hiu := everyStepKeepsTheInvariant s u hi hstep
    suffices h : ∃ n t, TurnsTo u n t ∧ t.blk.busy = false by
      obtain ⟨n, t, ht, hend⟩ := h
      exact ⟨n, t, .cons hi ha hin hb hturn ht, hend⟩
    cases hbu : u.blk.busy with
    | false => exact ⟨0, u, .refl hiu, hbu⟩
    | true =>
      have hcfg := configurationAndUnusedRegistersStay.1 s u hstep
      have hcloser := sequencerTurn_runCloser hi.cfg ha hturn
      have hlt : runLeft u.cfg u.blk < runLeft s.cfg s.blk :=
        hcfg ▸ hcloser.resolve_left (by simp [hbu])
      obtain ⟨n, t, ht, hend⟩ := ih _ hlt hiu (sequencerTurn_alwaysAnswers ha hturn)
        ((congrArg HostSide.inputs (sequencerTurn_host hturn)).trans hin) hbu rfl
      exact ⟨n + 1, t, ht, hend⟩

/-- Settles O58: the run of `turnsTo_end`, whose turns are counted in the block it ends in. -/
theorem everyAnsweredRunEnds : Obligations.EveryAnsweredRunEnds := by
  intro s hi hb hin ha
  obtain ⟨n, t, ⟨hrun, hit, hcfg, hregs, hturns⟩, hend⟩ := turnsTo_end hi ha hin hb
  obtain ⟨-, -, hcarrier, hmode, hemb, -⟩ := hregs
  refine ⟨n + 1, t, hrun, hend, hit.blockOk.done_iff_of_turnsTaken hend (by omega),
    fun hm => ?_, fun hm => ?_⟩
  · have hle := hit.blockOk.turnsTaken_le_embedder (hmode.trans hm)
    obtain ⟨hext, hpay, -⟩ := hemb hm
    rw [hturns, hcfg, hcarrier, hext, hpay] at hle
    omega
  · have hle := hit.blockOk.turnsTaken_le_extractor (hmode.trans hm)
    rw [hturns, hcfg] at hle
    omega

end Sys2Proof
end
